-- ==== Sys2Proof/Word.lean ====
section
/-! DEFINITION. The one data type of the block: the bit vector (00_scope.md rules R12, R13). What is
computed on it stands in `Sys2Proof/Machine/Bits.lean`. -/

namespace Sys2Proof

/-- A bit vector `v` (R12): a length and exactly that many bits. Bit `i` of `bits` is `v[i]`, the bit of
weight `2^i`, so index 0 is the least significant bit. The length of a vector is a run-time value (R11),
hence a field. Length 0 is the empty vector: a sub-term inside `++` (R12) and the "0" of an output field
an operation does not fill (R98, R100). -/
structure Vec where
  /-- `len(v)` -/
  len : Nat
  /-- the bits, least significant bit first in index form -/
  bits : BitVec len
deriving DecidableEq, Repr

/-- The empty vector: length 0, no bits. -/
def Vec.empty : Vec := ⟨0, 0#0⟩

end Sys2Proof
end

