-- ==== Sys2Proof/Machine/Bits.lean ====
section
/-! DEFINITION. The notation of 00_scope.md section 4 (rules R12 to R15) on bit vectors. -/

namespace Sys2Proof

/-- `uint(v)` (R14). -/
def Vec.uint (v : Vec) : Nat := v.bits.toNat

/-- `sint(v)`, the two's-complement value (R14). -/
def Vec.sint (v : Vec) : Int := v.bits.toInt

/-- `v[i]`; a position at or above the length reads 0 (R12, R99). -/
def Vec.bit (v : Vec) (i : Nat) : Bool := v.bits.getLsbD i

/-- `msb(v) = v[len(v)-1]`, the sign bit (R12). -/
def Vec.msb (v : Vec) : Bool := v.bits.msb

/-- `bv_N(x)`, the vector of length `N` with `uint = x mod 2^N` (R14). -/
def bv (n : Nat) (x : Int) : Vec := ⟨n, BitVec.ofInt n x⟩

/-- `zext_N(v) = bv_N(uint(v))` (R15). -/
def Vec.zext (n : Nat) (v : Vec) : Vec := bv n v.uint

/-- `sext_N(v) = bv_N(sint(v))` (R15). -/
def Vec.sext (n : Nat) (v : Vec) : Vec := bv n v.sint

/-- The slice `v[lo+n-1 : lo]` of `n` bits (R12); `n = 0` is the empty slice. -/
def Vec.slice (v : Vec) (lo n : Nat) : Vec := ⟨n, v.bits.extractLsb' lo n⟩

/-- `trunc_N(v) = v[N-1:0]`, the low `N` bits (R15). -/
def Vec.trunc (n : Nat) (v : Vec) : Vec := v.slice 0 n

/-- `a ++ b`: `a` supplies the high bits, `b` the low bits (R13). -/
def Vec.append (a b : Vec) : Vec := ⟨a.len + b.len, a.bits ++ b.bits⟩

/-- The vector of one bit. -/
def Vec.ofBit (b : Bool) : Vec := ⟨1, BitVec.ofBool b⟩

/-- Every bit inverted (R125). -/
def Vec.invert (v : Vec) : Vec := ⟨v.len, ~~~v.bits⟩


/-- The value `sint(v) / 2^F` of a SignedValue (R141). -/
def Vec.value (v : Vec) (f : Nat) : Rat := (v.sint : Rat) / 2 ^ f

/-- The vector in a port field of `w` bit positions, right-aligned (R76): bit `i` of the field is `v[i]`,
and a position at or above the length is 0 (R99). -/
def Vec.field (w : Nat) (v : Vec) : BitVec w := v.bits.setWidth w

/-- `bitlength(x)`, the least `k` with `x < 2^k` (R221). -/
def bitlength (x : Nat) : Nat := if x = 0 then 0 else Nat.log2 x + 1

/-- A bit as the integer it stands for. -/
def bitVal (b : Bool) : Int := if b then 1 else 0

/-- `v` with `v[0] <- b` (R16): the length and every other bit stay. -/
def Vec.writeBit0 (v : Vec) (b : Bool) : Vec := bv v.len (2 * (v.uint / 2 : Nat) + bitVal b)

end Sys2Proof
end

