-- ==== Sys2Proof/Config.lean ====
section
/-! DEFINITION. What an implementation fixes: the two open parameters `WMAX` and `NMAX`
(00_scope.md rules R8, R9) and `RMAX`, which follows from `WMAX` (R10). -/

namespace Sys2Proof

/-- The build-time parameters of one instance of the block (R8, R9, R52). Each is open: "the model takes it
as an argument, and a model may take it unbounded". `none` is the unbounded reading, `some b` the bound `b`.
The machine carries them in `State` (assumption log 1), so a statement about every state is a statement
about every choice of parameters. -/
structure Params where
  /-- `WMAX`: the largest word length and operand-vector length (R8) -/
  wmax : Option Nat
  /-- `NMAX`: the largest bit length of a division operand (R9) -/
  nmax : Option Nat
deriving DecidableEq, Repr

/-- `x` is at most the bound, where there is one. -/
def Params.within (bound : Option Nat) (x : Nat) : Bool :=
  match bound with
  | none => true
  | some b => decide (x ≤ b)

/-- `RMAX = 2*WMAX + 1`, the largest vector length the block produces (R10). -/
def Params.rmax (p : Params) : Option Nat := p.wmax.map (fun w => 2 * w + 1)

/-- `WMAX` and `NMAX` are positive integers (R8, R9). -/
def Params.positive (p : Params) : Bool :=
  decide (p.wmax ≠ some 0) && decide (p.nmax ≠ some 0)

/-- The parameters of the machine `State.reset` starts with: both unbounded, the one reading of the two open
parameters that invents no number (92_eei_decisions.md D2). DESIGN CHOICE, unsafe: assumption log 1. -/
def Config.resetParams : Params := ⟨none, none⟩

end Sys2Proof
end

