-- ==== Sys2Proof/Syntax.lean ====
section
/-! DEFINITION. The operand descriptors, the command and the nine instructions
(30_encoding.md rules R90 to R97, opcode_table.json). -/

namespace Sys2Proof

/-- A bit-vector descriptor, slots `opA` and `opB` (R94): the vector of length `len` whose bit `i` is
`bits[i]`, with a fractional-bit count. `bits` is the slot's bit positions; a position it does not have reads
0, and positions at or above `len` are ignored (R99). -/
structure VecDesc where
  /-- the text layer could not produce a vector at all -/
  bad : Bool := false
  /-- `len(v)` -/
  len : Nat := 0
  /-- the fractional-bit count -/
  frac : Nat := 0
  /-- the slot's bit positions -/
  bits : Vec := Vec.empty
deriving DecidableEq, Repr

/-- A length descriptor, slot `opN` (R97). -/
structure LenDesc where
  /-- the length "is missing, not a positive integer" -/
  bad : Bool := false
  /-- the length -/
  val : Nat := 0
deriving DecidableEq, Repr

/-- An integer descriptor, slots `opX` and `opY` (R96). `val` is the signed integer the two's-complement
field of `NMAX + 1` bits presents. -/
structure IntDesc where
  /-- the text layer found no valid integer, or one that does not fit the field -/
  bad : Bool := false
  /-- `sint(val)` -/
  val : Int := 0
deriving DecidableEq, Repr

/-- A command: the command byte and the five operand slots every command has (R90). -/
structure Command where
  /-- `CMD` (R91): bits 3:0 `OP`, bit 4 `AT`, bit 5 `SX`, bits 7:6 reserved -/
  cmd : BitVec 8
  opA : VecDesc := {}
  opB : VecDesc := {}
  opN : LenDesc := {}
  opX : IntDesc := {}
  opY : IntDesc := {}
deriving DecidableEq, Repr

/-- The nine operations (R3, R92), each with the operand slots it reads (R93). -/
inductive Instr where
  /-- `PADT "v", N [,T] [,S]` (R121): `allowTrunc` is `AT`, `signExt` is `SX` -/
  | padt (allowTrunc signExt : Bool) (v : VecDesc) (n : LenDesc)
  /-- `NEG "v", N` (R125) -/
  | neg (v : VecDesc) (n : LenDesc)
  /-- `ADDS "a", "b"` (R130) -/
  | adds (a b : VecDesc)
  /-- `SHL0 "v"` (R135) -/
  | shl0 (v : VecDesc)
  /-- `DEC "v"` (R140) -/
  | dec (v : VecDesc)
  /-- `MULB2 "a", "b", W` (R160) -/
  | mulb2 (a b : VecDesc) (n : LenDesc)
  /-- `MULB4 "a", "b", W` (R190) -/
  | mulb4 (a b : VecDesc) (n : LenDesc)
  /-- `DIVR x, y` (R220) -/
  | divr (x y : IntDesc)
  /-- `DIVNR x, y` (R220) -/
  | divnr (x y : IntDesc)
deriving DecidableEq, Repr

end Sys2Proof
end

