-- ==== Sys2Proof/WellFormed.lean ====
section
/-! DEFINITION. Which instructions are well formed: the ones none of whose slots R103 (30_encoding.md)
makes illegal. It is a predicate on the instruction as syntax; what the machine does with an ill-formed one
(it raises `IllegalCommand`) is in `Machine/Operands.lean`. -/

namespace Sys2Proof

/-- "Well formed as a vector": `bad = 0` and `1 <= len <= WMAX` (R94). -/
def VecDesc.wfVector (p : Params) (d : VecDesc) : Bool :=
  !d.bad && decide (1 ≤ d.len) && Params.within p.wmax d.len

/-- "Well formed as a literal": in addition `frac <= len - 1` (R94). -/
def VecDesc.wfLiteral (p : Params) (d : VecDesc) : Bool :=
  d.wfVector p && decide (d.frac ≤ d.len - 1)

/-- The operand is a SignedValue: a vector with a fractional-bit count at most its length (R140). -/
def VecDesc.wfSigned (p : Params) (d : VecDesc) : Bool :=
  d.wfVector p && decide (d.frac ≤ d.len)

/-- A multiplication slot that R103 accepts: the port can carry its vector (`bad`, or `len <= WMAX`). -/
def VecDesc.carried (p : Params) (d : VecDesc) : Bool :=
  d.bad || Params.within p.wmax d.len

/-- A target length of `PADT` or `NEG`: `1 <= val <= RMAX` (R121, R125). -/
def LenDesc.wfTarget (p : Params) (n : LenDesc) : Bool :=
  !n.bad && decide (1 ≤ n.val) && Params.within p.rmax n.val

/-- No slot that the instruction reads is illegal in the sense of R103. A division reads no slot R103 speaks of. -/
def Instr.wellFormed (p : Params) (i : Instr) : Bool :=
  match i with
  | .padt _ _ v n => v.wfVector p && n.wfTarget p
  | .neg v n => v.wfVector p && n.wfTarget p
  | .adds a b => a.wfVector p && b.wfVector p
  | .shl0 v => v.wfVector p
  | .dec v => v.wfSigned p
  | .mulb2 a b _ => a.carried p && b.carried p
  | .mulb4 a b _ => a.carried p && b.carried p
  | .divr _ _ => true
  | .divnr _ _ => true

end Sys2Proof
end

