-- ==== Sys2Proof/Decode.lean ====
section
/-! DEFINITION. The decoder from a command to an instruction, total on every command byte and rejecting by
name, and after it the encoder (30_encoding.md rules R91 to R93, R103; opcode_table.json). -/

namespace Sys2Proof

/-- Why a command byte is none of the nine operations (R103). -/
inductive DecodeError where
  /-- `CMD[7:6] != 00` -/
  | reservedBits
  /-- `OP` is 0x0, 0x6, 0x7, 0xA, 0xB, 0xE or 0xF -/
  | reservedOpcode
  /-- `AT` or `SX` set on an opcode other than `PADT` -/
  | flagsOnNonPadt
deriving DecidableEq, Repr

/-- `CMD[3:0]` (R91). -/
def Command.op (c : Command) : BitVec 4 := c.cmd.extractLsb' 0 4

/-- `CMD[4]` (R91). -/
def Command.allowTrunc (c : Command) : Bool := c.cmd.getLsbD 4

/-- `CMD[5]` (R91). -/
def Command.signExt (c : Command) : Bool := c.cmd.getLsbD 5

/-- `CMD[7:6]` (R91). -/
def Command.reserved (c : Command) : BitVec 2 := c.cmd.extractLsb' 6 2

/-- The instruction an opcode names with the slots it reads (R92, R93); `none` for a reserved opcode. -/
def Command.operation (c : Command) : Option Instr :=
  match c.op.toNat with
  | 0x1 => some (.padt c.allowTrunc c.signExt c.opA c.opN)
  | 0x2 => some (.neg c.opA c.opN)
  | 0x3 => some (.adds c.opA c.opB)
  | 0x4 => some (.shl0 c.opA)
  | 0x5 => some (.dec c.opA)
  | 0x8 => some (.mulb2 c.opA c.opB c.opN)
  | 0x9 => some (.mulb4 c.opA c.opB c.opN)
  | 0xC => some (.divr c.opX c.opY)
  | 0xD => some (.divnr c.opX c.opY)
  | _ => none

/-- The instruction a command denotes (R92, R93), or why its command byte denotes none (R103). -/
def decode (c : Command) : Except DecodeError Instr :=
  if c.reserved ≠ 0#2 then .error .reservedBits
  else if c.op ≠ 0x1#4 ∧ (c.allowTrunc ∨ c.signExt) then .error .flagsOnNonPadt
  else
    match c.operation with
    | some i => .ok i
    | none => .error .reservedOpcode

/-- The opcode of an instruction (R92). -/
def Instr.opcode (i : Instr) : BitVec 4 :=
  match i with
  | .padt _ _ _ _ => 0x1#4
  | .neg _ _ => 0x2#4
  | .adds _ _ => 0x3#4
  | .shl0 _ => 0x4#4
  | .dec _ => 0x5#4
  | .mulb2 _ _ _ => 0x8#4
  | .mulb4 _ _ _ => 0x9#4
  | .divr _ _ => 0xC#4
  | .divnr _ _ => 0xD#4

/-- The command byte with reserved bits 00, flags `SX`, `AT` and opcode `OP` (R91). -/
def commandByte (signExt allowTrunc : Bool) (op : BitVec 4) : BitVec 8 :=
  0#2 ++ BitVec.ofBool signExt ++ BitVec.ofBool allowTrunc ++ op

/-- The command of an instruction: its byte (R91, R92), its operands in the slots R93 gives them, every
unread slot zero. -/
def encode (i : Instr) : Command :=
  match i with
  | .padt t x v n => { cmd := commandByte x t 0x1#4, opA := v, opN := n }
  | .neg v n => { cmd := commandByte false false 0x2#4, opA := v, opN := n }
  | .adds a b => { cmd := commandByte false false 0x3#4, opA := a, opB := b }
  | .shl0 v => { cmd := commandByte false false 0x4#4, opA := v }
  | .dec v => { cmd := commandByte false false 0x5#4, opA := v }
  | .mulb2 a b n => { cmd := commandByte false false 0x8#4, opA := a, opB := b, opN := n }
  | .mulb4 a b n => { cmd := commandByte false false 0x9#4, opA := a, opB := b, opN := n }
  | .divr x y => { cmd := commandByte false false 0xC#4, opX := x, opY := y }
  | .divnr x y => { cmd := commandByte false false 0xD#4, opX := x, opY := y }

/-- The command whose byte is the low `nbits` bits of `w` and whose slots are all zero: the opcode table gives
an instruction its command byte only, so every other bit is 0. -/
def commandOfWord (nbits w : Nat) : Command :=
  { cmd := BitVec.ofNat 8 (w % 2 ^ nbits) }

/-- The decoder on a word as spec/opcode_table.json numbers its bits. -/
def decodeTableWord (nbits w : Nat) : Option Instr :=
  match decode (commandOfWord nbits w) with
  | .ok i => some i
  | .error _ => none

end Sys2Proof
end

