-- ==== Sys2Proof/Machine/State.lean ====
section
/-! DEFINITION. The state of the block as plain data (10_state.md), the records it shows on its ports
(30_encoding.md rules R98 to R108), the state after reset, and the reasons a step can stop. -/

namespace Sys2Proof.Machine

/-- `PHASE`, the sequencer's state (R31). The rule says "one of nine values" and names these eight
(assumption log 3); a phase has no numeric encoding. -/
inductive Phase where
  /-- no operation held; a command can be accepted -/
  | idle
  /-- a multiplication is between recoding steps -/
  | mstep
  /-- the shift of a division cycle is due -/
  | dshift
  /-- the subtraction or addition of a division cycle is due -/
  | darith
  /-- the test-and-set of a division cycle is due -/
  | dset
  /-- the non-restoring correction is due -/
  | dcorr
  /-- the terminal division row is due -/
  | dfinal
  /-- the response is complete and waits for the host -/
  | resp
deriving DecidableEq, Repr

/-- A recoded digit (R107): `-2, -1, 0, +1, +2`, and nothing else. -/
inductive Digit where
  | minus2
  | minus1
  | zero
  | plus1
  | plus2
deriving DecidableEq, Repr

/-- The action of a division row, codes 0 to 8 (R102). -/
inductive Action where
  | init
  | shift
  | sub
  | add
  | set1
  | set0
  | restore
  | correct
  | result
deriving DecidableEq, Repr

/-- The label of a division row (R101): `Init`, a cycle number, `Final`. -/
inductive Label where
  | init
  | cycle
  | final
deriving DecidableEq, Repr

/-- A multiplication trace row (R100). `pp` is `pp_len` and `pp_bits` together; it is empty when
`ppValid` is false. -/
structure MulRow where
  idx : Nat
  op : Digit
  exam : BitVec 3
  shift : Nat
  ppValid : Bool
  pp : Vec
deriving DecidableEq, Repr

/-- A division trace row (R101), showing the registers after the step that emits it. -/
structure DivRow where
  lab : Label
  cyc : Nat
  act : Action
  a : Vec
  q : Vec
  qmark : Bool
  m : Vec
  quo : Nat := 0
  rem : Nat := 0
deriving DecidableEq, Repr

/-- One row of the trace (R46). -/
inductive Row where
  | mul (r : MulRow)
  | div (r : DivRow)
deriving DecidableEq, Repr

/-- The error classes (R271): AA's seven and `IllegalCommand`. -/
inductive ErrorClass where
  | invalidLiteral
  | zeroOperand
  | invalidWordLength
  | widthOverflow
  | invalidDivisionOperand
  | divisionByZero
  | unsupportedSignedOperand
  | illegalCommand
deriving DecidableEq, Repr

/-- Which part of the command an error is about (R272): the first operand, the second operand, or the
length operand or command byte. -/
inductive Info where
  | first
  | second
  | third
deriving DecidableEq, Repr

/-- An error as `raise <Error>(info)` names it (R16). -/
structure ErrInfo where
  cls : ErrorClass
  info : Info
deriving DecidableEq, Repr

/-- The response's `status`, `code` and `info` fields (R98): OK, or ERR with a class and an operand.
The codes that never occur have no representation. -/
inductive Status where
  | ok
  | err (e : ErrInfo)
deriving DecidableEq, Repr

/-- A decoded value (R108): the rational `(-1)^neg * mag / 2^frac`. -/
structure Decoded where
  neg : Bool := false
  mag : Nat := 0
  frac : Nat := 0
deriving DecidableEq, Repr

/-- The response record (R98); every field an operation does not fill is 0, the default here. -/
structure Response where
  status : Status := .ok
  vec : Vec := Vec.empty
  frac : Nat := 0
  flag : Bool := false
  val : Decoded := {}
  valA : Decoded := {}
  valB : Decoded := {}
  quo : Nat := 0
  rem : Nat := 0
  alg : Bool := false
  n : Nat := 0
deriving DecidableEq, Repr

/-- The validity of `RSP` (R47): cleared, valid, or "last response, already taken". -/
inductive RspState where
  | invalid
  | valid
  | taken
deriving DecidableEq, Repr

/-- What the host does in one step of the model (R18, R32): presents a command, takes the response, resets
the block, or nothing, which leaves the step to the block. -/
inductive HostAction where
  | command (c : Command)
  | take
  | reset
  | nothing
deriving DecidableEq, Repr

/-- The complete state of the block (R30), and the two fields of the model itself that stand for what is
outside it: its build-time parameters and what the host does next (assumption logs 1 and 2). -/
structure State where
  /-- `PHASE` (R31) -/
  phase : Phase
  /-- `OPC`, the opcode of the command being executed (R33) -/
  opc : BitVec 4
  /-- `CNT`, the step counter (R34) -/
  cnt : Nat
  /-- `WREG`, the word length (R35) -/
  wreg : Nat
  /-- `NREG`, the division register width (R35) -/
  nreg : Nat
  /-- `MD`, the multiplicand (R36) -/
  md : Vec
  /-- `MQ`, the extended multiplier (R37) -/
  mq : Vec
  /-- `P`, the product accumulator (R38) -/
  p : Vec
  /-- `FA`, the multiplicand's fractional-bit count (R39) -/
  fa : Nat
  /-- `FB`, the multiplier's fractional-bit count (R39) -/
  fb : Nat
  /-- `EVEN`, AA's evenBitAdded (R48) -/
  even : Bool
  /-- `A`, the division accumulator (R41) -/
  a : Vec
  /-- `Q`, the quotient register (R42) -/
  q : Vec
  /-- `M`, the divisor register (R44) -/
  m : Vec
  /-- `QP`, the pending marker of `Q[0]` (R43) -/
  qp : Bool
  /-- `SGN`, the captured sign of `A` (R45) -/
  sgn : Bool
  /-- `TRACE` (R46) -/
  trace : List Row
  /-- `RSP`, the response register's record (R47) -/
  rsp : Response
  /-- the validity `RSP` has (R47) -/
  rspState : RspState
  /-- the model's own: `WMAX` and `NMAX`, the same in every state of one machine (R52) -/
  params : Params
  /-- the model's own: what the host does in the steps to come, one entry a step -/
  host : List HostAction
deriving DecidableEq, Repr

/-- Why the machine stops with a fault. -/
inductive Fault where
  /-- Raised by `work` when `PHASE` names a step that no rule gives for the opcode in `OPC` (a multiplication
  step without a multiplier's opcode, a division step without a divider's, a correction of the restoring
  divider). Safe: no state a run reaches is such a state. -/
  | noRuleForStep
deriving DecidableEq, Repr

/-- Why the machine has no meaning for an instruction. -/
inductive Refusal where
  /-- Raised by `exec` alone, for an instruction without a meaning. Safe. No instruction is one now. -/
  | notModelled (mnemonic : String)
deriving DecidableEq, Repr

/-- The state after reset (R56, R300): `PHASE = IDLE`, `TRACE` empty, `RSP` invalid and zero. The other
registers are unspecified by R56; they are zero here (assumption log 4, DESIGN CHOICE, unsafe). The
parameters are `Config.resetParams` (assumption log 1), and no host action stands yet (assumption log 2). -/
def State.reset : State where
  phase := .idle
  opc := 0#4
  cnt := 0
  wreg := 0
  nreg := 0
  md := Vec.empty
  mq := Vec.empty
  p := Vec.empty
  fa := 0
  fb := 0
  even := false
  a := Vec.empty
  q := Vec.empty
  m := Vec.empty
  qp := false
  sgn := false
  trace := []
  rsp := {}
  rspState := .invalid
  params := Config.resetParams
  host := []

end Sys2Proof.Machine
end

