-- ==== Sys2Proof/Machine/Flags.lean ====
section
/-! DEFINITION. The one-bit values of the block (10_state.md rules R48, R49, R52; 40_bitvector.md R131). -/

namespace Sys2Proof.Machine

/-- `busy = (PHASE != IDLE)` (R52). -/
def State.busy (s : State) : Bool := s.phase != .idle

/-- `rsp_valid = (PHASE = RESP)` (R52). -/
def State.rspValid (s : State) : Bool := s.phase == .resp

/-- `grow`, the carry out of `ADDS`: `uint(a) + uint(b) >= 2^max(La, Lb)` (R131). -/
def growFlag (a b : Vec) : Bool := decide (2 ^ max a.len b.len ≤ a.uint + b.uint)

/-- AA's evenBitAdded for word length `w`: 1 when `w` is odd (R48, R192). -/
def evenBit (w : Nat) : Bool := w % 2 == 1

/-- The policy bit `OPC[0]`: false restoring, true non-restoring (R33). -/
def State.nonRestoring (s : State) : Bool := s.opc.getLsbD 0

/-- The sign bit `A[n]` of the division accumulator (R41). -/
def State.aNeg (s : State) : Bool := s.a.bit s.nreg

end Sys2Proof.Machine
end

