-- ==== Sys2Proof/Machine/Operands.lean ====
section
/-! DEFINITION. What an operand descriptor denotes, and the validation every `accept` step makes before
anything else (30_encoding.md R94, R96, R99, R103; 41_booth_radix2.md R162; 43_divider.md R222;
60_exceptions.md R270 to R280). -/

namespace Sys2Proof

/-- The vector a descriptor denotes (R94): `len(v) = len` and `v[i] = bits[i]` for `i < len`; positions at
or above `len` are ignored (R99). -/
def VecDesc.vec (d : VecDesc) : Vec := ⟨d.len, d.bits.bits.setWidth d.len⟩

namespace Machine

/-- The first failing check of an ordered list of checks, each with the error it raises (R280). -/
def firstError : List (Bool × ErrInfo) → Option ErrInfo
  | [] => none
  | (fails, e) :: rest => if fails then some e else firstError rest

/-- `len > WMAX` with `bad = 0`: the port cannot carry the vector (R103). -/
def overlong (p : Params) (d : VecDesc) : Bool := !d.bad && !Params.within p.wmax d.len

/-- A bit-vector slot of a primitive that R103 makes illegal: `bad = 1`, `len = 0` or `len > WMAX`. -/
def badVector (p : Params) (d : VecDesc) : Bool := d.bad || d.len == 0 || overlong p d

/-- A length slot of `PADT` or `NEG` that R103 makes illegal: `bad = 1`, `val = 0` or `val > RMAX`. -/
def badTarget (p : Params) (n : LenDesc) : Bool := n.bad || n.val == 0 || !Params.within p.rmax n.val

/-- The literal of a multiplication operand is not valid (R273): `bad`, `len = 0` or `frac >= len`. -/
def badLiteral (d : VecDesc) : Bool := d.bad || d.len == 0 || decide (d.len ≤ d.frac)

/-- Every bit of the operand is 0 (R275). -/
def zeroVector (d : VecDesc) : Bool := d.vec.uint == 0

/-- The word length is missing, zero or above `WMAX` (R274). -/
def badWordLength (p : Params) (n : LenDesc) : Bool := n.bad || n.val == 0 || !Params.within p.wmax n.val

/-- The integer fits the two's-complement field of `NMAX + 1` bits (R96): `-2^NMAX <= val < 2^NMAX`. -/
def fitsInteger (p : Params) (x : IntDesc) : Bool :=
  match p.nmax with
  | none => true
  | some b => decide (-(2 ^ b : Int) ≤ x.val) && decide (x.val < 2 ^ b)

/-- "Not a valid integer, or it does not fit the field" (R277, R96). -/
def badInteger (p : Params) (x : IntDesc) : Bool := x.bad || !fitsInteger p x

/-- The checks of `PADT` in order (R270, R121). -/
def checkPadt (p : Params) (allowTrunc : Bool) (v : VecDesc) (n : LenDesc) : Option ErrInfo :=
  firstError
    [(badVector p v, ⟨.illegalCommand, .first⟩),
     (badTarget p n, ⟨.illegalCommand, .third⟩),
     (decide (n.val < v.len) && !allowTrunc, ⟨.widthOverflow, .first⟩)]

/-- The checks of `NEG` in order (R270, R125). -/
def checkNeg (p : Params) (v : VecDesc) (n : LenDesc) : Option ErrInfo :=
  firstError
    [(badVector p v, ⟨.illegalCommand, .first⟩),
     (badTarget p n, ⟨.illegalCommand, .third⟩),
     (decide (n.val < v.len), ⟨.widthOverflow, .first⟩)]

/-- The checks of `ADDS` in order (R270, R130). -/
def checkAdds (p : Params) (a b : VecDesc) : Option ErrInfo :=
  firstError
    [(badVector p a, ⟨.illegalCommand, .first⟩),
     (badVector p b, ⟨.illegalCommand, .second⟩)]

/-- The check of `SHL0` (R270, R135). -/
def checkShl0 (p : Params) (v : VecDesc) : Option ErrInfo :=
  firstError [(badVector p v, ⟨.illegalCommand, .first⟩)]

/-- The check of `DEC` (R270, R140): a vector, with `frac <= len`. -/
def checkDec (p : Params) (v : VecDesc) : Option ErrInfo :=
  firstError [(badVector p v || decide (v.len < v.frac), ⟨.illegalCommand, .first⟩)]

/-- The checks 0 to 4 of `MULB2` and `MULB4` in order (R162, R191). -/
def checkMul (p : Params) (a b : VecDesc) (n : LenDesc) : Option ErrInfo :=
  firstError
    [(overlong p a, ⟨.illegalCommand, .first⟩),
     (overlong p b, ⟨.illegalCommand, .second⟩),
     (badLiteral a, ⟨.invalidLiteral, .first⟩),
     (badLiteral b, ⟨.invalidLiteral, .second⟩),
     (zeroVector a, ⟨.zeroOperand, .first⟩),
     (zeroVector b, ⟨.zeroOperand, .second⟩),
     (badWordLength p n, ⟨.invalidWordLength, .third⟩),
     (decide (n.val < a.len), ⟨.widthOverflow, .first⟩),
     (decide (n.val < b.len), ⟨.widthOverflow, .second⟩)]

/-- The checks 1 to 3 of `DIVR` and `DIVNR` in order (R222); check 0 is the decoder's, since a division
command can be illegal only through its command byte (90_conflicts.md C9). -/
def checkDiv (p : Params) (x y : IntDesc) : Option ErrInfo :=
  firstError
    [(badInteger p x, ⟨.invalidDivisionOperand, .first⟩),
     (badInteger p y, ⟨.invalidDivisionOperand, .second⟩),
     (y.val == 0, ⟨.divisionByZero, .second⟩),
     (decide (x.val < 0), ⟨.unsupportedSignedOperand, .first⟩),
     (decide (y.val < 0), ⟨.unsupportedSignedOperand, .second⟩)]

/-- The error an instruction's `accept` step raises, if any (R279, R280). -/
def errorOf (p : Params) (i : Instr) : Option ErrInfo :=
  match i with
  | .padt t _ v n => checkPadt p t v n
  | .neg v n => checkNeg p v n
  | .adds a b => checkAdds p a b
  | .shl0 v => checkShl0 p v
  | .dec v => checkDec p v
  | .mulb2 a b n => checkMul p a b n
  | .mulb4 a b n => checkMul p a b n
  | .divr x y => checkDiv p x y
  | .divnr x y => checkDiv p x y

end Machine
end Sys2Proof
end

