-- ==== Sys2Proof/Machine/Ops.lean ====
section
/-! DEFINITION. The operations every instruction shares: accepting a command, answering it, raising an error
and the return from one, emitting a trace row, the reset step (00_scope.md R16; 10_state.md R32;
60_exceptions.md R281, R282; 70_reset_and_hazards.md R300). The block has no memory (20_memory.md R70), so
there is no operation on one. -/

namespace Sys2Proof.Machine

/-- What one step of the machine answers. -/
abbrev Result := Host.Outcome State Fault Refusal

/-- The start of every `accept` step (R32, R120): clears `TRACE` and `RSP` and latches the opcode. -/
def beginCommand (op : BitVec 4) (s : State) : State :=
  { s with opc := op, trace := [], rsp := {}, rspState := .invalid }

/-- `respond OK` with the response `r`, then `PHASE <- RESP` (R16). -/
def respond (r : Response) (s : State) : State :=
  { s with rsp := r, rspState := .valid, phase := .resp }

/-- Error entry, the block's one exception (R281): `RSP` is ERR with the class and operand and every other
field 0, `PHASE <- RESP`; nothing is saved and no other register is written. -/
def raiseError (e : ErrInfo) (s : State) : State :=
  respond { status := .err e } s

/-- `take`, enabled when `PHASE = RESP`: the host consumes the response, an ERR response like any other
(R32, R282); `RSP` and `TRACE` keep their contents (R40). Elsewhere it has no transition. -/
def takeResponse (s : State) : State :=
  if s.phase = .resp then { s with phase := .idle, rspState := .taken } else s

/-- The `reset` step, enabled always (R300): the block is as after power-up. The registers R300 leaves
unspecified take the values of `State.reset` (assumption log 4). -/
def resetBlock (s : State) : State :=
  { State.reset with params := s.params, host := s.host }

/-- `emit Row` appends one row to `TRACE` (R16). -/
def emit (r : Row) (s : State) : State := { s with trace := s.trace ++ [r] }

/-- `accept`, enabled only when `PHASE = IDLE` (R32): latch the command, then raise the error its
validation found or load the operation. In any other phase it has no transition (R311). -/
def accept (op : BitVec 4) (err : Option ErrInfo) (load : State → State) (s : State) : Result :=
  if s.phase = .idle then
    match err with
    | some e => .next (raiseError e (beginCommand op s))
    | none => .next (load (beginCommand op s))
  else .next s

/-- `accept` of a command whose byte is none of the nine operations: `IllegalCommand`, `info` 3 (R270). -/
def rejectCommand (c : Command) (s : State) : Result :=
  accept c.op (some ⟨.illegalCommand, .third⟩) id s

end Sys2Proof.Machine
end

