-- ==== Sys2Proof/Machine/Divider.lean ====
section
/-! DEFINITION. The shift-subtract divider, restoring (DIVR) and non-restoring (DIVNR): one state machine
whose policy is `OPC[0]` (43_divider.md). -/

namespace Sys2Proof.Machine

/-- The register width `n = max(bitlength(x), bitlength(y))`, minimum 1 (R221). -/
def divWidth (x y : Nat) : Nat := max 1 (max (bitlength x) (bitlength y))

/-- `MN = bv_(n+1)(-uint(M))`, a function of `M` (R50, R223). -/
def State.mn (s : State) : Vec := bv (s.nreg + 1) (-(s.m.uint : Int))

/-- A division row of the registers as they are (R101). -/
def divRow (lab : Label) (cyc : Nat) (act : Action) (s : State) : DivRow where
  lab := lab
  cyc := cyc
  act := act
  a := s.a
  q := s.q
  qmark := s.qp
  m := s.m

/-- Emits the row of a cycle step, labelled with the cycle number `CNT` (R101). -/
def emitCycle (act : Action) (s : State) : State := emit (.div (divRow .cycle s.cnt act s)) s

/-- The `accept` step of either divider after validation (R223, R224); `SGN` is not written. -/
def loadDiv (x y : IntDesc) (s : State) : State :=
  let n := divWidth x.val.toNat y.val.toNat
  let s' := { s with
    nreg := n
    a := bv (n + 1) 0
    q := bv n x.val
    m := bv (n + 1) y.val
    qp := false
    cnt := 1
    phase := .dshift }
  emit (.div (divRow .init 0 .init s')) s'

/-- DIVR (R220 to R224). -/
def execDivr (x y : IntDesc) (s : State) : Result :=
  accept 0xC#4 (checkDiv s.params x y) (loadDiv x y) s

/-- DIVNR (R220 to R224). -/
def execDivnr (x y : IntDesc) (s : State) : Result :=
  accept 0xD#4 (checkDiv s.params x y) (loadDiv x y) s

/-- `DSHIFT` (R226): the non-restoring variant captures the sign of `A`; then `A` and `Q` shift left one
place and `Q[0]` is pending. -/
def dshift (s : State) : State :=
  emitCycle .shift
    { s with
      sgn := if s.nonRestoring then s.aNeg else s.sgn
      a := (s.a.slice 0 s.nreg).append (Vec.ofBit (s.q.bit (s.nreg - 1)))
      q := (s.q.slice 0 (s.nreg - 1)).append (Vec.ofBit false)
      qp := true
      phase := .darith }

/-- `A + M` modulo `2^(n+1)` (R229, R230, R233). -/
def State.aPlusM (s : State) : Vec := bv (s.nreg + 1) ((s.a.uint : Int) + s.m.uint)

/-- `A - M` modulo `2^(n+1)`, as the addition of `MN` (R228, R229). -/
def State.aMinusM (s : State) : Vec := bv (s.nreg + 1) ((s.a.uint : Int) + s.mn.uint)

/-- `DARITH` (R228, R229): the non-restoring variant adds when the captured sign is 1; otherwise subtract. -/
def darith (s : State) : State :=
  if s.nonRestoring && s.sgn then emitCycle .add { s with a := s.aPlusM, phase := .dset }
  else emitCycle .sub { s with a := s.aMinusM, phase := .dset }

/-- The advance that ends every `DSET` step, on the `A` that the step leaves (R232). -/
def advanceCycle (s : State) : State :=
  if s.cnt < s.nreg then { s with cnt := s.cnt + 1, phase := .dshift }
  else if s.nonRestoring && s.aNeg then { s with phase := .dcorr }
  else { s with phase := .dfinal }

/-- `DSET` (R230, R231): `Q[0]` is set to the complement of `A`'s sign; the restoring variant adds `M` back
to a negative `A`. -/
def dset (s : State) : State :=
  if s.aNeg then
    if s.nonRestoring then
      advanceCycle (emitCycle .set0 { s with q := s.q.writeBit0 false, qp := false })
    else
      advanceCycle (emitCycle .restore { s with q := s.q.writeBit0 false, a := s.aPlusM, qp := false })
  else advanceCycle (emitCycle .set1 { s with q := s.q.writeBit0 true, qp := false })

/-- `DCORR` (R233): one correction addition. Its row shows `qmark = 0`, which is what `QP` holds then. -/
def dcorr (s : State) : State :=
  let s' := { s with a := s.aPlusM, phase := .dfinal }
  emit (.div { divRow .final 0 .correct s' with qmark := false }) s'

/-- `DFINAL` (R234): the terminal row with quotient and remainder, then the response. -/
def dfinal (s : State) : State :=
  let quo := s.q.uint
  let rem := (s.a.slice 0 s.nreg).uint
  respond { quo := quo, rem := rem, alg := s.nonRestoring, n := s.nreg }
    (emit (.div { divRow .final 0 .result s with qmark := false, quo := quo, rem := rem }) s)

end Sys2Proof.Machine
end

