-- ==== Sys2Proof/Machine/Bitvector.lean ====
section
/-! DEFINITION. The five primitives PADT, NEG, ADDS, SHL0 and DEC (40_bitvector.md). Each completes in its
`accept` step, writes no datapath register and emits no row (R120). -/

namespace Sys2Proof.Machine

/-- AA's padOrTruncate to length `n`, where it does not overflow (R121). -/
def padOrTruncate (signExt : Bool) (n : Nat) (v : Vec) : Vec :=
  if n < v.len then v.trunc n
  else if v.len = n then v
  else if signExt then v.sext n
  else v.zext n

/-- AA's twosComplement at length `n`: sign-extend, invert every bit, add 1, drop the carry (R125). -/
def twosComplement (n : Nat) (v : Vec) : Vec := bv n (((v.sext n).invert.uint : Int) + 1)

/-- AA's addBitStrings: the exact unsigned sum, one bit longer than the longer operand when it carries
(R130). -/
def addBitStrings (a b : Vec) : Vec :=
  if growFlag a b then bv (max a.len b.len + 1) ((a.uint : Int) + b.uint)
  else bv (max a.len b.len) ((a.uint : Int) + b.uint)

/-- AA's shiftLeftInsertZero (R135). -/
def shiftLeftInsertZero (v : Vec) : Vec := v.append (Vec.ofBit false)

/-- The magnitude of the decimal interpreter: `v`, or its two's complement at its own length (R141). -/
def decimalMagnitude (v : Vec) : Vec := if v.msb then bv v.len (-v.sint) else v

/-- AA's decode: the value triple of a vector with `f` fractional bits (R140, R141). -/
def decodeDecimal (v : Vec) (f : Nat) : Decoded where
  neg := v.msb && decide ((decimalMagnitude v).uint ≠ 0)
  mag := (decimalMagnitude v).uint
  frac := f

/-- The rational a value triple denotes (R108). -/
def Decoded.value (d : Decoded) : Rat := (if d.neg then -1 else 1) * (d.mag : Rat) / 2 ^ d.frac

/-- PADT (R121). -/
def execPadt (allowTrunc signExt : Bool) (v : VecDesc) (n : LenDesc) (s : State) : Result :=
  accept 0x1#4 (checkPadt s.params allowTrunc v n)
    (respond { vec := padOrTruncate signExt n.val v.vec }) s

/-- NEG (R125). -/
def execNeg (v : VecDesc) (n : LenDesc) (s : State) : Result :=
  accept 0x2#4 (checkNeg s.params v n) (respond { vec := twosComplement n.val v.vec }) s

/-- ADDS (R130, R131). -/
def execAdds (a b : VecDesc) (s : State) : Result :=
  accept 0x3#4 (checkAdds s.params a b)
    (respond { vec := addBitStrings a.vec b.vec, flag := growFlag a.vec b.vec }) s

/-- SHL0 (R135). -/
def execShl0 (v : VecDesc) (s : State) : Result :=
  accept 0x4#4 (checkShl0 s.params v) (respond { vec := shiftLeftInsertZero v.vec }) s

/-- DEC (R140). -/
def execDec (v : VecDesc) (s : State) : Result :=
  accept 0x5#4 (checkDec s.params v)
    (respond { vec := v.vec, frac := v.frac, val := decodeDecimal v.vec v.frac }) s

end Sys2Proof.Machine
end

