-- ==== Sys2Proof/Machine/Ports.lean ====
section
/-! DEFINITION. The numeric fields of the response and the trace rows as the ports show them
(30_encoding.md rules R98, R101, R102, R107; 60_exceptions.md R271, R272). -/

namespace Sys2Proof.Machine

/-- The code of an error class (R271). -/
def ErrorClass.code (e : ErrorClass) : BitVec 4 :=
  match e with
  | .invalidLiteral => 1#4
  | .zeroOperand => 2#4
  | .invalidWordLength => 3#4
  | .widthOverflow => 4#4
  | .invalidDivisionOperand => 5#4
  | .divisionByZero => 6#4
  | .unsupportedSignedOperand => 7#4
  | .illegalCommand => 15#4

/-- The number of an operand indicator (R272). -/
def Info.code (i : Info) : BitVec 2 :=
  match i with
  | .first => 1#2
  | .second => 2#2
  | .third => 3#2

/-- The response's `status` field: 0 = OK, 1 = ERR (R98). -/
def Response.statusBit (r : Response) : Bool :=
  match r.status with
  | .ok => false
  | .err _ => true

/-- The response's `code` field: 0 when OK (R98). -/
def Response.code (r : Response) : BitVec 4 :=
  match r.status with
  | .ok => 0#4
  | .err e => e.cls.code

/-- The response's `info` field: 0 when OK (R98). -/
def Response.infoField (r : Response) : BitVec 2 :=
  match r.status with
  | .ok => 0#2
  | .err e => e.info.code

/-- The `vec` field's bit positions in a field of `w` positions (R98, R99). -/
def Response.vecField (w : Nat) (r : Response) : BitVec w := r.vec.field w

/-- The value of a digit (R107). -/
def Digit.val (d : Digit) : Int :=
  match d with
  | .minus2 => -2
  | .minus1 => -1
  | .zero => 0
  | .plus1 => 1
  | .plus2 => 2

/-- The 3-bit two's-complement field of a digit (R107). -/
def Digit.field (d : Digit) : BitVec 3 :=
  match d with
  | .minus2 => 0b110#3
  | .minus1 => 0b111#3
  | .zero => 0b000#3
  | .plus1 => 0b001#3
  | .plus2 => 0b010#3

/-- The code of a division action (R102). -/
def Action.code (a : Action) : BitVec 4 :=
  match a with
  | .init => 0#4
  | .shift => 1#4
  | .sub => 2#4
  | .add => 3#4
  | .set1 => 4#4
  | .set0 => 5#4
  | .restore => 6#4
  | .correct => 7#4
  | .result => 8#4

/-- The `lab` field of a division row (R101). -/
def Label.code (l : Label) : BitVec 2 :=
  match l with
  | .init => 0#2
  | .cycle => 1#2
  | .final => 2#2

/-- AA's partialProducts list: the rows with `pp_valid = 1`, each read as `(op, bits, shift)` (R100). -/
def partialProducts : List Row → List (Digit × Vec × Nat)
  | [] => []
  | .mul r :: rest => if r.ppValid then (r.op, r.pp, r.shift) :: partialProducts rest else partialProducts rest
  | .div _ :: rest => partialProducts rest

end Sys2Proof.Machine
end

