-- ==== Sys2Proof/Machine/Multiplier.lean ====
section
/-! DEFINITION. The Booth multipliers MULB2 (41_booth_radix2.md) and MULB4 (42_bitpair_radix4.md): their
`accept` steps and their `MSTEP` steps. -/

namespace Sys2Proof.Machine

/-- The radix-2 Booth digit of `(Q_i, Q_(i-1)) = (hi, lo)`, AA's recoding table (R165). -/
def boothDigit (hi lo : Bool) : Digit :=
  match hi, lo with
  | false, false => .zero
  | false, true => .plus1
  | true, false => .minus1
  | true, true => .zero

/-- The radix-4 digit of the examined bits `MQ[2k+2], MQ[2k+1], MQ[2k]` (R193). -/
def bitPairDigit (b2 b1 b0 : Bool) : Digit :=
  match b2, b1, b0 with
  | false, false, false => .zero
  | false, false, true => .plus1
  | false, true, false => .plus1
  | false, true, true => .plus2
  | true, false, false => .minus2
  | true, false, true => .minus1
  | true, true, false => .minus1
  | true, true, true => .zero

/-- The examined bits of a multiplication row, `exam[2]` first (R100). -/
def examBits (b2 b1 b0 : Bool) : BitVec 3 :=
  BitVec.ofBool b2 ++ BitVec.ofBool b1 ++ BitVec.ofBool b0

/-- `W'`: the number of multiplier bits the radix-4 recoder pairs (R192). -/
def pairedLength (w : Nat) : Nat := if evenBit w then w + 1 else w

/-- `K = ceil(W/2)`, the number of radix-4 steps (R190). -/
def pairCount (w : Nat) : Nat := (w + 1) / 2

/-- The `accept` step of `MULB2` after validation (R163, R164). -/
def loadMulb2 (a b : VecDesc) (n : LenDesc) (s : State) : State :=
  { s with
    wreg := n.val
    md := a.vec.sext n.val
    mq := (b.vec.sext n.val).append (Vec.ofBit false)
    p := bv (2 * n.val) 0
    fa := a.frac
    fb := b.frac
    even := false
    cnt := 0
    phase := .mstep }

/-- The `accept` step of `MULB4` after validation (R192, R194). -/
def loadMulb4 (a b : VecDesc) (n : LenDesc) (s : State) : State :=
  { s with
    wreg := n.val
    md := a.vec.sext n.val
    mq := ((b.vec.sext n.val).sext (pairedLength n.val)).append (Vec.ofBit false)
    p := bv (2 * n.val + 1) 0
    fa := a.frac
    fb := b.frac
    even := evenBit n.val
    cnt := 0
    phase := .mstep }

/-- MULB2 (R160 to R164). -/
def execMulb2 (a b : VecDesc) (n : LenDesc) (s : State) : Result :=
  accept 0x8#4 (checkMul s.params a b n) (loadMulb2 a b n) s

/-- MULB4 (R190 to R194). -/
def execMulb4 (a b : VecDesc) (n : LenDesc) (s : State) : Result :=
  accept 0x9#4 (checkMul s.params a b n) (loadMulb4 a b n) s

/-- One recoding step of either multiplier, up to its `CNT` and `PHASE`: for a non-zero digit `d` the
PartialProduct, by exact value at the remaining width `width - shift` (90_conflicts.md C1), is added into
the accumulator of `width` bits at bit `shift`; a row is emitted for every digit (R166, R198). -/
def recodeStep (width shift : Nat) (d : Digit) (exam : BitVec 3) (s : State) : State :=
  if d = .zero then
    emit (.mul { idx := s.cnt, op := d, exam := exam, shift := shift, ppValid := false, pp := Vec.empty }) s
  else
    let pp := bv (width - shift) (d.val * s.md.sint)
    let pn := bv width ((s.p.uint : Int) + pp.uint * 2 ^ shift)
    emit (.mul { idx := s.cnt, op := d, exam := exam, shift := shift, ppValid := true, pp := pp })
      { s with p := pn }

/-- The response of a finished multiplication, the accumulator being the product (R167, R199). -/
def productResponse (flag : Bool) (s : State) : Response where
  vec := s.p
  frac := s.fa + s.fb
  flag := flag
  val := decodeDecimal s.p (s.fa + s.fb)
  valA := decodeDecimal s.md s.fa
  valB := decodeDecimal (s.mq.slice 1 s.wreg) s.fb

/-- One `MSTEP` step of `MULB2` (R166, R167). -/
def mstepMulb2 (s : State) : State :=
  let hi := s.mq.bit (s.cnt + 1)
  let lo := s.mq.bit s.cnt
  let s' := recodeStep (2 * s.wreg) s.cnt (boothDigit hi lo) (examBits false hi lo) s
  if s.cnt + 1 < s.wreg then { s' with cnt := s.cnt + 1 }
  else respond (productResponse false s') s'

/-- One `MSTEP` step of `MULB4` (R198, R199). -/
def mstepMulb4 (s : State) : State :=
  let b2 := s.mq.bit (2 * s.cnt + 2)
  let b1 := s.mq.bit (2 * s.cnt + 1)
  let b0 := s.mq.bit (2 * s.cnt)
  let s' := recodeStep (2 * s.wreg + 1) (2 * s.cnt) (bitPairDigit b2 b1 b0) (examBits b2 b1 b0) s
  if s.cnt + 1 < pairCount s.wreg then { s' with cnt := s.cnt + 1 }
  else respond (productResponse s.even s') s'

end Sys2Proof.Machine
end

