-- ==== Sys2Proof/Machine/Work.lean ====
section
/-! DEFINITION. The `work` step: the one step that the family files give for the phase and the opcode
(10_state.md rule R32(b)). -/

namespace Sys2Proof.Machine

/-- `OPC` is a divider's (R92). -/
def State.dividing (s : State) : Bool := s.opc == 0xC#4 || s.opc == 0xD#4

/-- A step of the division state machine, enabled when `OPC` is a divider's. -/
def divStep (f : State → State) (s : State) : Result :=
  if s.dividing then .next (f s) else .fault .noRuleForStep

/-- The block's own step (R32). In `IDLE` and `RESP` no `work` step is enabled: the block waits. -/
def work (s : State) : Result :=
  match s.phase with
  | .idle => .next s
  | .resp => .next s
  | .mstep =>
    if s.opc = 0x8#4 then .next (mstepMulb2 s)
    else if s.opc = 0x9#4 then .next (mstepMulb4 s)
    else .fault .noRuleForStep
  | .dshift => divStep dshift s
  | .darith => divStep darith s
  | .dset => divStep dset s
  | .dcorr => if s.opc = 0xD#4 then .next (dcorr s) else .fault .noRuleForStep
  | .dfinal => divStep dfinal s

end Sys2Proof.Machine
end

