-- ==== Sys2Proof/Machine/Dispatch.lean ====
section
/-! DEFINITION. One arm per instruction: the `accept` step of a command that presents it
(10_state.md rule R32(a)). -/

namespace Sys2Proof.Machine

def exec (i : Instr) (s : State) : Host.Outcome State Fault Refusal :=
  match i with
  | .padt t x v n => Sys2Proof.Machine.execPadt t x v n s
  | .neg v n => Sys2Proof.Machine.execNeg v n s
  | .adds a b => Sys2Proof.Machine.execAdds a b s
  | .shl0 v => Sys2Proof.Machine.execShl0 v s
  | .dec v => Sys2Proof.Machine.execDec v s
  | .mulb2 a b n => Sys2Proof.Machine.execMulb2 a b n s
  | .mulb4 a b n => Sys2Proof.Machine.execMulb4 a b n s
  | .divr x y => Sys2Proof.Machine.execDivr x y s
  | .divnr x y => Sys2Proof.Machine.execDivnr x y s

end Sys2Proof.Machine
end

