-- ==== Sys2Proof/Machine/Protocol.lean ====
section
/-! DEFINITION. The host's side of a step: presenting a command, taking the response, resetting, or leaving
the step to the block (10_state.md rule R32; 70_reset_and_hazards.md R300, R310 to R314). -/

namespace Sys2Proof.Machine

/-- A command on the command port (R32(a), R71): its instruction's `accept` step, or `IllegalCommand` for a
command byte that is none of the nine operations (R270). -/
def present (c : Command) (s : State) : Host.Outcome State Fault Refusal :=
  match decode c with
  | .ok i => exec i s
  | .error _ => rejectCommand c s

/-- One step of the four kinds of R32. A command presented while the block is busy and a take of no response
have no transition (R311, R32); with no host action the block takes its own step. -/
def act (h : HostAction) (s : State) : Host.Outcome State Fault Refusal :=
  match h with
  | .command c => present c s
  | .take => .next (takeResponse s)
  | .reset => .next (resetBlock s)
  | .nothing => work s

end Sys2Proof.Machine
end

