-- ==== Sys2Proof/Machine/Step.lean ====
section
/-! DEFINITION. One step of the machine (10_state.md rule R32). -/

namespace Sys2Proof.Machine

/-- One step: the head of `host` is what the host does in it; a host with nothing left to do leaves every
step to the block. -/
def step (s : State) : Host.Outcome State Fault Refusal :=
  match s.host with
  | [] => act .nothing s
  | h :: rest => act h { s with host := rest }

/-- `s` with the instruction of the table word presented as the next command: the block is `IDLE` and the host
presents that command in the next step (assumption log 2). -/
def State.withFetchWord (s : State) (nbits w : Nat) : State :=
  { s with phase := .idle, host := .command (commandOfWord nbits w) :: s.host }

end Sys2Proof.Machine
end

