-- ==== Sys2Proof/Machine/Text.lean ====
section
/-! DEFINITION. The three text forms the spec gives as functions. None of them is part of the block, which
never sees a character (00_scope.md R5): a literal's descriptor (30_encoding.md R95), the display string of a
value (40_bitvector.md R142), and the notation the spec writes commands in (R105). -/

namespace Sys2Proof

/-- A bit as a character. -/
def bitChar (b : Bool) : Char := if b then '1' else '0'

/-- The string form of a vector, most significant bit first (R13). -/
def Vec.stringForm (v : Vec) : List Char := (List.range v.len).reverse.map (fun i => bitChar (v.bit i))

/-- AA's display string: the radix point `f` characters from the right, omitted when `f = 0` (R142). -/
def Vec.showPoint (v : Vec) (f : Nat) : List Char :=
  if f = 0 then v.stringForm
  else v.stringForm.take (v.len - f) ++ '.' :: v.stringForm.drop (v.len - f)

/-- The vector of a list of binary digits in string form. -/
def Vec.ofDigits (ds : List Char) : Vec :=
  ds.foldl (fun v c => v.append (Vec.ofBit (c == '1'))) Vec.empty

/-- One or more binary digits. -/
def binaryDigits (ds : List Char) : Bool := !ds.isEmpty && ds.all (fun c => c == '0' || c == '1')

/-- The descriptor of a literal (R95): integer digits, then optionally a point and fractional digits; a
string of any other shape gives `bad = 1`. -/
def literal (cs : List Char) : VecDesc :=
  let whole := cs.takeWhile (· != '.')
  match cs.dropWhile (· != '.') with
  | [] =>
    if binaryDigits whole then { len := whole.length, bits := Vec.ofDigits whole } else { bad := true }
  | _ :: part =>
    if binaryDigits whole && binaryDigits part then
      { len := whole.length + part.length, frac := part.length, bits := Vec.ofDigits (whole ++ part) }
    else { bad := true }

/-- The operands of a command text: the parts between commas, less spaces. -/
def splitOperands (cs : List Char) : List (List Char) :=
  match cs with
  | [] => [[]]
  | c :: rest =>
    if c == ',' then [] :: splitOperands rest
    else
      match splitOperands rest with
      | [] => [[c]]
      | word :: more => (if c == ' ' then word else c :: word) :: more

/-- A decimal numeral. -/
def numeral (cs : List Char) : Option Nat :=
  if cs.isEmpty || !cs.all (fun c => '0' ≤ c && c ≤ '9') then none
  else some (cs.foldl (fun n c => 10 * n + (c.toNat - 48)) 0)

/-- The word `BAD`, in place of any operand (R105). -/
def badWord : List Char := ['B', 'A', 'D']

/-- A bit-vector operand: a literal in double quotes, or `BAD` (R105). -/
def vectorOperand (cs : List Char) : Option VecDesc :=
  if cs = badWord then some { bad := true }
  else
    match cs with
    | q :: rest =>
      if q.toNat = 34 ∧ rest.getLast?.map Char.toNat = some 34 then some (literal rest.dropLast) else none
    | [] => none

/-- A length operand: a numeral, or `BAD` (R105). -/
def lengthOperand (cs : List Char) : Option LenDesc :=
  if cs = badWord then some { bad := true } else (numeral cs).map (fun n => { val := n })

/-- An integer operand: a numeral, optionally with a leading minus sign, or `BAD` (R105). -/
def integerOperand (cs : List Char) : Option IntDesc :=
  if cs = badWord then some { bad := true }
  else
    match cs with
    | '-' :: rest => (numeral rest).map (fun n => { val := -(n : Int) })
    | _ => (numeral cs).map (fun n => { val := (n : Int) })

/-- The instruction of a mnemonic with its operands (R105). -/
def instrOfText (mnemonic : List Char) (ops : List (List Char)) : Option Instr :=
  if mnemonic = "PADT".toList then
    match ops with
    | v :: n :: suffix =>
      match vectorOperand v, lengthOperand n with
      | some v, some n =>
        if suffix = [] then some (.padt false false v n)
        else if suffix = [['T']] then some (.padt true false v n)
        else if suffix = [['S']] then some (.padt false true v n)
        else if suffix = [['T'], ['S']] then some (.padt true true v n)
        else none
      | _, _ => none
    | _ => none
  else if mnemonic = "NEG".toList then
    match ops with
    | [v, n] => (vectorOperand v).bind fun v => (lengthOperand n).map fun n => .neg v n
    | _ => none
  else if mnemonic = "ADDS".toList then
    match ops with
    | [a, b] => (vectorOperand a).bind fun a => (vectorOperand b).map fun b => .adds a b
    | _ => none
  else if mnemonic = "SHL0".toList then
    match ops with
    | [v] => (vectorOperand v).map .shl0
    | _ => none
  else if mnemonic = "DEC".toList then
    match ops with
    | [v] => (vectorOperand v).map .dec
    | _ => none
  else if mnemonic = "MULB2".toList then
    match ops with
    | [a, b, n] =>
      (vectorOperand a).bind fun a => (vectorOperand b).bind fun b => (lengthOperand n).map fun n => .mulb2 a b n
    | _ => none
  else if mnemonic = "MULB4".toList then
    match ops with
    | [a, b, n] =>
      (vectorOperand a).bind fun a => (vectorOperand b).bind fun b => (lengthOperand n).map fun n => .mulb4 a b n
    | _ => none
  else if mnemonic = "DIVR".toList then
    match ops with
    | [x, y] => (integerOperand x).bind fun x => (integerOperand y).map fun y => .divr x y
    | _ => none
  else if mnemonic = "DIVNR".toList then
    match ops with
    | [x, y] => (integerOperand x).bind fun x => (integerOperand y).map fun y => .divnr x y
    | _ => none
  else none

/-- The command a text denotes in the notation of R105; `none` for a text in another form. -/
def assemble (cs : List Char) : Option Command :=
  (instrOfText (cs.takeWhile (· != ' ')) (splitOperands ((cs.dropWhile (· != ' ')).drop 1))).map encode

end Sys2Proof
end

