-- ==== Sys2Proof/Safety.lean ====
section
/-! DEFINITION. What claims about the machine are stated in: what the host sees, which requests are valid,
the states an answer leaves, and the invariants of a run (10_state.md; 43_divider.md R240, R241). -/

namespace Sys2Proof.Machine

/-- What the host can see (R52, R71): the two status outputs, the trace port and the response port. -/
structure Observation where
  busy : Bool
  rspValid : Bool
  trace : List Row
  rsp : Response
deriving DecidableEq, Repr

/-- The observation of a state. -/
def State.observe (s : State) : Observation := ⟨s.busy, s.rspValid, s.trace, s.rsp⟩

/-- The observation after `k` steps, if the machine did not stop. -/
def observeRun (k : Nat) (s : State) : Option Observation :=
  match Host.Core.run Sys2Proof.core k s with
  | .next t => some t.observe
  | .fault _ => none
  | .refused _ => none

/-- The block is between `accept` and its response: a `work` step is enabled (R32(b)). -/
def State.working (s : State) : Bool := s.phase != .idle && s.phase != .resp

/-- The phases of a division (R31). -/
def State.inDivision (s : State) : Bool := s.working && s.phase != .mstep

/-- The multiplier datapath with its control register (R30): what only a multiplication writes. -/
def State.mulRegs (s : State) : Nat × Vec × Vec × Vec × Nat × Nat × Bool :=
  (s.wreg, s.md, s.mq, s.p, s.fa, s.fb, s.even)

/-- The divider datapath with its control register (R30): what only a division writes. -/
def State.divRegs (s : State) : Nat × Vec × Vec × Vec × Bool × Bool :=
  (s.nreg, s.a, s.q, s.m, s.qp, s.sgn)

/-- `s` after a command with opcode `op` was answered OK in its `accept` step with the response `r` and
nothing else was written (R120). -/
def State.answered (op : BitVec 4) (r : Response) (s : State) : State :=
  { s with opc := op, trace := [], rsp := r, rspState := .valid, phase := .resp }

/-- `s` after a command with opcode `op` raised the error `e` in its `accept` step (R281). -/
def State.errored (op : BitVec 4) (e : ErrInfo) (s : State) : State :=
  s.answered op { status := .err e }

/-- A valid multiplication request: none of the checks of R162 fails. -/
structure ValidMul (p : Params) (a b : VecDesc) (n : LenDesc) : Prop where
  a_ok : a.bad = false ∧ 1 ≤ a.len ∧ a.frac < a.len
  b_ok : b.bad = false ∧ 1 ≤ b.len ∧ b.frac < b.len
  a_nonzero : a.vec.uint ≠ 0
  b_nonzero : b.vec.uint ≠ 0
  word_ok : n.bad = false ∧ 1 ≤ n.val ∧ Params.within p.wmax n.val = true
  a_fits : a.len ≤ n.val
  b_fits : b.len ≤ n.val

/-- A valid division request: none of the checks of R222 fails; each operand is below `2^NMAX` (R9). -/
structure ValidDiv (p : Params) (x y : IntDesc) : Prop where
  x_ok : x.bad = false ∧ 0 ≤ x.val
  y_ok : y.bad = false ∧ 0 < y.val
  x_fits : ∀ b, p.nmax = some b → x.val < 2 ^ b
  y_fits : ∀ b, p.nmax = some b → y.val < 2 ^ b

/-- The control invariant: the parameters are positive, `RSP` is valid exactly in `RESP` (R47), it is clear
from `accept` to the response, a phase of an operation has an opcode of that operation, and only the
non-restoring divider is ever in `DCORR` (R232). -/
structure ControlInv (s : State) : Prop where
  positive : s.params.positive = true
  valid_iff : s.rspState = .valid ↔ s.phase = .resp
  clear : s.working = true → s.rspState = .invalid
  invalid_zero : s.rspState = .invalid → s.rsp = {}
  mul_opcode : s.phase = .mstep → s.opc = 0x8#4 ∨ s.opc = 0x9#4
  div_opcode : s.inDivision = true → s.dividing = true
  corr_opcode : s.phase = .dcorr → s.opc = 0xD#4

/-- The number of recoding steps of the multiplication in progress (R172, R201). -/
def State.recodeSteps (s : State) : Nat := if s.opc = 0x8#4 then s.wreg else pairCount s.wreg

/-- The accumulator width of the multiplication in progress (R38). -/
def State.accWidth (s : State) : Nat := if s.opc = 0x8#4 then 2 * s.wreg else 2 * s.wreg + 1

/-- The length of `MQ` without Q₋₁ in the multiplication in progress (R37). -/
def State.multiplierBits (s : State) : Nat := if s.opc = 0x8#4 then s.wreg else pairedLength s.wreg

/-- The multiplier bits recoded so far. -/
def State.recoded (s : State) : Nat := if s.opc = 0x8#4 then s.cnt else 2 * s.cnt

/-- A multiplication between two recoding steps: the lengths and ranges of R34 to R39, one row a step, and the
accumulator holding the multiplicand times the part of the multiplier recoded so far. -/
structure MulRunning (s : State) : Prop where
  opcode : s.opc = 0x8#4 ∨ s.opc = 0x9#4
  wreg_pos : 1 ≤ s.wreg
  wreg_le : Params.within s.params.wmax s.wreg = true
  md_len : s.md.len = s.wreg
  mq_len : s.mq.len = s.multiplierBits + 1
  p_len : s.p.len = s.accWidth
  cnt_lt : s.cnt < s.recodeSteps
  fa_lt : s.fa < s.wreg
  fb_lt : s.fb < s.wreg
  even_eq : s.even = (s.opc == 0x9#4 && evenBit s.wreg)
  q_minus_one : s.mq.bit 0 = false
  parity : s.opc = 0x9#4 → evenBit s.wreg = true → s.mq.bit (s.wreg + 1) = s.mq.bit s.wreg
  rows : s.trace.length = s.cnt
  product : s.p = bv s.accWidth (s.md.sint * (s.mq.slice 1 s.recoded).sint)

/-- A multiplication answered OK: the product of the two operands the registers still hold (R167, R199). -/
structure MulAnswered (s : State) : Prop where
  vec_len : s.rsp.vec.len = s.accWidth
  vec_value : s.rsp.vec.sint = s.md.sint * (s.mq.slice 1 s.wreg).sint
  frac : s.rsp.frac = s.fa + s.fb
  flag : s.rsp.flag = s.even

/-- The multiplier invariant. -/
structure MulInv (s : State) : Prop where
  running : s.phase = .mstep → MulRunning s
  answer : s.phase = .resp → s.rsp.status = .ok → s.opc = 0x8#4 ∨ s.opc = 0x9#4 → MulAnswered s

/-- The dividend of the division in progress, as its `INIT` row shows it (R224); 0 where there is none. -/
def State.dividend (s : State) : Nat :=
  match s.trace.head? with
  | some (.div r) => r.q.uint
  | some (.mul _) => 0
  | none => 0

/-- The partial remainder: `A`, plus `M` when `A` is negative (R240, R241). -/
def State.partialRem (s : State) : Int := s.a.sint + if s.aNeg then (s.m.uint : Int) else 0

/-- After `j` finished cycles (R240, R241): `Q`'s low `j` bits are quotient bits and the others the dividend
bits still to come; the long-division identity holds; the partial remainder is in `0 .. y-1`, and the
restoring variant holds it in `A` itself. -/
structure CycleBoundary (s : State) (j : Nat) : Prop where
  pending_bits : s.q.uint / 2 ^ j = s.dividend % 2 ^ (s.nreg - j)
  identity : (s.dividend / 2 ^ (s.nreg - j) : Nat) = (s.q.uint % 2 ^ j : Nat) * (s.m.uint : Int) + s.partialRem
  rem_nonneg : 0 ≤ s.partialRem
  rem_lt : s.partialRem < s.m.uint
  restored : s.nonRestoring = false → s.aNeg = false

/-- What is left, inside cycle `CNT`, of the dividend's prefix less the quotient bits already set. -/
def State.cycleRest (s : State) : Int :=
  (s.dividend / 2 ^ (s.nreg - s.cnt) : Nat) - (s.q.uint % 2 ^ s.cnt : Nat) * (s.m.uint : Int)

/-- Between the `DSHIFT` and the `DSET` of cycle `CNT`: `Q[0]` is pending and holds 0 (R43), and the rest is
in `0 .. 2y-1` (R240). -/
structure InCycle (s : State) : Prop where
  pending : s.q.bit 0 = false
  pending_bits : s.q.uint / 2 ^ s.cnt = s.dividend % 2 ^ (s.nreg - s.cnt)
  rest_nonneg : 0 ≤ s.cycleRest
  rest_lt : s.cycleRest < 2 * s.m.uint

/-- A division between two steps: lengths and ranges (R34, R35, R41 to R44), the `INIT` row, and for each phase
what R240 and R241 say `A` and `Q` hold. -/
structure DivRunning (s : State) : Prop where
  opcode : s.dividing = true
  nreg_pos : 1 ≤ s.nreg
  nreg_le : Params.within s.params.nmax s.nreg = true
  a_len : s.a.len = s.nreg + 1
  q_len : s.q.len = s.nreg
  m_len : s.m.len = s.nreg + 1
  m_pos : 1 ≤ s.m.uint
  m_lt : s.m.uint < 2 ^ s.nreg
  cnt_pos : 1 ≤ s.cnt
  cnt_le : s.cnt ≤ s.nreg
  qp_eq : s.qp = (s.phase == .darith || s.phase == .dset)
  dividend_lt : s.dividend < 2 ^ s.nreg
  init_row : s.trace.head? = some (.div
    { lab := .init, cyc := 0, act := .init, a := bv (s.nreg + 1) 0, q := bv s.nreg s.dividend, qmark := false,
      m := s.m })
  at_shift : s.phase = .dshift → CycleBoundary s (s.cnt - 1)
  at_arith : s.phase = .darith → InCycle s ∧
    s.a = bv (s.nreg + 1) (s.cycleRest - if s.nonRestoring && s.sgn then 2 * (s.m.uint : Int) else 0)
  at_set : s.phase = .dset → InCycle s ∧ s.a.sint = s.cycleRest - s.m.uint
  at_corr : s.phase = .dcorr → s.opc = 0xD#4 ∧ s.cnt = s.nreg ∧ s.aNeg = true ∧ CycleBoundary s s.nreg
  at_final : s.phase = .dfinal → s.cnt = s.nreg ∧ s.aNeg = false ∧ CycleBoundary s s.nreg

/-- A division answered OK: quotient and remainder of the dividend and divisor (R242). -/
structure DivAnswered (s : State) : Prop where
  quo : s.rsp.quo = s.dividend / s.m.uint
  rem : s.rsp.rem = s.dividend % s.m.uint
  alg : s.rsp.alg = s.nonRestoring
  width : s.rsp.n = s.nreg

/-- The divider invariant. -/
structure DivInv (s : State) : Prop where
  running : s.inDivision = true → DivRunning s
  answer : s.phase = .resp → s.rsp.status = .ok → s.dividing = true → DivAnswered s

end Sys2Proof.Machine

namespace Sys2Proof

open Machine

/-- The `work` steps after the `accept` step of a valid instruction (R321); of `DIVNR` those with the correction. -/
def Instr.workSteps (i : Instr) : Nat :=
  match i with
  | .padt _ _ _ _ => 0
  | .neg _ _ => 0
  | .adds _ _ => 0
  | .shl0 _ => 0
  | .dec _ => 0
  | .mulb2 _ _ n => n.val
  | .mulb4 _ _ n => pairCount n.val
  | .divr x y => 3 * divWidth x.val.toNat y.val.toNat + 1
  | .divnr x y => 3 * divWidth x.val.toNat y.val.toNat + 2

/-- The slots a decoded instruction took its operands from (R93). -/
def Instr.readsFrom (i : Instr) (c : Command) : Prop :=
  match i with
  | .padt _ _ v n => c.opA = v ∧ c.opN = n
  | .neg v n => c.opA = v ∧ c.opN = n
  | .adds a b => c.opA = a ∧ c.opB = b
  | .shl0 v => c.opA = v
  | .dec v => c.opA = v
  | .mulb2 a b n => c.opA = a ∧ c.opB = b ∧ c.opN = n
  | .mulb4 a b n => c.opA = a ∧ c.opB = b ∧ c.opN = n
  | .divr x y => c.opX = x ∧ c.opY = y
  | .divnr x y => c.opX = x ∧ c.opY = y

end Sys2Proof
end

