-- ==== Sys2Proof/Certificates/Slice0/Obligations.lean ====
section
/-! DEFINITION. The statements for the provers. Every statement is about every state, and so about every choice
of the parameters `WMAX` and `NMAX`, unless a hypothesis says otherwise. -/

open Sys2Proof Sys2Proof.Machine

/-! ### Encoding -/

/-- R92, R93: the twelve legal command bytes, each written out, and the slots each operation reads. -/
def Obligations.CommandBytesDecodeToTheirOperations : Prop :=
  ∀ c : Command,
    (c.cmd = 0b00000001#8 → decode c = .ok (.padt false false c.opA c.opN)) ∧
    (c.cmd = 0b00010001#8 → decode c = .ok (.padt true false c.opA c.opN)) ∧
    (c.cmd = 0b00100001#8 → decode c = .ok (.padt false true c.opA c.opN)) ∧
    (c.cmd = 0b00110001#8 → decode c = .ok (.padt true true c.opA c.opN)) ∧
    (c.cmd = 0b00000010#8 → decode c = .ok (.neg c.opA c.opN)) ∧
    (c.cmd = 0b00000011#8 → decode c = .ok (.adds c.opA c.opB)) ∧
    (c.cmd = 0b00000100#8 → decode c = .ok (.shl0 c.opA)) ∧
    (c.cmd = 0b00000101#8 → decode c = .ok (.dec c.opA)) ∧
    (c.cmd = 0b00001000#8 → decode c = .ok (.mulb2 c.opA c.opB c.opN)) ∧
    (c.cmd = 0b00001001#8 → decode c = .ok (.mulb4 c.opA c.opB c.opN)) ∧
    (c.cmd = 0b00001100#8 → decode c = .ok (.divr c.opX c.opY)) ∧
    (c.cmd = 0b00001101#8 → decode c = .ok (.divnr c.opX c.opY))

/-- R91, R92, R103: a command byte is refused exactly when its reserved bits are not 00, its opcode is
reserved, or it sets `AT` or `SX` on an opcode other than `PADT`; and no slot plays a part in that. -/
def Obligations.IllegalCommandBytesAreRefused : Prop :=
  ∀ c : Command,
    (∃ e, decode c = .error e) ↔
      (c.cmd.getLsbD 7 = true ∨ c.cmd.getLsbD 6 = true ∨
        c.cmd.toNat % 16 ∈ [0x0, 0x6, 0x7, 0xA, 0xB, 0xE, 0xF] ∨
        (c.cmd.toNat % 16 ≠ 0x1 ∧ (c.cmd.getLsbD 4 = true ∨ c.cmd.getLsbD 5 = true)))

/-- R90 to R93: encoding then decoding gives every instruction back, whatever its operands; and a command
decodes to an instruction exactly when it has that instruction's command byte and holds its operands in the
slots it reads, so the slots it does not read play no part. -/
def Obligations.DecodeAndEncodeAgree : Prop :=
  (∀ i : Instr, decode (encode i) = .ok i) ∧
    ∀ (c : Command) (i : Instr), decode c = .ok i ↔ c.cmd = (encode i).cmd ∧ i.readsFrom c

/-! ### The step and the host's protocol -/

/-- R32: a command on the port of an idle block that decodes to an instruction is that instruction's `accept`
step, the host having used up its action. -/
def Obligations.StepRunsTheDecodedInstruction : Prop :=
  ∀ (s : State) (c : Command) (rest : List HostAction) (i : Instr),
    s.host = .command c :: rest → decode c = .ok i → step s = exec i { s with host := rest }

/-- R32(b): where the host does nothing, a step is the block's own `work` step. -/
def Obligations.StepWithoutHostActionIsWork : Prop :=
  ∀ s : State,
    (s.host = [] → step s = work s) ∧
      ∀ rest, s.host = .nothing :: rest → step s = work { s with host := rest }

/-- R270, R281: an idle block answers a command byte that is none of the nine operations with
`IllegalCommand`, operand indicator 3, and writes nothing else but `OPC` and an empty trace. -/
def Obligations.IllegalByteIsAnswered : Prop :=
  ∀ (s : State) (c : Command) (rest : List HostAction) (e : DecodeError),
    s.phase = .idle → s.host = .command c :: rest → decode c = .error e →
      step s = .next (State.errored (c.cmd.extractLsb' 0 4) ⟨.illegalCommand, .third⟩ { s with host := rest })

/-- R311: a command presented while the block is busy has no effect of any kind. -/
def Obligations.CommandWhileBusyHasNoEffect : Prop :=
  ∀ (s : State) (c : Command) (rest : List HostAction),
    s.busy = true → s.host = .command c :: rest → step s = .next { s with host := rest }

/-- R32(c), R40, R282: a take in `RESP` returns the block to `IDLE` and keeps `RSP` and `TRACE`, whether the
response is OK or ERR; in any other phase it has no transition. -/
def Obligations.TakeReturnsToIdle : Prop :=
  ∀ (s : State) (rest : List HostAction), s.host = .take :: rest →
    (s.phase = .resp → step s = .next { s with phase := .idle, rspState := .taken, host := rest }) ∧
      (s.phase ≠ .resp → step s = .next { s with host := rest })

/-- R313: a block in `RESP` does nothing but hold its response for as long as the host neither takes it nor
resets, however long that is and whatever commands the host presents meanwhile. -/
def Obligations.ResponseIsHeldUntilTaken : Prop :=
  ∀ (s : State) (waiting : List HostAction), s.phase = .resp →
    (∀ h ∈ waiting, h ≠ .take ∧ h ≠ .reset) →
      (∀ rest, s.host = waiting ++ rest →
        Host.Core.run Sys2Proof.core waiting.length s = .next { s with host := rest }) ∧
      ∀ k, s.host = [] → Host.Core.run Sys2Proof.core k s = .next s

/-- R300: a reset taken in any phase leaves the block idle with an empty trace and a cleared response, not
busy, with no response valid. -/
def Obligations.ResetStepFromAnyPhase : Prop :=
  ∀ (s : State) (rest : List HostAction), s.host = .reset :: rest →
    ∃ t, step s = .next t ∧ t.phase = .idle ∧ t.trace = [] ∧ t.rsp = {} ∧ t.rspState = .invalid ∧
      t.busy = false ∧ t.rspValid = false ∧ t.params = s.params ∧ t.host = rest

/-- R56: `PHASE`, `TRACE` and `RSP` of the state after reset. -/
def Obligations.ResetStateIsIdleAndEmpty : Prop :=
  State.reset.phase = .idle ∧ State.reset.trace = [] ∧ State.reset.rsp = {} ∧
    State.reset.rspState = .invalid ∧ State.reset.rsp.statusBit = false ∧ State.reset.rsp.code = 0#4 ∧
    State.reset.rsp.infoField = 0#2 ∧ State.reset.rsp.vec.len = 0

/-- R52: no step of any kind changes the parameters. -/
def Obligations.StepKeepsParameters : Prop :=
  ∀ s t : State, step s = .next t → t.params = s.params

/-! ### Errors -/

/-- R281: whatever error an instruction raises, and for a command byte that is no instruction, an idle block ends
with the ERR response, an empty trace, the opcode latched, `RESP`, and every other register as before. -/
def Obligations.ErrorEntryWritesOnlyTheResponse : Prop :=
  ∀ s : State, s.phase = .idle →
    (∀ (i : Instr) (e : ErrInfo), errorOf s.params i = some e →
      exec i s = .next { s with
        opc := i.opcode, trace := [], rsp := { status := .err e }, rspState := .valid, phase := .resp }) ∧
      ∀ (c : Command) (e : DecodeError), decode c = .error e →
        present c s = .next { s with
          opc := c.cmd.extractLsb' 0 4, trace := [], rsp := { status := .err ⟨.illegalCommand, .third⟩ }
          rspState := .valid, phase := .resp }

/-- R103, R270: an instruction raises `IllegalCommand` exactly when it is not well formed. For the primitives, the
checks in their order (the vector operands first, then the length, then `WidthOverflow` of `PADT` and `NEG`): the
first that fails is the error, with its operand indicator, and then nothing but the response is written; where none
fails, the instruction raises no error. -/
def Obligations.IllegalCommandExactlyWhenIllFormed : Prop :=
  (∀ (p : Params) (i : Instr), (∃ info, errorOf p i = some ⟨.illegalCommand, info⟩) ↔ i.wellFormed p = false) ∧
    ∀ s : State, s.phase = .idle →
      let vectorIllegal := fun v : VecDesc =>
        v.bad = true ∨ v.len = 0 ∨ (v.bad = false ∧ ∃ w ∈ s.params.wmax, w < v.len)
      let lengthIllegal := fun n : LenDesc => n.bad = true ∨ n.val = 0 ∨ ∃ w ∈ s.params.wmax, 2 * w + 1 < n.val
      let answers := fun (i : Instr) (op : BitVec 4) (e : Option ErrInfo) =>
        errorOf s.params i = e ∧ ∀ e' ∈ e, exec i s = .next (State.errored op e' s)
      (∀ t x v n,
        (vectorIllegal v → answers (.padt t x v n) 0x1#4 (some ⟨.illegalCommand, .first⟩)) ∧
        (¬ vectorIllegal v → lengthIllegal n → answers (.padt t x v n) 0x1#4 (some ⟨.illegalCommand, .third⟩)) ∧
        (¬ vectorIllegal v → ¬ lengthIllegal n → n.val < v.len → t = false →
          answers (.padt t x v n) 0x1#4 (some ⟨.widthOverflow, .first⟩)) ∧
        (¬ vectorIllegal v → ¬ lengthIllegal n → v.len ≤ n.val ∨ t = true →
          answers (.padt t x v n) 0x1#4 none)) ∧
      (∀ v n,
        (vectorIllegal v → answers (.neg v n) 0x2#4 (some ⟨.illegalCommand, .first⟩)) ∧
        (¬ vectorIllegal v → lengthIllegal n → answers (.neg v n) 0x2#4 (some ⟨.illegalCommand, .third⟩)) ∧
        (¬ vectorIllegal v → ¬ lengthIllegal n → n.val < v.len →
          answers (.neg v n) 0x2#4 (some ⟨.widthOverflow, .first⟩)) ∧
        (¬ vectorIllegal v → ¬ lengthIllegal n → v.len ≤ n.val → answers (.neg v n) 0x2#4 none)) ∧
      (∀ a b,
        (vectorIllegal a → answers (.adds a b) 0x3#4 (some ⟨.illegalCommand, .first⟩)) ∧
        (¬ vectorIllegal a → vectorIllegal b → answers (.adds a b) 0x3#4 (some ⟨.illegalCommand, .second⟩)) ∧
        (¬ vectorIllegal a → ¬ vectorIllegal b → answers (.adds a b) 0x3#4 none)) ∧
      (∀ v,
        (vectorIllegal v → answers (.shl0 v) 0x4#4 (some ⟨.illegalCommand, .first⟩)) ∧
        (¬ vectorIllegal v → answers (.shl0 v) 0x4#4 none)) ∧
      ∀ v,
        (vectorIllegal v ∨ v.len < v.frac → answers (.dec v) 0x5#4 (some ⟨.illegalCommand, .first⟩)) ∧
        (¬ vectorIllegal v → v.frac ≤ v.len → answers (.dec v) 0x5#4 none)

/-- R162, R191: the checks of both multipliers in their order; the first that fails is the error, with its
operand indicator, and then nothing but the response is written. -/
def Obligations.MultiplierChecksInOrder : Prop :=
  ∀ (s : State) (a b : VecDesc) (n : LenDesc) (e : ErrInfo), s.phase = .idle →
    (if a.bad = false ∧ Params.within s.params.wmax a.len = false then some ⟨.illegalCommand, .first⟩
      else if b.bad = false ∧ Params.within s.params.wmax b.len = false then some ⟨.illegalCommand, .second⟩
      else if a.bad = true ∨ a.len = 0 ∨ a.len ≤ a.frac then some ⟨.invalidLiteral, .first⟩
      else if b.bad = true ∨ b.len = 0 ∨ b.len ≤ b.frac then some ⟨.invalidLiteral, .second⟩
      else if ∀ j < a.len, a.bits.bit j = false then some ⟨.zeroOperand, .first⟩
      else if ∀ j < b.len, b.bits.bit j = false then some ⟨.zeroOperand, .second⟩
      else if n.bad = true ∨ n.val = 0 ∨ Params.within s.params.wmax n.val = false then
        some ⟨.invalidWordLength, .third⟩
      else if n.val < a.len then some ⟨.widthOverflow, .first⟩
      else if n.val < b.len then some ⟨.widthOverflow, .second⟩
      else none : Option ErrInfo) = some e →
    exec (.mulb2 a b n) s = .next (State.errored 0x8#4 e s) ∧
      exec (.mulb4 a b n) s = .next (State.errored 0x9#4 e s)

/-- R222, R277, R278, R289: the checks of both dividers in their order (the command byte apart, which is the
decoder's). An integer outside the field of `NMAX + 1` bits counts as no valid integer. -/
def Obligations.DividerChecksInOrder : Prop :=
  ∀ (s : State) (x y : IntDesc) (e : ErrInfo), s.phase = .idle →
    (if x.bad = true ∨ (∃ b ∈ s.params.nmax, x.val < -2 ^ b ∨ 2 ^ b ≤ x.val) then
        some ⟨.invalidDivisionOperand, .first⟩
      else if y.bad = true ∨ (∃ b ∈ s.params.nmax, y.val < -2 ^ b ∨ 2 ^ b ≤ y.val) then
        some ⟨.invalidDivisionOperand, .second⟩
      else if y.val = 0 then some ⟨.divisionByZero, .second⟩
      else if x.val < 0 then some ⟨.unsupportedSignedOperand, .first⟩
      else if y.val < 0 then some ⟨.unsupportedSignedOperand, .second⟩
      else none : Option ErrInfo) = some e →
    exec (.divr x y) s = .next (State.errored 0xC#4 e s) ∧
      exec (.divnr x y) s = .next (State.errored 0xD#4 e s)

/-- R271, R272: the numbers of the error classes and operand indicators in an ERR response; R101, R102: the numbers
of the labels and actions in a division row. -/
def Obligations.ErrorCodesAreNumbered : Prop :=
  (∀ l : Label, l.code.toNat = match l with
    | .init => 0
    | .cycle => 1
    | .final => 2) ∧
  (∀ a : Action, a.code.toNat = match a with
    | .init => 0
    | .shift => 1
    | .sub => 2
    | .add => 3
    | .set1 => 4
    | .set0 => 5
    | .restore => 6
    | .correct => 7
    | .result => 8) ∧
  ∀ (s : State) (op : BitVec 4) (e : ErrInfo),
    let r := (State.errored op e s).rsp
    r.statusBit = true ∧
      r.code.toNat = (match e.cls with
        | .invalidLiteral => 1
        | .zeroOperand => 2
        | .invalidWordLength => 3
        | .widthOverflow => 4
        | .invalidDivisionOperand => 5
        | .divisionByZero => 6
        | .unsupportedSignedOperand => 7
        | .illegalCommand => 15) ∧
      r.infoField.toNat = (match e.info with
        | .first => 1
        | .second => 2
        | .third => 3) ∧
      r = { status := .err e }

/-! ### The primitives -/

/-- R121: `PADT` in an idle block, bit by bit, and where it overflows; nothing else is written. -/
def Obligations.PadtPadsExtendsOrTruncates : Prop :=
  ∀ (s : State) (t x : Bool) (v : VecDesc) (n : LenDesc), s.phase = .idle →
    v.wfVector s.params = true → n.wfTarget s.params = true →
      (n.val < v.len → t = false →
        exec (.padt t x v n) s = .next (State.errored 0x1#4 ⟨.widthOverflow, .first⟩ s)) ∧
      (v.len ≤ n.val ∨ t = true →
        ∃ r : Vec, exec (.padt t x v n) s = .next (State.answered 0x1#4 { vec := r } s) ∧ r.len = n.val ∧
          ∀ j < n.val, r.bit j = if j < v.len then v.bits.bit j else x && v.bits.bit (v.len - 1))

/-- R122: the laws of `PADT` on its answer, and that it gives none where the vector is longer and may not be
truncated. -/
def Obligations.PadtKeepsTheValue : Prop :=
  ∀ (s : State) (t x : Bool) (v : VecDesc) (n : LenDesc), s.phase = .idle →
    v.wfVector s.params = true → n.wfTarget s.params = true →
      ∃ t', exec (.padt t x v n) s = .next t' ∧
        (v.len ≤ n.val → x = true → t'.rsp.vec.sint = v.vec.sint) ∧
        (v.len ≤ n.val → x = false → t'.rsp.vec.uint = v.vec.uint) ∧
        (n.val < v.len → t = true → t'.rsp.vec.uint = v.vec.uint % 2 ^ n.val) ∧
        (n.val < v.len → t = false → t'.rsp = { status := .err ⟨.widthOverflow, .first⟩ } ∧ t'.trace = [])

/-- R125: `NEG` answers `bv_N(-sint(v))`, the exact negative but for the most negative value, which is its own;
a vector longer than the length overflows. -/
def Obligations.NegAnswersTheTwosComplement : Prop :=
  ∀ (s : State) (v : VecDesc) (n : LenDesc), s.phase = .idle →
    v.wfVector s.params = true → n.wfTarget s.params = true →
      (n.val < v.len → exec (.neg v n) s = .next (State.errored 0x2#4 ⟨.widthOverflow, .first⟩ s)) ∧
      (v.len ≤ n.val →
        ∃ r : Vec, exec (.neg v n) s = .next (State.answered 0x2#4 { vec := r } s) ∧
          r = bv n.val (-v.vec.sint) ∧
          (r.uint + (v.vec.sext n.val).uint) % 2 ^ n.val = 0 ∧
          (v.vec.sint ≠ -2 ^ (n.val - 1) → r.sint = -v.vec.sint) ∧
          (v.vec.sint = -2 ^ (n.val - 1) → r.sint = -2 ^ (n.val - 1)))

/-- R126: the answer of `NEG`, negated once more at the same length, is the vector sign-extended to that length,
and the vector itself when it had that length; so is the answer of a second `NEG` command, where the port can
carry its operand. -/
def Obligations.NegTwiceIsSignExtension : Prop :=
  ∀ (s : State) (v : VecDesc) (n : LenDesc), s.phase = .idle →
    v.wfVector s.params = true → n.wfTarget s.params = true → v.len ≤ n.val →
      ∃ t₁, exec (.neg v n) s = .next t₁ ∧ twosComplement n.val t₁.rsp.vec = v.vec.sext n.val ∧
        (v.len = n.val → twosComplement n.val t₁.rsp.vec = v.vec) ∧
        (Params.within s.params.wmax n.val = true →
          ∃ t₂, exec (.neg { len := n.val, bits := t₁.rsp.vec } n) s = .next t₂ ∧
            t₂.rsp.vec = twosComplement n.val t₁.rsp.vec)

/-- R130, R131, R132: `ADDS` answers the exact unsigned sum, one bit longer than the longer operand exactly when it
carries; `flag` is that carry, and nothing else is written. Truncated to the longer operand's length it is the
modular sum. -/
def Obligations.AddsAnswersTheExactSum : Prop :=
  ∀ (s : State) (a b : VecDesc), s.phase = .idle →
    a.wfVector s.params = true → b.wfVector s.params = true →
      ∃ (r : Vec) (grow : Bool), exec (.adds a b) s = .next (State.answered 0x3#4 { vec := r, flag := grow } s) ∧
        r.uint = a.vec.uint + b.vec.uint ∧
        (grow = true ↔ 2 ^ max a.len b.len ≤ a.vec.uint + b.vec.uint) ∧
        (grow = false → r.len = max a.len b.len) ∧
        (grow = true → r.len = max a.len b.len + 1 ∧ r.msb = true) ∧
        r.trunc (max a.len b.len) = bv (max a.len b.len) ((a.vec.uint : Int) + b.vec.uint)

/-- R135: `SHL0` shifts left by one inserting 0, and doubles both values. -/
def Obligations.ShlInsertsAZeroBit : Prop :=
  ∀ (s : State) (v : VecDesc), s.phase = .idle → v.wfVector s.params = true →
    ∃ r : Vec, exec (.shl0 v) s = .next (State.answered 0x4#4 { vec := r } s) ∧ r.len = v.len + 1 ∧
      r.bit 0 = false ∧ (∀ j < v.len, r.bit (j + 1) = v.bits.bit j) ∧
      r.uint = 2 * v.vec.uint ∧ r.sint = 2 * v.vec.sint

/-- R140, R141: `DEC` answers the vector, its fractional-bit count and its exact value as sign and
magnitude. -/
def Obligations.DecAnswersTheExactValue : Prop :=
  ∀ (s : State) (v : VecDesc), s.phase = .idle → v.wfSigned s.params = true →
    ∃ d : Decoded,
      exec (.dec v) s = .next (State.answered 0x5#4 { vec := v.vec, frac := v.frac, val := d } s) ∧
      d.neg = v.bits.bit (v.len - 1) ∧ d.mag = v.vec.sint.natAbs ∧ d.frac = v.frac ∧
      d.value = (v.vec.sint : Rat) / 2 ^ v.frac

/-- R143: encoding an integer of the signed range in `L` bits and decoding it with `F` fractional bits gives
`x / 2^F`; `DEC` answers that value where the port can carry the vector. -/
def Obligations.DecRoundTrip : Prop :=
  ∀ (len frac : Nat) (x : Int), 1 ≤ len → frac ≤ len → -2 ^ (len - 1) ≤ x → x ≤ 2 ^ (len - 1) - 1 →
    (bv len x).value frac = (x : Rat) / 2 ^ frac ∧
      ∀ s : State, s.phase = .idle → Params.within s.params.wmax len = true →
        ∃ t, exec (.dec { len := len, frac := frac, bits := bv len x }) s = .next t ∧
          t.rsp.val.value = (x : Rat) / 2 ^ frac

/-- R120: a primitive writes no datapath register, emits no row, and an idle block goes to `RESP` in the one
step, whether it answers or raises an error. -/
def Obligations.PrimitivesWriteNoDatapathRegister : Prop :=
  ∀ (i : Instr) (s t : State), i.opcode.toNat ≤ 5 → s.phase = .idle → exec i s = .next t →
    t.mulRegs = s.mulRegs ∧ t.divRegs = s.divRegs ∧ t.cnt = s.cnt ∧ t.params = s.params ∧ t.host = s.host ∧
      t.opc = i.opcode ∧ t.trace = [] ∧ t.phase = .resp ∧ t.rspState = .valid

/-! ### The multipliers -/

/-- R164: `accept` of a valid `MULB2`, register by register. -/
def Obligations.MulbTwoAcceptLoadsItsRegisters : Prop :=
  ∀ (s : State) (a b : VecDesc) (n : LenDesc), s.phase = .idle → ValidMul s.params a b n →
    exec (.mulb2 a b n) s = .next { s with
      phase := .mstep, opc := 0x8#4, cnt := 0, wreg := n.val, trace := [], rsp := {}, rspState := .invalid
      md := a.vec.sext n.val, mq := (b.vec.sext n.val).append ⟨1, 0#1⟩, p := bv (2 * n.val) 0
      fa := a.frac, fb := b.frac, even := false }

/-- R194: `accept` of a valid `MULB4`, register by register. -/
def Obligations.MulbFourAcceptLoadsItsRegisters : Prop :=
  ∀ (s : State) (a b : VecDesc) (n : LenDesc), s.phase = .idle → ValidMul s.params a b n →
    exec (.mulb4 a b n) s = .next { s with
      phase := .mstep, opc := 0x9#4, cnt := 0, wreg := n.val, trace := [], rsp := {}, rspState := .invalid
      md := a.vec.sext n.val
      mq := ((b.vec.sext n.val).sext (if n.val % 2 = 1 then n.val + 1 else n.val)).append ⟨1, 0#1⟩
      p := bv (2 * n.val + 1) 0, fa := a.frac, fb := b.frac, even := decide (n.val % 2 = 1) }

/-- R163, R192: extension to the word length, and the added parity bit, change neither operand's value. -/
def Obligations.OperandExtensionKeepsTheValue : Prop :=
  ∀ (s : State) (a b : VecDesc) (n : LenDesc), s.phase = .idle → ValidMul s.params a b n →
    ∃ t₂ t₄, exec (.mulb2 a b n) s = .next t₂ ∧ exec (.mulb4 a b n) s = .next t₄ ∧
      t₂.md.sint = a.vec.sint ∧ t₂.mq.bit 0 = false ∧ (t₂.mq.slice 1 n.val).sint = b.vec.sint ∧
      t₄.md.sint = a.vec.sint ∧ t₄.mq.bit 0 = false ∧ (t₄.mq.slice 1 n.val).sint = b.vec.sint ∧
      (t₄.mq.slice 1 (t₄.mq.len - 1)).sint = b.vec.sint ∧
      (∀ j < n.val, t₄.mq.bit (j + 1) = t₂.mq.bit (j + 1)) ∧
      (n.val % 2 = 1 → t₄.mq.bit (n.val + 1) = t₄.mq.bit n.val)

/-- R165, R193: the recoding tables as the formulas on the examined bits. -/
def Obligations.RecodingTablesMatchTheirFormulas : Prop :=
  (∀ hi lo : Bool, (boothDigit hi lo).val = bitVal lo - bitVal hi) ∧
    (∀ b2 b1 b0 : Bool, (bitPairDigit b2 b1 b0).val = bitVal b0 + bitVal b1 - 2 * bitVal b2) ∧
    ∀ d : Digit, d.field.toInt = d.val

/-- R166, R167: one `MSTEP` step of `MULB2`, the last one with its response. -/
def Obligations.MulbTwoStepAddsThePartialProduct : Prop :=
  ∀ s : State, s.phase = .mstep → s.opc = 0x8#4 →
    let i := s.cnt
    let w := s.wreg
    let hi := s.mq.bit (i + 1)
    let lo := s.mq.bit i
    let d := boothDigit hi lo
    let pp := bv (2 * w - i) (d.val * s.md.sint)
    let pn := if d.val = 0 then s.p else bv (2 * w) ((s.p.uint : Int) + pp.uint * 2 ^ i)
    let row : MulRow :=
      { idx := i, op := d, exam := 0#1 ++ BitVec.ofBool hi ++ BitVec.ofBool lo, shift := i
        ppValid := decide (d.val ≠ 0), pp := if d.val = 0 then Vec.empty else pp }
    work s = .next (if i + 1 < w then { s with p := pn, trace := s.trace ++ [.mul row], cnt := i + 1 }
      else { s with
        p := pn, trace := s.trace ++ [.mul row], phase := .resp, rspState := .valid
        rsp :=
          { vec := pn, frac := s.fa + s.fb, flag := false, val := decodeDecimal pn (s.fa + s.fb)
            valA := decodeDecimal s.md s.fa, valB := decodeDecimal (s.mq.slice 1 w) s.fb } })

/-- R198, R199: one `MSTEP` step of `MULB4`, the last one with its response. -/
def Obligations.MulbFourStepAddsThePartialProduct : Prop :=
  ∀ s : State, s.phase = .mstep → s.opc = 0x9#4 →
    let k := s.cnt
    let w := s.wreg
    let b2 := s.mq.bit (2 * k + 2)
    let b1 := s.mq.bit (2 * k + 1)
    let b0 := s.mq.bit (2 * k)
    let d := bitPairDigit b2 b1 b0
    let pp := bv (2 * w + 1 - 2 * k) (d.val * s.md.sint)
    let pn := if d.val = 0 then s.p else bv (2 * w + 1) ((s.p.uint : Int) + pp.uint * 4 ^ k)
    let row : MulRow :=
      { idx := k, op := d, exam := BitVec.ofBool b2 ++ BitVec.ofBool b1 ++ BitVec.ofBool b0, shift := 2 * k
        ppValid := decide (d.val ≠ 0), pp := if d.val = 0 then Vec.empty else pp }
    work s = .next (if k + 1 < (w + 1) / 2 then { s with p := pn, trace := s.trace ++ [.mul row], cnt := k + 1 }
      else { s with
        p := pn, trace := s.trace ++ [.mul row], phase := .resp, rspState := .valid
        rsp :=
          { vec := pn, frac := s.fa + s.fb, flag := s.even, val := decodeDecimal pn (s.fa + s.fb)
            valA := decodeDecimal s.md s.fa, valB := decodeDecimal (s.mq.slice 1 w) s.fb } })

/-- R169: the radix-2 digits of an extended multiplier sum to its value, their non-zero members alternate in
sign from -1 upwards, and a non-zero multiplier has one. -/
def Obligations.BoothDigitsSumToTheMultiplier : Prop :=
  ∀ (mq : Vec) (w : Nat), mq.bit 0 = false →
    let d := fun i => (boothDigit (mq.bit (i + 1)) (mq.bit i)).val
    ((List.range w).map (fun i => d i * 2 ^ i)).sum = (mq.slice 1 w).sint ∧
      (∀ i j, i < j → j < w → d i ≠ 0 → d j ≠ 0 → (∀ k, i < k → k < j → d k = 0) → d j = -d i) ∧
      (∀ i < w, d i ≠ 0 → (∀ k < i, d k = 0) → d i = -1) ∧
      ((mq.slice 1 w).uint ≠ 0 → ∃ i < w, d i ≠ 0) ∧
      ∀ i < w, d i ≠ 0 ↔ mq.bit i ≠ mq.bit (i + 1)

/-- R193: the radix-4 digits sum to the value of the bits they pair. -/
def Obligations.BitPairDigitsSumToTheMultiplier : Prop :=
  ∀ (mq : Vec) (k : Nat), mq.bit 0 = false →
    ((List.range k).map (fun j =>
      (bitPairDigit (mq.bit (2 * j + 2)) (mq.bit (2 * j + 1)) (mq.bit (2 * j))).val * 4 ^ j)).sum =
      (mq.slice 1 (2 * k)).sint

/-- R160, R168, R172: a valid `MULB2` presented to an idle block is answered after exactly `W` `work` steps with
`W` rows; the product is exact, as an integer and as a fixed-point value, and so are the decoded operands. -/
def Obligations.MulbTwoAnswersTheExactProduct : Prop :=
  ∀ (s : State) (c : Command) (a b : VecDesc) (n : LenDesc),
    s.phase = .idle → s.host = [.command c] → decode c = .ok (.mulb2 a b n) → ValidMul s.params a b n →
      (∀ k, 1 ≤ k → k ≤ n.val → ∃ t, Host.Core.run Sys2Proof.core k s = .next t ∧ t.phase = .mstep ∧
        t.trace.length = k - 1) ∧
      ∃ t, Host.Core.run Sys2Proof.core (1 + n.val) s = .next t ∧ t.phase = .resp ∧ t.rsp.status = .ok ∧
        t.rsp.vec.len = 2 * n.val ∧ t.rsp.vec.sint = a.vec.sint * b.vec.sint ∧ t.rsp.frac = a.frac + b.frac ∧
        t.rsp.flag = false ∧ t.trace.length = n.val ∧
        t.rsp.vec.value t.rsp.frac = a.vec.value a.frac * b.vec.value b.frac ∧
        t.rsp.val.value = a.vec.value a.frac * b.vec.value b.frac ∧
        t.rsp.valA.value = a.vec.value a.frac ∧ t.rsp.valB.value = b.vec.value b.frac

/-- R190, R200, R201: a valid `MULB4` presented to an idle block is answered after exactly `ceil(W/2)` `work`
steps with as many rows; the product is exact, and `flag` says whether `W` is odd. -/
def Obligations.MulbFourAnswersTheExactProduct : Prop :=
  ∀ (s : State) (c : Command) (a b : VecDesc) (n : LenDesc),
    s.phase = .idle → s.host = [.command c] → decode c = .ok (.mulb4 a b n) → ValidMul s.params a b n →
      (∀ k, 1 ≤ k → k ≤ (n.val + 1) / 2 → ∃ t, Host.Core.run Sys2Proof.core k s = .next t ∧ t.phase = .mstep ∧
        t.trace.length = k - 1) ∧
      ∃ t, Host.Core.run Sys2Proof.core (1 + (n.val + 1) / 2) s = .next t ∧ t.phase = .resp ∧
        t.rsp.status = .ok ∧ t.rsp.vec.len = 2 * n.val + 1 ∧ t.rsp.vec.sint = a.vec.sint * b.vec.sint ∧
        t.rsp.frac = a.frac + b.frac ∧ t.rsp.flag = decide (n.val % 2 = 1) ∧
        t.trace.length = (n.val + 1) / 2 ∧
        t.rsp.vec.value t.rsp.frac = a.vec.value a.frac * b.vec.value b.frac ∧
        t.rsp.val.value = a.vec.value a.frac * b.vec.value b.frac ∧
        t.rsp.valA.value = a.vec.value a.frac ∧ t.rsp.valB.value = b.vec.value b.frac

/-- R197, R200: the radix-4 product is the radix-2 product sign-extended by one bit, and the decoded values are
the same. -/
def Obligations.BothRadicesAgree : Prop :=
  ∀ (s₂ s₄ : State) (c₂ c₄ : Command) (a b : VecDesc) (n : LenDesc),
    s₂.phase = .idle → s₂.host = [.command c₂] → decode c₂ = .ok (.mulb2 a b n) → ValidMul s₂.params a b n →
    s₄.phase = .idle → s₄.host = [.command c₄] → decode c₄ = .ok (.mulb4 a b n) → ValidMul s₄.params a b n →
      ∃ t₂ t₄, Host.Core.run Sys2Proof.core (1 + n.val) s₂ = .next t₂ ∧
        Host.Core.run Sys2Proof.core (1 + (n.val + 1) / 2) s₄ = .next t₄ ∧
        t₂.phase = .resp ∧ t₄.phase = .resp ∧
        t₄.rsp.vec = t₂.rsp.vec.sext (2 * n.val + 1) ∧
        t₄.rsp.vec.bit (2 * n.val) = t₄.rsp.vec.bit (2 * n.val - 1) ∧
        t₄.rsp.val = t₂.rsp.val ∧ t₄.rsp.valA = t₂.rsp.valA ∧ t₄.rsp.valB = t₂.rsp.valB

/-- R100, R165, R196: the PartialProducts a finished multiplication has recorded, each taken at its shift as a
signed number, sum to the exact product; there is at least one, and none of them was cut. -/
def Obligations.RecordedPartialProductsSumToTheProduct : Prop :=
  ∀ (s : State) (c : Command) (a b : VecDesc) (n : LenDesc) (k : Nat),
    s.phase = .idle → s.host = [.command c] → ValidMul s.params a b n →
    (decode c = .ok (.mulb2 a b n) ∧ k = n.val ∨ decode c = .ok (.mulb4 a b n) ∧ k = (n.val + 1) / 2) →
      ∃ t, Host.Core.run Sys2Proof.core (1 + k) s = .next t ∧ t.phase = .resp ∧
        partialProducts t.trace ≠ [] ∧
        (∀ q ∈ partialProducts t.trace, q.2.1.sint = q.1.val * a.vec.sint ∧
          q.2.1.len + q.2.2 = t.rsp.vec.len) ∧
        ((partialProducts t.trace).map (fun q => q.2.1.sint * 2 ^ q.2.2)).sum = a.vec.sint * b.vec.sint

/-! ### The dividers -/

/-- R221, R223, R224: `accept` of a valid division, register by register, with the `INIT` row; `n` is the least
width that holds both operands. `SGN` and the multiplier registers are not written. -/
def Obligations.DividerAcceptLoadsItsRegisters : Prop :=
  ∀ (s : State) (x y : IntDesc), s.phase = .idle → ValidDiv s.params x y →
    ∃ n, 1 ≤ n ∧ (∀ k, n ≤ k ↔ x.val < 2 ^ k ∧ y.val < 2 ^ k) ∧
      Params.within s.params.nmax n = true ∧
      ∀ op : BitVec 4, ∀ i : Instr, (op = 0xC#4 ∧ i = .divr x y ∨ op = 0xD#4 ∧ i = .divnr x y) →
        exec i s = .next { s with
          phase := .dshift, opc := op, cnt := 1, nreg := n, rsp := {}, rspState := .invalid
          a := bv (n + 1) 0, q := bv n x.val, m := bv (n + 1) y.val, qp := false
          trace := [.div { lab := .init, cyc := 0, act := .init, a := bv (n + 1) 0, q := bv n x.val
                           qmark := false, m := bv (n + 1) y.val }] }

/-- R226: the `DSHIFT` step of either divider. -/
def Obligations.DshiftShiftsBothRegisters : Prop :=
  ∀ s : State, s.phase = .dshift → (s.opc = 0xC#4 ∨ s.opc = 0xD#4) →
    let a := (s.a.slice 0 s.nreg).append (Vec.ofBit (s.q.bit (s.nreg - 1)))
    let q := (s.q.slice 0 (s.nreg - 1)).append (Vec.ofBit false)
    work s = .next { s with
      phase := .darith, a := a, q := q, qp := true, sgn := if s.opc = 0xD#4 then s.a.bit s.nreg else s.sgn
      trace := s.trace ++
        [.div { lab := .cycle, cyc := s.cnt, act := .shift, a := a, q := q, qmark := true, m := s.m }] }

/-- R228, R229: the `DARITH` step: the restoring divider subtracts; the other one adds when the captured sign
is 1 and subtracts when it is 0. -/
def Obligations.DarithAddsOrSubtracts : Prop :=
  ∀ s : State, s.phase = .darith → (s.opc = 0xC#4 ∨ s.opc = 0xD#4) → s.qp = true →
    let adds := s.opc = 0xD#4 ∧ s.sgn = true
    let mn := bv (s.nreg + 1) (-(s.m.uint : Int))
    let a := bv (s.nreg + 1) (if adds then (s.a.uint : Int) + s.m.uint else (s.a.uint : Int) + mn.uint)
    work s = .next { s with
      phase := .dset, a := a
      trace := s.trace ++
        [.div { lab := .cycle, cyc := s.cnt, act := if adds then .add else .sub, a := a, q := s.q
                qmark := true, m := s.m }] }

/-- R230, R231, R232: the `DSET` step: `Q[0]` becomes the complement of the sign of `A`; only the restoring divider adds
`M` back; then the next cycle, the correction of a negative non-restoring `A`, or the terminal row. -/
def Obligations.DsetSetsTheQuotientBit : Prop :=
  ∀ s : State, s.phase = .dset → (s.opc = 0xC#4 ∨ s.opc = 0xD#4) →
    let neg := s.a.bit s.nreg
    let q := s.q.writeBit0 (!neg)
    let a := if neg = true ∧ s.opc = 0xC#4 then bv (s.nreg + 1) ((s.a.uint : Int) + s.m.uint) else s.a
    let act : Action := if neg = true then (if s.opc = 0xC#4 then .restore else .set0) else .set1
    work s = .next { s with
      a := a, q := q, qp := false
      cnt := if s.cnt < s.nreg then s.cnt + 1 else s.cnt
      phase := if s.cnt < s.nreg then .dshift
        else if s.opc = 0xD#4 ∧ a.bit s.nreg = true then .dcorr else .dfinal
      trace := s.trace ++
        [.div { lab := .cycle, cyc := s.cnt, act := act, a := a, q := q, qmark := false, m := s.m }] }

/-- R233: the `DCORR` step. -/
def Obligations.DcorrAddsTheDivisorOnce : Prop :=
  ∀ s : State, s.phase = .dcorr → s.opc = 0xD#4 →
    let a := bv (s.nreg + 1) ((s.a.uint : Int) + s.m.uint)
    work s = .next { s with
      phase := .dfinal, a := a
      trace := s.trace ++
        [.div { lab := .final, cyc := 0, act := .correct, a := a, q := s.q, qmark := false, m := s.m }] }

/-- R234: the `DFINAL` step: the terminal row and the response. -/
def Obligations.DfinalAnswersQuotientAndRemainder : Prop :=
  ∀ s : State, s.phase = .dfinal → (s.opc = 0xC#4 ∨ s.opc = 0xD#4) →
    let quo := s.q.uint
    let rem := (s.a.slice 0 s.nreg).uint
    work s = .next { s with
      phase := .resp, rspState := .valid
      rsp := { quo := quo, rem := rem, alg := decide (s.opc = 0xD#4), n := s.nreg }
      trace := s.trace ++
        [.div { lab := .final, cyc := 0, act := .result, a := s.a, q := s.q, qmark := false, m := s.m
                quo := quo, rem := rem }] }

/-- R242, R244, R78: a valid `DIVR` presented to an idle block is answered after exactly `3n + 1` `work` steps with the
true quotient and remainder and `3n + 2` rows, the last of which is the terminal row. -/
def Obligations.DivrAnswersQuotientAndRemainder : Prop :=
  ∀ (s : State) (c : Command) (x y : IntDesc),
    s.phase = .idle → s.host = [.command c] → decode c = .ok (.divr x y) → ValidDiv s.params x y →
      ∃ n t, (∀ k, n ≤ k ↔ x.val < 2 ^ k ∧ y.val < 2 ^ k) ∧
        (∀ k < 3 * n + 2, ∀ u, Host.Core.run Sys2Proof.core k s = .next u → u.phase ≠ .resp) ∧
        Host.Core.run Sys2Proof.core (1 + (3 * n + 1)) s = .next t ∧ t.phase = .resp ∧ t.rsp.status = .ok ∧
        (t.rsp.quo : Int) = x.val / y.val ∧ (t.rsp.rem : Int) = x.val % y.val ∧
        x.val = t.rsp.quo * y.val + t.rsp.rem ∧ (t.rsp.rem : Int) < y.val ∧
        t.rsp.alg = false ∧ t.rsp.n = n ∧ t.trace.length = 3 * n + 2 ∧
        ∃ r, t.trace.getLast? = some (.div r) ∧ r.act = .result ∧ r.lab = .final ∧ r.quo = t.rsp.quo ∧
          r.rem = t.rsp.rem

/-- R242, R244, R78: a valid `DIVNR` presented to an idle block is answered with the true quotient and remainder after
`3n + 1` `work` steps, or `3n + 2` with the correction; it records one row more than it takes `work` steps, and a `CORRECT`
row exactly when it takes the correction. -/
def Obligations.DivnrAnswersQuotientAndRemainder : Prop :=
  ∀ (s : State) (c : Command) (x y : IntDesc),
    s.phase = .idle → s.host = [.command c] → decode c = .ok (.divnr x y) → ValidDiv s.params x y →
      ∃ n k t, (∀ j, n ≤ j ↔ x.val < 2 ^ j ∧ y.val < 2 ^ j) ∧ (k = 3 * n + 1 ∨ k = 3 * n + 2) ∧
        (∀ j < 1 + k, ∀ u, Host.Core.run Sys2Proof.core j s = .next u → u.phase ≠ .resp) ∧
        Host.Core.run Sys2Proof.core (1 + k) s = .next t ∧ t.phase = .resp ∧ t.rsp.status = .ok ∧
        (t.rsp.quo : Int) = x.val / y.val ∧ (t.rsp.rem : Int) = x.val % y.val ∧
        x.val = t.rsp.quo * y.val + t.rsp.rem ∧ (t.rsp.rem : Int) < y.val ∧
        t.rsp.alg = true ∧ t.rsp.n = n ∧ t.trace.length = k + 1 ∧
        (k = 3 * n + 2 ↔ ∃ r, Row.div r ∈ t.trace ∧ r.act = .correct) ∧
        ∃ r, t.trace.getLast? = some (.div r) ∧ r.act = .result ∧ r.lab = .final ∧ r.quo = t.rsp.quo ∧
          r.rem = t.rsp.rem

/-- R243: both variants give the same quotient, remainder and width for the same operands, from whatever idle
states they start. -/
def Obligations.BothDividersAgree : Prop :=
  ∀ (s s' : State) (c c' : Command) (x y : IntDesc),
    s.phase = .idle → s.host = [.command c] → decode c = .ok (.divr x y) → ValidDiv s.params x y →
    s'.phase = .idle → s'.host = [.command c'] → decode c' = .ok (.divnr x y) → ValidDiv s'.params x y →
      ∃ k k' t t', Host.Core.run Sys2Proof.core k s = .next t ∧ Host.Core.run Sys2Proof.core k' s' = .next t' ∧
        t.phase = .resp ∧ t'.phase = .resp ∧ t.rsp.status = .ok ∧
        t'.rsp = { t.rsp with alg := true } ∧ t.rsp.alg = false

/-! ### Invariants and whole-machine rules -/

/-- The three invariants hold after reset. -/
def Obligations.InvariantsHoldAtReset : Prop :=
  ControlInv State.reset ∧ MulInv State.reset ∧ DivInv State.reset

/-- R31, R32, R47, R52: every step keeps the control invariant. -/
def Obligations.StepKeepsControlInvariant : Prop :=
  ∀ s t : State, ControlInv s → step s = .next t → ControlInv t

/-- R34 to R39, R48, R168, R197: every step keeps the multiplier invariant. -/
def Obligations.StepKeepsMultiplierInvariant : Prop :=
  ∀ s t : State, MulInv s → step s = .next t → MulInv t

/-- R34, R35, R41 to R45, R240, R241, R242: every step keeps the divider invariant. -/
def Obligations.StepKeepsDividerInvariant : Prop :=
  ∀ s t : State, DivInv s → step s = .next t → DivInv t

/-- R240: in a state of the divider invariant, the restoring variant's shift never fills the top bit of `A`: between
`DSHIFT` and `DARITH`, `uint(A)` is at most `2y - 1`, at most the dividend's prefix, and below `2^n`. -/
def Obligations.RestoringShiftKeepsTheTopBitClear : Prop :=
  ∀ s : State, DivInv s → s.phase = .darith → s.opc = 0xC#4 →
    s.a.uint ≤ 2 * s.m.uint - 1 ∧ s.a.uint ≤ s.dividend / 2 ^ (s.nreg - s.cnt) ∧ s.a.uint < 2 ^ s.nreg ∧
      s.a.bit s.nreg = false

/-- R241: in a state of the divider invariant, after either variant's `DARITH` the sign bit of `A` is the sign of the true
difference, which is in `-y .. y-1`. -/
def Obligations.SignAfterArithmeticIsTrue : Prop :=
  ∀ s : State, DivInv s → s.phase = .dset →
    -(s.m.uint : Int) ≤ s.a.sint ∧ s.a.sint ≤ s.m.uint - 1 ∧ (s.a.bit s.nreg = true ↔ s.a.sint < 0)

/-- R46, R78: every `work` step of an operation appends exactly one row and keeps the earlier ones; in `IDLE` and `RESP` the
block appends none. -/
def Obligations.WorkStepsAppendOneRow : Prop :=
  ∀ s t : State, work s = .next t →
    (s.working = true → ∃ r, t.trace = s.trace ++ [r]) ∧ (s.working = false → t = s)

/-- R279: no `work` step raises an error: the response a `work` step leaves is OK. -/
def Obligations.WorkStepsRaiseNoError : Prop :=
  ∀ s t : State, work s = .next t → s.working = true → t.phase = .resp → t.rsp.status = .ok

/-- R36, R37, R39, R42 to R44, R48: what no `work` step writes: the opcode, the parameters and the host's actions; in a
multiplication `MD`, `MQ`, `WREG`, `FA`, `FB`, `EVEN` and every divider register; in a division `M`, `NREG` and every
multiplier register. -/
def Obligations.WorkStepFrame : Prop :=
  ∀ s t : State, work s = .next t →
    t.opc = s.opc ∧ t.params = s.params ∧ t.host = s.host ∧
      (s.phase = .mstep → t.divRegs = s.divRegs ∧ t.md = s.md ∧ t.mq = s.mq ∧ t.wreg = s.wreg ∧ t.fa = s.fa ∧
        t.fb = s.fb ∧ t.even = s.even) ∧
      (s.inDivision = true → t.mulRegs = s.mulRegs ∧ t.m = s.m ∧ t.nreg = s.nreg)

/-- R17, R40: what the host sees of a command and of everything after it depends on the command, the parameters and the
host's own actions, and on nothing an earlier command or a reset left in the registers, the trace or the response. -/
def Obligations.OutputsDependOnlyOnTheCommand : Prop :=
  ∀ (s s' : State) (c : Command) (rest : List HostAction) (k : Nat),
    s.phase = .idle → s'.phase = .idle → s.params = s'.params → s.host = .command c :: rest → s'.host = s.host →
    1 ≤ k → ∃ o, observeRun k s = some o ∧ observeRun k s' = some o

/-- R321, R322: every command presented to an idle block reaches `RESP` after exactly the `work` steps of its
operation, and not before; a command that raises an error, or that is no operation, after none. `workSteps` counts
the correction of `DIVNR`, which one step less goes without. A block in a state of the control invariant never
stops: every step of any kind answers a next state. -/
def Obligations.EveryCommandIsAnswered : Prop :=
  (∀ (s : State) (c : Command), s.phase = .idle → s.host = [.command c] →
    ∃ k t, Host.Core.run Sys2Proof.core (1 + k) s = .next t ∧ t.phase = .resp ∧
      (∀ j ≤ k, ∀ u, Host.Core.run Sys2Proof.core j s = .next u → u.phase ≠ .resp) ∧
      (∀ i, decode c = .ok i → errorOf s.params i = none →
        k = i.workSteps ∨ (i.opcode = 0xD#4 ∧ k + 1 = i.workSteps)) ∧
      (∀ i e, decode c = .ok i → errorOf s.params i = some e → k = 0) ∧
      (∀ e, decode c = .error e → k = 0)) ∧
    ∀ s : State, ControlInv s → ∃ t, step s = .next t

/-- R99: on input, positions at or above the length are ignored: two descriptors that differ only there make the
same machine step in every slot; on output, every vector field is 0 there. -/
def Obligations.PositionsBeyondTheLengthPlayNoPart : Prop :=
  (∀ (d d' : VecDesc) (s : State), d.bad = d'.bad → d.len = d'.len → d.frac = d'.frac →
    (∀ j < d.len, d.bits.bit j = d'.bits.bit j) →
      (∀ t x n, exec (.padt t x d n) s = exec (.padt t x d' n) s) ∧
      (∀ n, exec (.neg d n) s = exec (.neg d' n) s) ∧
      (∀ e, exec (.adds d e) s = exec (.adds d' e) s ∧ exec (.adds e d) s = exec (.adds e d') s) ∧
      exec (.shl0 d) s = exec (.shl0 d') s ∧ exec (.dec d) s = exec (.dec d') s ∧
      (∀ e n, exec (.mulb2 d e n) s = exec (.mulb2 d' e n) s ∧ exec (.mulb2 e d n) s = exec (.mulb2 e d' n) s) ∧
      ∀ e n, exec (.mulb4 d e n) s = exec (.mulb4 d' e n) s ∧ exec (.mulb4 e d n) s = exec (.mulb4 e d' n) s) ∧
    ∀ (v : Vec) (w j : Nat), (v.len ≤ j → (v.field w).getLsbD j = false) ∧
      (j < v.len → j < w → (v.field w).getLsbD j = v.bit j)

/-- R95, R142: the display string of a vector with a digit before the point, read back as a literal, is the vector with its
length and fractional-bit count. -/
def Obligations.DisplayStringReadsBack : Prop :=
  ∀ (v : Vec) (f : Nat), f < v.len → literal (v.showPoint f) = { len := v.len, frac := f, bits := v }
end

