-- ==== Sys2Proof/Laws/Bits.lean ====
section
/-! SUPPORT. The small laws of bit vectors: what each function of `Machine/Bits.lean` has as length, bits,
unsigned and signed value. -/

namespace Sys2Proof

theorem Vec.ext_uint {v w : Vec} (hl : v.len = w.len) (hu : v.uint = w.uint) : v = w := by
  obtain ⟨n, x⟩ := v
  obtain ⟨m, y⟩ := w
  obtain rfl : n = m := hl
  exact congrArg _ (BitVec.eq_of_toNat_eq hu)

theorem Vec.ext_bit {v w : Vec} (hl : v.len = w.len) (hb : ∀ i < v.len, v.bit i = w.bit i) : v = w := by
  obtain ⟨n, x⟩ := v
  obtain ⟨m, y⟩ := w
  obtain rfl : n = m := hl
  exact congrArg _ (BitVec.eq_of_getLsbD_eq fun i hi => hb i hi)

theorem Vec.ext_sint {v w : Vec} (hl : v.len = w.len) (hs : v.sint = w.sint) : v = w := by
  obtain ⟨n, x⟩ := v
  obtain ⟨m, y⟩ := w
  obtain rfl : n = m := hl
  exact congrArg _ (BitVec.eq_of_toInt_eq hs)

@[simp] theorem bv_len (n : Nat) (x : Int) : (bv n x).len = n := rfl
@[simp] theorem Vec.zext_len (n : Nat) (v : Vec) : (v.zext n).len = n := rfl
@[simp] theorem Vec.sext_len (n : Nat) (v : Vec) : (v.sext n).len = n := rfl
@[simp] theorem Vec.slice_len (v : Vec) (lo n : Nat) : (v.slice lo n).len = n := rfl
@[simp] theorem Vec.trunc_len (n : Nat) (v : Vec) : (v.trunc n).len = n := rfl
@[simp] theorem Vec.append_len (a b : Vec) : (a.append b).len = a.len + b.len := rfl
@[simp] theorem Vec.ofBit_len (b : Bool) : (Vec.ofBit b).len = 1 := rfl
@[simp] theorem Vec.invert_len (v : Vec) : v.invert.len = v.len := rfl
@[simp] theorem Vec.writeBit0_len (v : Vec) (b : Bool) : (v.writeBit0 b).len = v.len := rfl
@[simp] theorem Vec.empty_len : Vec.empty.len = 0 := rfl

theorem Vec.uint_lt (v : Vec) : v.uint < 2 ^ v.len := v.bits.isLt

theorem Vec.bit_eq_testBit (v : Vec) (i : Nat) : v.bit i = v.uint.testBit i := rfl

theorem Vec.bit_of_len_le (v : Vec) {i : Nat} (h : v.len ≤ i) : v.bit i = false :=
  BitVec.getLsbD_of_ge _ _ h

theorem uint_bv (n : Nat) (x : Int) : ((bv n x).uint : Int) = x % 2 ^ n := by
  show ((BitVec.ofInt n x).toNat : Int) = _
  rw [BitVec.toNat_ofInt]
  have : (0 : Int) ≤ x % ((2 ^ n : Nat) : Int) := Int.emod_nonneg _ (by positivity)
  rw [Int.toNat_of_nonneg this]
  norm_cast

theorem sint_bv (n : Nat) (x : Int) : (bv n x).sint = x.bmod (2 ^ n) :=
  BitVec.toInt_ofInt (n := n) x

theorem Vec.sint_eq_bmod (v : Vec) : v.sint = (v.uint : Int).bmod (2 ^ v.len) :=
  BitVec.toInt_eq_toNat_bmod v.bits

theorem bv_uint (v : Vec) : bv v.len v.uint = v :=
  Vec.ext_sint rfl (by rw [sint_bv, Vec.sint_eq_bmod])

theorem bv_sint (v : Vec) : bv v.len v.sint = v :=
  Vec.ext_sint rfl (by rw [sint_bv, Vec.sint_eq_bmod]; exact Int.bmod_bmod)

/-- Equal lengths and congruent values make equal vectors. -/
theorem bv_eq_iff (n : Nat) (x y : Int) : bv n x = bv n y ↔ x % 2 ^ n = y % 2 ^ n := by
  constructor
  · intro h; rw [← uint_bv, ← uint_bv, h]
  · intro h
    refine Vec.ext_uint rfl ?_
    have := (uint_bv n x).trans (h.trans (uint_bv n y).symm)
    exact_mod_cast this

theorem uint_bv_of_lt {n : Nat} {x : Int} (h0 : 0 ≤ x) (h : x < 2 ^ n) : ((bv n x).uint : Int) = x := by
  rw [uint_bv, Int.emod_eq_of_lt h0 h]

/-- `sint` of `bv` is the value where the value fits. -/
theorem sint_bv_of_fits {n : Nat} {x : Int} (hl : -(2 ^ n : Int) ≤ 2 * x) (hu : 2 * x < 2 ^ n) :
    (bv n x).sint = x := by
  rw [sint_bv]
  refine Int.bmod_eq_of_le_mul_two ?_ ?_ <;> push_cast <;> omega

/-- `uint(v) - 2^len * msb(v)` (R14). -/
theorem Vec.sint_eq (v : Vec) : v.sint = (v.uint : Int) - if v.msb then 2 ^ v.len else 0 := by
  have h : v.bits.toInt = (v.bits.toNat : Int) - if v.bits.msb = true then 2 ^ v.len else 0 := by
    rw [BitVec.toInt_eq_msb_cond]
    split <;> simp
  exact h

theorem Vec.msb_eq_bit (v : Vec) : v.msb = v.bit (v.len - 1) := by
  simp [Vec.msb, Vec.bit, BitVec.msb_eq_getLsbD_last]

theorem Vec.msb_iff_sint_neg (v : Vec) : v.msb = true ↔ v.sint < 0 := by
  show v.bits.msb = true ↔ v.bits.toInt < 0
  rw [BitVec.msb_eq_toInt]; simp

theorem Vec.two_mul_sint_lt (v : Vec) : 2 * v.sint < 2 ^ v.len := by
  exact_mod_cast BitVec.two_mul_toInt_lt (x := v.bits)

theorem Vec.le_two_mul_sint (v : Vec) : -(2 ^ v.len : Int) ≤ 2 * v.sint := by
  exact_mod_cast BitVec.le_two_mul_toInt (x := v.bits)

/-- Sign extension keeps the signed value (R15). -/
theorem Vec.sint_sext {n : Nat} {v : Vec} (h : v.len ≤ n) : (v.sext n).sint = v.sint := by
  have hp : (2 ^ v.len : Int) ≤ 2 ^ n := by exact_mod_cast Nat.pow_le_pow_right (by norm_num) h
  have h1 := v.two_mul_sint_lt
  have h2 := v.le_two_mul_sint
  exact sint_bv_of_fits (by omega) (by omega)

/-- Zero extension keeps the unsigned value (R15). -/
theorem Vec.uint_zext {n : Nat} {v : Vec} (h : v.len ≤ n) : (v.zext n).uint = v.uint := by
  have hp : (2 ^ v.len : Int) ≤ 2 ^ n := by exact_mod_cast Nat.pow_le_pow_right (by norm_num) h
  have h1 : (v.uint : Int) < 2 ^ v.len := by exact_mod_cast v.uint_lt
  have := uint_bv_of_lt (n := n) (x := v.uint) (by omega) (by omega)
  exact_mod_cast this

theorem Vec.uint_slice (v : Vec) (lo n : Nat) : (v.slice lo n).uint = v.uint / 2 ^ lo % 2 ^ n := by
  simp [Vec.slice, Vec.uint, BitVec.extractLsb'_toNat, Nat.shiftRight_eq_div_pow]

theorem Vec.bit_slice (v : Vec) (lo n i : Nat) :
    (v.slice lo n).bit i = (decide (i < n) && v.bit (lo + i)) := by
  simp [Vec.slice, Vec.bit, BitVec.getLsbD_extractLsb']

theorem Vec.uint_append (a b : Vec) : (a.append b).uint = a.uint * 2 ^ b.len + b.uint := by
  show (a.bits ++ b.bits).toNat = _
  rw [BitVec.toNat_append, Nat.shiftLeft_eq, Nat.mul_comm, ← Nat.two_pow_add_eq_or_of_lt b.bits.isLt]
  simp [Vec.uint, Nat.mul_comm]

theorem Vec.bit_append (a b : Vec) (i : Nat) :
    (a.append b).bit i = if i < b.len then b.bit i else a.bit (i - b.len) := by
  simp only [Vec.append, Vec.bit, BitVec.getLsbD_append]

@[simp] theorem Vec.uint_ofBit (b : Bool) : (Vec.ofBit b).uint = b.toNat := by
  cases b <;> rfl

@[simp] theorem Vec.bit_ofBit (b : Bool) (i : Nat) : (Vec.ofBit b).bit i = (decide (i = 0) && b) := by
  cases b <;> simp [Vec.ofBit, Vec.bit]

theorem Vec.uint_invert (v : Vec) : (v.invert.uint : Int) = 2 ^ v.len - 1 - v.uint := by
  show (((~~~v.bits).toNat : Nat) : Int) = _
  have := v.uint_lt
  rw [BitVec.toNat_not]
  simp only [Vec.uint] at *
  have h : 1 ≤ 2 ^ v.len := Nat.one_le_two_pow
  push_cast [Nat.sub_sub, Nat.cast_sub (show 1 + v.bits.toNat ≤ 2 ^ v.len by omega)]
  ring

theorem Vec.uint_writeBit0 (v : Vec) (b : Bool) (h : 1 ≤ v.len) :
    (v.writeBit0 b).uint = 2 * (v.uint / 2) + b.toNat := by
  have h1 := v.uint_lt
  obtain ⟨k, hk⟩ : ∃ k, v.len = k + 1 := ⟨v.len - 1, by omega⟩
  have h2 : (2 ^ v.len : Nat) = 2 * 2 ^ k := by rw [hk, pow_succ]; ring
  have h3 : v.uint / 2 < 2 ^ k := by omega
  have h4 : b.toNat ≤ 1 := by cases b <;> simp
  have h5 : bitVal b = (b.toNat : Int) := by cases b <;> rfl
  have := uint_bv_of_lt (n := v.len) (x := 2 * (v.uint / 2 : Nat) + bitVal b) (by rw [h5]; omega)
    (by rw [h5]; zify at h2 h3 h4; omega)
  rw [h5] at this
  have h6 : (v.writeBit0 b).uint = (bv v.len (2 * (v.uint / 2 : Nat) + (b.toNat : Int))).uint := by
    rw [Vec.writeBit0, h5]
  rw [h6]
  exact_mod_cast this

theorem Vec.bit_zero_eq (v : Vec) : v.bit 0 = decide (v.uint % 2 = 1) := by
  rw [Vec.bit_eq_testBit, Nat.testBit_zero]

/-- `bitlength x` is the least `k` with `x < 2^k` (R221). -/
theorem bitlength_le_iff (x k : Nat) : bitlength x ≤ k ↔ x < 2 ^ k := by
  unfold bitlength
  split
  · subst x; simp
  · rename_i h
    rw [Nat.succ_le_iff, Nat.log2_lt h]

/-- Sign extension as the repetition of the sign bit (R15). -/
theorem Vec.sext_eq {n : Nat} {v : Vec} (h : v.len ≤ n) : v.sext n = ⟨n, v.bits.signExtend n⟩ := by
  refine Vec.ext_sint rfl ?_
  rw [Vec.sint_sext h]
  exact (BitVec.toInt_signExtend_of_le h).symm

theorem Vec.bit_sext {n : Nat} {v : Vec} (h : v.len ≤ n) {j : Nat} (hj : j < n) :
    (v.sext n).bit j = if j < v.len then v.bit j else v.bit (v.len - 1) := by
  rw [Vec.sext_eq h]
  simp only [Vec.bit]
  rw [BitVec.getLsbD_signExtend]
  simp [hj, BitVec.msb_eq_getLsbD_last]

theorem Vec.bit_zext {n : Nat} {v : Vec} (h : v.len ≤ n) (j : Nat) : (v.zext n).bit j = v.bit j := by
  rw [Vec.bit_eq_testBit, Vec.uint_zext h, Vec.bit_eq_testBit]

@[simp] theorem Vec.sint_slice_zero (v : Vec) (lo : Nat) : (v.slice lo 0).sint = 0 := by
  simp [Vec.slice, Vec.sint]

/-- The low bits of an extension of `v` with a bit appended below are `v`. -/
theorem Vec.slice_append_sext (v : Vec) {n : Nat} (h : v.len ≤ n) (b : Bool) :
    ((v.sext n).append (Vec.ofBit b)).slice 1 v.len = v := by
  refine Vec.ext_bit rfl fun i hi => ?_
  simp only [Vec.slice_len] at hi
  simp [Vec.bit_slice, Vec.bit_append, hi]
  rw [Vec.bit_sext h (by omega), if_pos hi]

/-- What one more bit of a multiplier with `Q₋₁ = 0` adds to its signed value. -/
theorem Vec.sint_slice_succ (mq : Vec) (w : Nat) (h0 : mq.bit 0 = false) :
    (mq.slice 1 (w + 1)).sint =
      (mq.slice 1 w).sint + (bitVal (mq.bit w) - bitVal (mq.bit (w + 1))) * 2 ^ w := by
  have hb : mq.bit (w + 1) = decide (mq.uint / 2 ^ 1 / 2 ^ w % 2 = 1) := by
    rw [Vec.bit_eq_testBit, Nat.testBit_eq_decide_div_mod_eq, Nat.div_div_eq_div_mul, ← pow_add, Nat.add_comm]
  have hs : mq.uint / 2 ^ 1 % 2 ^ (w + 1) =
      mq.uint / 2 ^ 1 % 2 ^ w + 2 ^ w * (mq.uint / 2 ^ 1 / 2 ^ w % 2) := by
    generalize mq.uint / 2 ^ 1 = u
    rw [pow_succ, Nat.mod_mul]
  have hbw : (decide (w - 1 < w) && mq.bit (w - 1 + 1)) = mq.bit w := by
    cases w <;> simp [h0]
  rw [Vec.sint_eq, Vec.sint_eq, Vec.msb_eq_bit, Vec.msb_eq_bit, Vec.uint_slice, Vec.uint_slice, hs]
  simp only [Vec.bit_slice, Vec.slice_len, Nat.add_sub_cancel, Nat.lt_succ_self, decide_true, Bool.true_and,
    Nat.add_comm 1]
  rw [hbw, hb]
  have hm : mq.uint / 2 ^ 1 / 2 ^ w % 2 < 2 := Nat.mod_lt _ (by norm_num)
  generalize mq.uint / 2 ^ 1 / 2 ^ w % 2 = x at *
  obtain rfl | rfl : x = 0 ∨ x = 1 := by omega
  all_goals cases mq.bit w <;> simp [bitVal, pow_succ] <;> ring

end Sys2Proof
end

