-- ==== Sys2Proof/Laws/Divider.lean ====
section
/-! SUPPORT. The division registers' arithmetic in signed values. -/

namespace Sys2Proof.Machine

/-- The width of a division is the least that holds both operands and is not 0. -/
theorem divWidth_le_iff (x y k : Nat) : divWidth x y ≤ k ↔ 1 ≤ k ∧ x < 2 ^ k ∧ y < 2 ^ k := by
  simp only [divWidth, max_le_iff, bitlength_le_iff]

theorem divWidth_pos (x y : Nat) : 1 ≤ divWidth x y := by
  simp [divWidth]

theorem aPlusM_eq {s : State} (h : s.a.len = s.nreg + 1) :
    s.aPlusM = bv (s.nreg + 1) (s.a.sint + s.m.uint) := by
  have : s.a = bv (s.nreg + 1) s.a.sint := by rw [← h, bv_sint]
  rw [State.aPlusM, bv_eq_iff]
  refine Int.ModEq.add ?_ rfl
  conv_lhs => rw [this]
  rw [uint_bv]
  exact Int.mod_modEq _ _

theorem aMinusM_eq {s : State} (h : s.a.len = s.nreg + 1) :
    s.aMinusM = bv (s.nreg + 1) (s.a.sint - s.m.uint) := by
  have : s.a = bv (s.nreg + 1) s.a.sint := by rw [← h, bv_sint]
  rw [State.aMinusM, State.mn, bv_eq_iff, uint_bv, Int.sub_eq_add_neg]
  refine Int.ModEq.add ?_ (Int.mod_modEq _ _)
  conv_lhs => rw [this]
  rw [uint_bv]
  exact Int.mod_modEq _ _

/-- The shift of `A` with `Q`'s top bit coming in doubles it, modulo its width. -/
theorem shifted_a_eq {s : State} (h : s.a.len = s.nreg + 1) (b : Bool) :
    (s.a.slice 0 s.nreg).append (Vec.ofBit b) = bv (s.nreg + 1) (2 * s.a.sint + bitVal b) := by
  refine Vec.ext_uint rfl ?_
  have hb : (b.toNat : Int) = bitVal b := by cases b <;> rfl
  have hle : bitVal b = 0 ∨ bitVal b = 1 := by cases b <;> simp [bitVal]
  have hs : (s.a.sint - s.a.uint) % 2 ^ (s.nreg + 1) = 0 := by
    rw [Vec.sint_eq, h]
    split_ifs <;> simp
  obtain ⟨c, hc⟩ := Int.dvd_of_emod_eq_zero hs
  rw [Vec.uint_append, Vec.uint_slice]
  zify
  rw [uint_bv, Vec.uint_ofBit, hb, Vec.ofBit_len]
  simp only [pow_zero, Int.ediv_one, pow_one]
  have hk : (0 : Int) < 2 ^ s.nreg := by positivity
  have hm0 := Int.emod_nonneg (s.a.uint : Int) hk.ne'
  have hm1 := Int.emod_lt_of_pos (s.a.uint : Int) hk
  have hd := Int.emod_add_mul_ediv (s.a.uint : Int) (2 ^ s.nreg)
  have h2 : 2 * s.a.sint + bitVal b =
      (s.a.uint % 2 ^ s.nreg * 2 + bitVal b) + 2 ^ (s.nreg + 1) * (s.a.uint / 2 ^ s.nreg + 2 * c) := by
    have : s.a.sint = s.a.uint + 2 ^ (s.nreg + 1) * c := by omega
    rw [this]
    conv_lhs => rw [← hd]
    rw [pow_succ]; ring
  rw [h2, Int.add_mul_emod_self_left]
  refine (Int.emod_eq_of_lt (by omega) ?_).symm
  rw [pow_succ]; omega

@[simp] theorem dshift_phase (s : State) : (dshift s).phase = .darith := rfl
@[simp] theorem dshift_m (s : State) : (dshift s).m = s.m := rfl
@[simp] theorem dshift_nreg (s : State) : (dshift s).nreg = s.nreg := rfl
@[simp] theorem dshift_cnt (s : State) : (dshift s).cnt = s.cnt := rfl
@[simp] theorem dshift_opc (s : State) : (dshift s).opc = s.opc := rfl
@[simp] theorem darith_phase (s : State) : (darith s).phase = .dset := by unfold darith; split_ifs <;> rfl
@[simp] theorem darith_q (s : State) : (darith s).q = s.q := by unfold darith; split_ifs <;> rfl
@[simp] theorem darith_m (s : State) : (darith s).m = s.m := by unfold darith; split_ifs <;> rfl
@[simp] theorem darith_nreg (s : State) : (darith s).nreg = s.nreg := by unfold darith; split_ifs <;> rfl
@[simp] theorem darith_cnt (s : State) : (darith s).cnt = s.cnt := by unfold darith; split_ifs <;> rfl
@[simp] theorem darith_opc (s : State) : (darith s).opc = s.opc := by unfold darith; split_ifs <;> rfl
@[simp] theorem advanceCycle_a (s : State) : (advanceCycle s).a = s.a := by unfold advanceCycle; split_ifs <;> rfl
@[simp] theorem advanceCycle_q (s : State) : (advanceCycle s).q = s.q := by unfold advanceCycle; split_ifs <;> rfl
@[simp] theorem advanceCycle_m (s : State) : (advanceCycle s).m = s.m := by unfold advanceCycle; split_ifs <;> rfl
@[simp] theorem advanceCycle_trace (s : State) : (advanceCycle s).trace = s.trace := by
  unfold advanceCycle; split_ifs <;> rfl

end Sys2Proof.Machine
end

