-- ==== Sys2Proof/Laws/Multiplier.lean ====
section
/-! SUPPORT. The recoding step as one record update, and the arithmetic of the accumulator. -/

namespace Sys2Proof.Machine

theorem Digit.eq_zero_iff (d : Digit) : d = .zero ↔ d.val = 0 := by
  cases d <;> simp [Digit.val]

/-- Everything a recoding step does: `P` and one row. -/
theorem recodeStep_eq (width shift : Nat) (d : Digit) (exam : BitVec 3) (s : State) :
    recodeStep width shift d exam s =
      let pp := bv (width - shift) (d.val * s.md.sint)
      { s with
        p := if d.val = 0 then s.p else bv width ((s.p.uint : Int) + pp.uint * 2 ^ shift)
        trace := s.trace ++
          [.mul { idx := s.cnt, op := d, exam := exam, shift := shift, ppValid := decide (d.val ≠ 0)
                  pp := if d.val = 0 then Vec.empty else pp }] } := by
  unfold recodeStep
  simp only [Digit.eq_zero_iff]
  split_ifs with h <;> simp [h, emit]

/-- Adding a partial product cut to the accumulator's remaining width adds its exact value, modulo the
accumulator's width. -/
theorem bv_add_partialProduct {width shift : Nat} (h : shift ≤ width) (x y : Int) :
    bv width (((bv width x).uint : Int) + (bv (width - shift) y).uint * 2 ^ shift) =
      bv width (x + y * 2 ^ shift) := by
  rw [bv_eq_iff, uint_bv, uint_bv]
  refine Int.ModEq.add (Int.mod_modEq _ _) ?_
  have : (2 : Int) ^ width = 2 ^ (width - shift) * 2 ^ shift := by
    rw [← pow_add]; congr 1; omega
  rw [this]
  exact (Int.mod_modEq y (2 ^ (width - shift))).mul_right'

/-- The product of two `w`-bit signed values fits `2w` bits. -/
theorem product_fits {x y : Int} {w : Nat} (hx1 : 2 * x < 2 ^ w) (hx2 : -(2 ^ w : Int) ≤ 2 * x)
    (hy1 : 2 * y < 2 ^ w) (hy2 : -(2 ^ w : Int) ≤ 2 * y) :
    -(2 ^ (2 * w) : Int) ≤ 2 * (x * y) ∧ 2 * (x * y) < 2 ^ (2 * w) := by
  have e : (2 : Int) ^ (2 * w) = 2 ^ w * 2 ^ w := by rw [two_mul, pow_add]
  have hp : (0 : Int) < 2 ^ w := by positivity
  have p1 := mul_nonneg (by omega : (0 : Int) ≤ 2 ^ w - 2 * x) (by omega : (0 : Int) ≤ 2 ^ w + 2 * y)
  have p2 := mul_nonneg (by omega : (0 : Int) ≤ 2 ^ w + 2 * x) (by omega : (0 : Int) ≤ 2 ^ w - 2 * y)
  have p3 := mul_nonneg (by omega : (0 : Int) ≤ 2 ^ w - 2 * x) (by omega : (0 : Int) ≤ 2 ^ w - 2 * y)
  have p4 := mul_nonneg (by omega : (0 : Int) ≤ 2 ^ w + 2 * x) (by omega : (0 : Int) ≤ 2 ^ w + 2 * y)
  rw [e]
  constructor <;> nlinarith

theorem le_pairedLength (w : Nat) : w ≤ pairedLength w := by
  unfold pairedLength
  split <;> omega

theorem pairedLength_eq (w : Nat) : pairedLength w = 2 * pairCount w := by
  unfold pairedLength pairCount evenBit
  rcases Nat.mod_two_eq_zero_or_one w with h | h <;> simp [h] <;> omega

end Sys2Proof.Machine
end

