-- ==== Sys2Proof/Laws/State.lean ====
section
/-! SUPPORT. One lemma per field for each shared update of the state, true by `rfl`. -/

namespace Sys2Proof.Machine

@[simp] theorem beginCommand_phase (op : BitVec 4) (s : State) : (beginCommand op s).phase = s.phase := rfl
@[simp] theorem beginCommand_opc (op : BitVec 4) (s : State) : (beginCommand op s).opc = op := rfl
@[simp] theorem beginCommand_cnt (op : BitVec 4) (s : State) : (beginCommand op s).cnt = s.cnt := rfl
@[simp] theorem beginCommand_wreg (op : BitVec 4) (s : State) : (beginCommand op s).wreg = s.wreg := rfl
@[simp] theorem beginCommand_nreg (op : BitVec 4) (s : State) : (beginCommand op s).nreg = s.nreg := rfl
@[simp] theorem beginCommand_md (op : BitVec 4) (s : State) : (beginCommand op s).md = s.md := rfl
@[simp] theorem beginCommand_mq (op : BitVec 4) (s : State) : (beginCommand op s).mq = s.mq := rfl
@[simp] theorem beginCommand_p (op : BitVec 4) (s : State) : (beginCommand op s).p = s.p := rfl
@[simp] theorem beginCommand_fa (op : BitVec 4) (s : State) : (beginCommand op s).fa = s.fa := rfl
@[simp] theorem beginCommand_fb (op : BitVec 4) (s : State) : (beginCommand op s).fb = s.fb := rfl
@[simp] theorem beginCommand_even (op : BitVec 4) (s : State) : (beginCommand op s).even = s.even := rfl
@[simp] theorem beginCommand_a (op : BitVec 4) (s : State) : (beginCommand op s).a = s.a := rfl
@[simp] theorem beginCommand_q (op : BitVec 4) (s : State) : (beginCommand op s).q = s.q := rfl
@[simp] theorem beginCommand_m (op : BitVec 4) (s : State) : (beginCommand op s).m = s.m := rfl
@[simp] theorem beginCommand_qp (op : BitVec 4) (s : State) : (beginCommand op s).qp = s.qp := rfl
@[simp] theorem beginCommand_sgn (op : BitVec 4) (s : State) : (beginCommand op s).sgn = s.sgn := rfl
@[simp] theorem beginCommand_trace (op : BitVec 4) (s : State) : (beginCommand op s).trace = [] := rfl
@[simp] theorem beginCommand_rsp (op : BitVec 4) (s : State) : (beginCommand op s).rsp = {} := rfl
@[simp] theorem beginCommand_rspState (op : BitVec 4) (s : State) : (beginCommand op s).rspState = .invalid := rfl
@[simp] theorem beginCommand_params (op : BitVec 4) (s : State) : (beginCommand op s).params = s.params := rfl
@[simp] theorem beginCommand_host (op : BitVec 4) (s : State) : (beginCommand op s).host = s.host := rfl

@[simp] theorem respond_phase (r : Response) (s : State) : (respond r s).phase = .resp := rfl
@[simp] theorem respond_opc (r : Response) (s : State) : (respond r s).opc = s.opc := rfl
@[simp] theorem respond_cnt (r : Response) (s : State) : (respond r s).cnt = s.cnt := rfl
@[simp] theorem respond_wreg (r : Response) (s : State) : (respond r s).wreg = s.wreg := rfl
@[simp] theorem respond_nreg (r : Response) (s : State) : (respond r s).nreg = s.nreg := rfl
@[simp] theorem respond_md (r : Response) (s : State) : (respond r s).md = s.md := rfl
@[simp] theorem respond_mq (r : Response) (s : State) : (respond r s).mq = s.mq := rfl
@[simp] theorem respond_p (r : Response) (s : State) : (respond r s).p = s.p := rfl
@[simp] theorem respond_fa (r : Response) (s : State) : (respond r s).fa = s.fa := rfl
@[simp] theorem respond_fb (r : Response) (s : State) : (respond r s).fb = s.fb := rfl
@[simp] theorem respond_even (r : Response) (s : State) : (respond r s).even = s.even := rfl
@[simp] theorem respond_a (r : Response) (s : State) : (respond r s).a = s.a := rfl
@[simp] theorem respond_q (r : Response) (s : State) : (respond r s).q = s.q := rfl
@[simp] theorem respond_m (r : Response) (s : State) : (respond r s).m = s.m := rfl
@[simp] theorem respond_qp (r : Response) (s : State) : (respond r s).qp = s.qp := rfl
@[simp] theorem respond_sgn (r : Response) (s : State) : (respond r s).sgn = s.sgn := rfl
@[simp] theorem respond_trace (r : Response) (s : State) : (respond r s).trace = s.trace := rfl
@[simp] theorem respond_rsp (r : Response) (s : State) : (respond r s).rsp = r := rfl
@[simp] theorem respond_rspState (r : Response) (s : State) : (respond r s).rspState = .valid := rfl
@[simp] theorem respond_params (r : Response) (s : State) : (respond r s).params = s.params := rfl
@[simp] theorem respond_host (r : Response) (s : State) : (respond r s).host = s.host := rfl

@[simp] theorem raiseError_phase (e : ErrInfo) (s : State) : (raiseError e s).phase = .resp := rfl
@[simp] theorem raiseError_opc (e : ErrInfo) (s : State) : (raiseError e s).opc = s.opc := rfl
@[simp] theorem raiseError_cnt (e : ErrInfo) (s : State) : (raiseError e s).cnt = s.cnt := rfl
@[simp] theorem raiseError_wreg (e : ErrInfo) (s : State) : (raiseError e s).wreg = s.wreg := rfl
@[simp] theorem raiseError_nreg (e : ErrInfo) (s : State) : (raiseError e s).nreg = s.nreg := rfl
@[simp] theorem raiseError_md (e : ErrInfo) (s : State) : (raiseError e s).md = s.md := rfl
@[simp] theorem raiseError_mq (e : ErrInfo) (s : State) : (raiseError e s).mq = s.mq := rfl
@[simp] theorem raiseError_p (e : ErrInfo) (s : State) : (raiseError e s).p = s.p := rfl
@[simp] theorem raiseError_fa (e : ErrInfo) (s : State) : (raiseError e s).fa = s.fa := rfl
@[simp] theorem raiseError_fb (e : ErrInfo) (s : State) : (raiseError e s).fb = s.fb := rfl
@[simp] theorem raiseError_even (e : ErrInfo) (s : State) : (raiseError e s).even = s.even := rfl
@[simp] theorem raiseError_a (e : ErrInfo) (s : State) : (raiseError e s).a = s.a := rfl
@[simp] theorem raiseError_q (e : ErrInfo) (s : State) : (raiseError e s).q = s.q := rfl
@[simp] theorem raiseError_m (e : ErrInfo) (s : State) : (raiseError e s).m = s.m := rfl
@[simp] theorem raiseError_qp (e : ErrInfo) (s : State) : (raiseError e s).qp = s.qp := rfl
@[simp] theorem raiseError_sgn (e : ErrInfo) (s : State) : (raiseError e s).sgn = s.sgn := rfl
@[simp] theorem raiseError_trace (e : ErrInfo) (s : State) : (raiseError e s).trace = s.trace := rfl
@[simp] theorem raiseError_rsp (e : ErrInfo) (s : State) : (raiseError e s).rsp = { status := .err e } := rfl
@[simp] theorem raiseError_rspState (e : ErrInfo) (s : State) : (raiseError e s).rspState = .valid := rfl
@[simp] theorem raiseError_params (e : ErrInfo) (s : State) : (raiseError e s).params = s.params := rfl
@[simp] theorem raiseError_host (e : ErrInfo) (s : State) : (raiseError e s).host = s.host := rfl

@[simp] theorem emit_phase (r : Row) (s : State) : (emit r s).phase = s.phase := rfl
@[simp] theorem emit_opc (r : Row) (s : State) : (emit r s).opc = s.opc := rfl
@[simp] theorem emit_cnt (r : Row) (s : State) : (emit r s).cnt = s.cnt := rfl
@[simp] theorem emit_wreg (r : Row) (s : State) : (emit r s).wreg = s.wreg := rfl
@[simp] theorem emit_nreg (r : Row) (s : State) : (emit r s).nreg = s.nreg := rfl
@[simp] theorem emit_md (r : Row) (s : State) : (emit r s).md = s.md := rfl
@[simp] theorem emit_mq (r : Row) (s : State) : (emit r s).mq = s.mq := rfl
@[simp] theorem emit_p (r : Row) (s : State) : (emit r s).p = s.p := rfl
@[simp] theorem emit_fa (r : Row) (s : State) : (emit r s).fa = s.fa := rfl
@[simp] theorem emit_fb (r : Row) (s : State) : (emit r s).fb = s.fb := rfl
@[simp] theorem emit_even (r : Row) (s : State) : (emit r s).even = s.even := rfl
@[simp] theorem emit_a (r : Row) (s : State) : (emit r s).a = s.a := rfl
@[simp] theorem emit_q (r : Row) (s : State) : (emit r s).q = s.q := rfl
@[simp] theorem emit_m (r : Row) (s : State) : (emit r s).m = s.m := rfl
@[simp] theorem emit_qp (r : Row) (s : State) : (emit r s).qp = s.qp := rfl
@[simp] theorem emit_sgn (r : Row) (s : State) : (emit r s).sgn = s.sgn := rfl
@[simp] theorem emit_trace (r : Row) (s : State) : (emit r s).trace = s.trace ++ [r] := rfl
@[simp] theorem emit_rsp (r : Row) (s : State) : (emit r s).rsp = s.rsp := rfl
@[simp] theorem emit_rspState (r : Row) (s : State) : (emit r s).rspState = s.rspState := rfl
@[simp] theorem emit_params (r : Row) (s : State) : (emit r s).params = s.params := rfl
@[simp] theorem emit_host (r : Row) (s : State) : (emit r s).host = s.host := rfl

@[simp] theorem emitCycle_phase (x : Action) (s : State) : (emitCycle x s).phase = s.phase := rfl
@[simp] theorem emitCycle_opc (x : Action) (s : State) : (emitCycle x s).opc = s.opc := rfl
@[simp] theorem emitCycle_cnt (x : Action) (s : State) : (emitCycle x s).cnt = s.cnt := rfl
@[simp] theorem emitCycle_wreg (x : Action) (s : State) : (emitCycle x s).wreg = s.wreg := rfl
@[simp] theorem emitCycle_nreg (x : Action) (s : State) : (emitCycle x s).nreg = s.nreg := rfl
@[simp] theorem emitCycle_md (x : Action) (s : State) : (emitCycle x s).md = s.md := rfl
@[simp] theorem emitCycle_mq (x : Action) (s : State) : (emitCycle x s).mq = s.mq := rfl
@[simp] theorem emitCycle_p (x : Action) (s : State) : (emitCycle x s).p = s.p := rfl
@[simp] theorem emitCycle_fa (x : Action) (s : State) : (emitCycle x s).fa = s.fa := rfl
@[simp] theorem emitCycle_fb (x : Action) (s : State) : (emitCycle x s).fb = s.fb := rfl
@[simp] theorem emitCycle_even (x : Action) (s : State) : (emitCycle x s).even = s.even := rfl
@[simp] theorem emitCycle_a (x : Action) (s : State) : (emitCycle x s).a = s.a := rfl
@[simp] theorem emitCycle_q (x : Action) (s : State) : (emitCycle x s).q = s.q := rfl
@[simp] theorem emitCycle_m (x : Action) (s : State) : (emitCycle x s).m = s.m := rfl
@[simp] theorem emitCycle_qp (x : Action) (s : State) : (emitCycle x s).qp = s.qp := rfl
@[simp] theorem emitCycle_sgn (x : Action) (s : State) : (emitCycle x s).sgn = s.sgn := rfl
@[simp] theorem emitCycle_trace (x : Action) (s : State) : (emitCycle x s).trace = s.trace ++ [.div (divRow .cycle s.cnt x s)] := rfl
@[simp] theorem emitCycle_rsp (x : Action) (s : State) : (emitCycle x s).rsp = s.rsp := rfl
@[simp] theorem emitCycle_rspState (x : Action) (s : State) : (emitCycle x s).rspState = s.rspState := rfl
@[simp] theorem emitCycle_params (x : Action) (s : State) : (emitCycle x s).params = s.params := rfl
@[simp] theorem emitCycle_host (x : Action) (s : State) : (emitCycle x s).host = s.host := rfl

end Sys2Proof.Machine
end

