-- ==== Sys2Proof/Laws/Operations.lean ====
section
/-! SUPPORT. What each shared operation can do: the first failing check, `accept`, `exec`, `work`, `step`, and
when an instruction's validation passes. -/

namespace Sys2Proof

theorem VecDesc.bit_vec (d : VecDesc) (j : Nat) : d.vec.bit j = (decide (j < d.len) && d.bits.bit j) := by
  simp [VecDesc.vec, Vec.bit, BitVec.getLsbD_setWidth]

@[simp] theorem VecDesc.vec_len (d : VecDesc) : d.vec.len = d.len := rfl

/-- A vector written back into a descriptor of its length is the vector. -/
@[simp] theorem VecDesc.vec_ofVec (v : Vec) (bad : Bool) (frac : Nat) :
    VecDesc.vec { bad := bad, len := v.len, frac := frac, bits := v } = v :=
  Vec.ext_bit rfl fun i hi => by
    rw [VecDesc.bit_vec]; simp [show i < v.len from hi]

namespace Machine

@[simp] theorem firstError_nil : firstError [] = none := rfl

@[simp] theorem firstError_cons (b : Bool) (e : ErrInfo) (rest : List (Bool × ErrInfo)) :
    firstError ((b, e) :: rest) = if b then some e else firstError rest := rfl

theorem accept_idle_none {op : BitVec 4} {load : State → State} {s : State} (h : s.phase = .idle) :
    accept op none load s = .next (load (beginCommand op s)) := by
  simp [accept, h]

theorem accept_idle_some {op : BitVec 4} {e : ErrInfo} {load : State → State} {s : State}
    (h : s.phase = .idle) : accept op (some e) load s = .next (State.errored op e s) := by
  simp only [accept, h, if_true]; rfl

theorem accept_busy {op : BitVec 4} {err : Option ErrInfo} {load : State → State} {s : State}
    (h : s.phase ≠ .idle) : accept op err load s = .next s := by
  simp [accept, h]

/-- What an instruction's `accept` step does once its validation has passed. -/
def loadOf (i : Instr) : State → State :=
  match i with
  | .padt _ x v n => respond { vec := padOrTruncate x n.val v.vec }
  | .neg v n => respond { vec := twosComplement n.val v.vec }
  | .adds a b => respond { vec := addBitStrings a.vec b.vec, flag := growFlag a.vec b.vec }
  | .shl0 v => respond { vec := shiftLeftInsertZero v.vec }
  | .dec v => respond { vec := v.vec, frac := v.frac, val := decodeDecimal v.vec v.frac }
  | .mulb2 a b n => loadMulb2 a b n
  | .mulb4 a b n => loadMulb4 a b n
  | .divr x y => loadDiv x y
  | .divnr x y => loadDiv x y

/-- Every instruction is `accept` with its own opcode, validation and load. -/
theorem exec_eq_accept (i : Instr) (s : State) :
    exec i s = accept i.opcode (errorOf s.params i) (loadOf i) s := by
  cases i <;> rfl

theorem exec_busy {i : Instr} {s : State} (h : s.phase ≠ .idle) : exec i s = .next s := by
  rw [exec_eq_accept, accept_busy h]

theorem exec_idle_ok {i : Instr} {s : State} (h : s.phase = .idle) (hv : errorOf s.params i = none) :
    exec i s = .next (loadOf i (beginCommand i.opcode s)) := by
  rw [exec_eq_accept, hv, accept_idle_none h]

/-- An instruction always answers a next state: as it was where the block is busy, else its error or its load. -/
theorem exec_cases {i : Instr} {s t : State} (h : exec i s = .next t) :
    (s.phase ≠ .idle ∧ t = s) ∨
    (s.phase = .idle ∧ ∃ e, errorOf s.params i = some e ∧ t = State.errored i.opcode e s) ∨
    (s.phase = .idle ∧ errorOf s.params i = none ∧ t = loadOf i (beginCommand i.opcode s)) := by
  by_cases hp : s.phase = .idle
  · cases he : errorOf s.params i with
    | some e => rw [exec_eq_accept, he, accept_idle_some hp] at h; cases h; exact .inr (.inl ⟨hp, e, rfl, rfl⟩)
    | none => rw [exec_idle_ok hp he] at h; cases h; exact .inr (.inr ⟨hp, rfl, rfl⟩)
  · rw [exec_busy hp] at h; cases h; exact .inl ⟨hp, rfl⟩

/-- The validation of a primitive's vector slot passes exactly on a well-formed vector. -/
theorem badVector_eq_not_wfVector (p : Params) (d : VecDesc) : badVector p d = !d.wfVector p := by
  simp only [badVector, overlong, VecDesc.wfVector]
  cases d.bad <;> cases Params.within p.wmax d.len <;> rcases Nat.eq_zero_or_pos d.len with h | h <;>
    simp [h, Nat.one_le_iff_ne_zero, Nat.pos_iff_ne_zero.mp]

theorem badTarget_eq_not_wfTarget (p : Params) (n : LenDesc) : badTarget p n = !n.wfTarget p := by
  simp only [badTarget, LenDesc.wfTarget]
  cases n.bad <;> cases Params.within p.rmax n.val <;> rcases Nat.eq_zero_or_pos n.val with h | h <;>
    simp [h, Nat.one_le_iff_ne_zero, Nat.pos_iff_ne_zero.mp]

/-- When R103 makes a primitive's vector slot illegal. -/
theorem badVector_iff (p : Params) (v : VecDesc) :
    badVector p v = true ↔ v.bad = true ∨ v.len = 0 ∨ (v.bad = false ∧ ∃ w ∈ p.wmax, w < v.len) := by
  unfold badVector overlong
  cases p.wmax <;> cases v.bad <;> simp [Params.within]

/-- When R103 makes a length slot of `PADT` or `NEG` illegal. -/
theorem badTarget_iff (p : Params) (n : LenDesc) :
    badTarget p n = true ↔ n.bad = true ∨ n.val = 0 ∨ ∃ w ∈ p.wmax, 2 * w + 1 < n.val := by
  unfold badTarget Params.rmax
  cases p.wmax <;> cases n.bad <;> simp [Params.within]

theorem overlong_eq_not_carried (p : Params) (d : VecDesc) : overlong p d = !d.carried p := by
  simp only [overlong, VecDesc.carried]
  cases d.bad <;> cases Params.within p.wmax d.len <;> rfl

theorem Params.within_mono {b : Option Nat} {x y : Nat} (h : x ≤ y) (hy : Params.within b y = true) :
    Params.within b x = true := by
  cases b with
  | none => rfl
  | some b => simp only [Params.within, decide_eq_true_eq] at *; omega

theorem zeroVector_iff (d : VecDesc) : zeroVector d = true ↔ ∀ j < d.len, d.bits.bit j = false := by
  simp only [zeroVector, beq_iff_eq]
  constructor
  · intro h j hj
    have := VecDesc.bit_vec d j
    rw [Vec.bit_eq_testBit, h] at this
    simpa [hj] using this.symm
  · intro h
    refine Nat.eq_of_testBit_eq fun j => ?_
    rw [← Vec.bit_eq_testBit, VecDesc.bit_vec]
    by_cases hj : j < d.len <;> simp [hj, h]

/-- The multipliers' validation passes exactly on a valid request. -/
theorem checkMul_eq_none_iff (p : Params) (a b : VecDesc) (n : LenDesc) :
    checkMul p a b n = none ↔ ValidMul p a b n := by
  constructor
  · intro h
    simp only [checkMul, firstError_cons, firstError_nil] at h
    split_ifs at h with h0 h1 h2 h3 h4 h5 h6 h7 h8
    simp only [overlong, badLiteral, zeroVector, badWordLength, Bool.or_eq_true, Bool.and_eq_true,
      decide_eq_true_eq, not_or, not_and, beq_iff_eq, Bool.not_eq_true, Bool.not_eq_true',
      not_le, not_lt] at *
    exact ⟨⟨by simp_all, by omega, by omega⟩, ⟨by simp_all, by omega, by omega⟩, h4, h5,
      ⟨by simp_all, by omega, by simp_all⟩, by omega, by omega⟩
  · rintro ⟨⟨a1, a2, a3⟩, ⟨b1, b2, b3⟩, az, bz, ⟨n1, n2, n3⟩, af, bf⟩
    have ha := Params.within_mono af n3
    have hb := Params.within_mono bf n3
    simp only [checkMul, firstError_cons, firstError_nil, overlong, badLiteral, zeroVector, badWordLength, ha, hb,
      a1, b1, n1, n3]
    have : ¬ n.val = 0 := by omega
    have : ¬ a.len = 0 := by omega
    have : ¬ b.len = 0 := by omega
    have : ¬ a.len ≤ a.frac := by omega
    have : ¬ b.len ≤ b.frac := by omega
    have : ¬ n.val < a.len := by omega
    have : ¬ n.val < b.len := by omega
    simp [*]

theorem fitsInteger_of_nonneg {p : Params} {x : IntDesc} (h : 0 ≤ x.val) :
    fitsInteger p x = true ↔ ∀ b, p.nmax = some b → x.val < 2 ^ b := by
  unfold fitsInteger
  cases p.nmax with
  | none => simp
  | some b =>
    have : (0 : Int) < 2 ^ b := by positivity
    simp only [Bool.and_eq_true, decide_eq_true_eq, Option.some.injEq, forall_eq']
    constructor
    · exact fun h => h.2
    · exact fun h => ⟨by omega, h⟩

/-- The dividers' validation passes exactly on a valid request. -/
theorem checkDiv_eq_none_iff (p : Params) (x y : IntDesc) : checkDiv p x y = none ↔ ValidDiv p x y := by
  constructor
  · intro h
    simp only [checkDiv, firstError_cons, firstError_nil] at h
    split_ifs at h with h0 h1 h2 h3 h4
    simp only [badInteger, Bool.or_eq_true, not_or, Bool.not_eq_true, Bool.not_eq_true',
      Bool.not_eq_false, decide_eq_true_eq, beq_iff_eq, not_lt] at *
    exact ⟨⟨h0.1, h3⟩, ⟨h1.1, by omega⟩, (fitsInteger_of_nonneg h3).1 h0.2, (fitsInteger_of_nonneg h4).1 h1.2⟩
  · rintro ⟨⟨x1, x2⟩, ⟨y1, y2⟩, xf, yf⟩
    have hx := (fitsInteger_of_nonneg (p := p) x2).2 xf
    have hy := (fitsInteger_of_nonneg (p := p) (x := y) (by omega)).2 yf
    have : ¬ y.val = 0 := by omega
    have : ¬ x.val < 0 := by omega
    have : ¬ y.val < 0 := by omega
    simp [checkDiv, badInteger, *]

/-- One step, by the host's action. -/
theorem step_cons {s : State} {h : HostAction} {rest : List HostAction} (hs : s.host = h :: rest) :
    step s = act h { s with host := rest } := by
  simp [step, hs]

theorem step_nil {s : State} (hs : s.host = []) : step s = work s := by
  simp [step, hs, act]

/-- Every step is one of the four kinds of R32, at the state whose host list has lost its head. -/
theorem step_cases {s t : State} (h : step s = .next t) :
    ∃ (a : HostAction) (rest : List HostAction), act a { s with host := rest } = .next t := by
  cases hs : s.host with
  | nil => exact ⟨.nothing, [], by rw [step_nil hs] at h; rw [← hs]; exact h⟩
  | cons a rest => exact ⟨a, rest, by rw [step_cons hs] at h; exact h⟩

/-- A run is a step and then the rest of the run. -/
theorem run_succ {k : Nat} {s t : State} (h : step s = .next t) :
    Host.Core.run Sys2Proof.core (k + 1) s = Host.Core.run Sys2Proof.core k t := by
  simp only [Host.Core.run]
  rw [show Sys2Proof.core.step s = step s from rfl, h]

theorem run_zero (s : State) : Host.Core.run Sys2Proof.core 0 s = .next s := rfl

/-- A run of `j + k` steps is a run of `k` steps from where the run of `j` ended. -/
theorem run_add {j k : Nat} {s t : State} (h : Host.Core.run Sys2Proof.core j s = .next t) :
    Host.Core.run Sys2Proof.core (j + k) s = Host.Core.run Sys2Proof.core k t := by
  induction j generalizing s with
  | zero => cases h; rw [Nat.zero_add]
  | succ j ih =>
    rw [show j + 1 + k = (j + k) + 1 by omega]
    cases hs : step s with
    | next u => rw [run_succ hs] at h ⊢; exact ih h
    | fault r =>
      simp only [Host.Core.run] at h
      rw [show Sys2Proof.core.step s = step s from rfl, hs] at h
      cases h
    | refused r =>
      simp only [Host.Core.run] at h
      rw [show Sys2Proof.core.step s = step s from rfl, hs] at h
      cases h

/-- Every `work` step, by phase and opcode. -/
theorem work_cases {s t : State} (h : work s = .next t) :
    (s.phase = .idle ∧ t = s) ∨ (s.phase = .resp ∧ t = s) ∨
    (s.phase = .mstep ∧ s.opc = 0x8#4 ∧ t = mstepMulb2 s) ∨
    (s.phase = .mstep ∧ s.opc = 0x9#4 ∧ t = mstepMulb4 s) ∨
    (s.phase = .dshift ∧ s.dividing = true ∧ t = dshift s) ∨
    (s.phase = .darith ∧ s.dividing = true ∧ t = darith s) ∨
    (s.phase = .dset ∧ s.dividing = true ∧ t = dset s) ∨
    (s.phase = .dcorr ∧ s.opc = 0xD#4 ∧ t = dcorr s) ∨
    (s.phase = .dfinal ∧ s.dividing = true ∧ t = dfinal s) := by
  unfold work divStep at h
  cases hp : s.phase <;> simp only [hp] at h
  case idle => cases h; simp
  case resp => cases h; simp
  case mstep =>
    split_ifs at h with h1 h2 <;> cases h
    · simp [h1]
    · simp [h2]
  all_goals
    split_ifs at h with h1
    cases h
    simp [h1]

end Machine
end Sys2Proof
end

