-- ==== Sys2Proof/Laws/PerInstr.lean ====
section
/-! SUPPORT. The family OpcodeBits, a statement made per instruction: its command byte as the port carries it
(30_encoding.md R91, R92). -/

namespace Sys2Proof

/-- The low four bits of an instruction's command byte are its opcode, the reserved bits are 00, and `AT` and `SX`
are 0 except on `PADT`. -/
def Laws.OpcodeBits.Statement (i : Instr) : Prop :=
  (encode i).op = i.opcode ∧ (encode i).reserved = 0#2 ∧
    (i.opcode ≠ 0x1#4 → (encode i).allowTrunc = false ∧ (encode i).signExt = false)

theorem Laws.OpcodeBits.padt (t x : Bool) (v : VecDesc) (n : LenDesc) :
    Laws.OpcodeBits.Statement (.padt t x v n) := by
  cases t <;> cases x <;>
    simp [Laws.OpcodeBits.Statement, encode, commandByte, Command.op, Command.reserved, Instr.opcode]

theorem Laws.OpcodeBits.neg (v : VecDesc) (n : LenDesc) : Laws.OpcodeBits.Statement (.neg v n) := by
  simp [Laws.OpcodeBits.Statement, encode, commandByte, Command.op, Command.reserved, Command.allowTrunc,
    Command.signExt, Instr.opcode]

theorem Laws.OpcodeBits.adds (a b : VecDesc) : Laws.OpcodeBits.Statement (.adds a b) := by
  simp [Laws.OpcodeBits.Statement, encode, commandByte, Command.op, Command.reserved, Command.allowTrunc,
    Command.signExt, Instr.opcode]

theorem Laws.OpcodeBits.shl0 (v : VecDesc) : Laws.OpcodeBits.Statement (.shl0 v) := by
  simp [Laws.OpcodeBits.Statement, encode, commandByte, Command.op, Command.reserved, Command.allowTrunc,
    Command.signExt, Instr.opcode]

theorem Laws.OpcodeBits.dec (v : VecDesc) : Laws.OpcodeBits.Statement (.dec v) := by
  simp [Laws.OpcodeBits.Statement, encode, commandByte, Command.op, Command.reserved, Command.allowTrunc,
    Command.signExt, Instr.opcode]

theorem Laws.OpcodeBits.mulb2 (a b : VecDesc) (n : LenDesc) : Laws.OpcodeBits.Statement (.mulb2 a b n) := by
  simp [Laws.OpcodeBits.Statement, encode, commandByte, Command.op, Command.reserved, Command.allowTrunc,
    Command.signExt, Instr.opcode]

theorem Laws.OpcodeBits.mulb4 (a b : VecDesc) (n : LenDesc) : Laws.OpcodeBits.Statement (.mulb4 a b n) := by
  simp [Laws.OpcodeBits.Statement, encode, commandByte, Command.op, Command.reserved, Command.allowTrunc,
    Command.signExt, Instr.opcode]

theorem Laws.OpcodeBits.divr (x y : IntDesc) : Laws.OpcodeBits.Statement (.divr x y) := by
  simp [Laws.OpcodeBits.Statement, encode, commandByte, Command.op, Command.reserved, Command.allowTrunc,
    Command.signExt, Instr.opcode]

theorem Laws.OpcodeBits.divnr (x y : IntDesc) : Laws.OpcodeBits.Statement (.divnr x y) := by
  simp [Laws.OpcodeBits.Statement, encode, commandByte, Command.op, Command.reserved, Command.allowTrunc,
    Command.signExt, Instr.opcode]

end Sys2Proof
end

