-- ==== Sys2Proof/Laws/Primitives.lean ====
section
/-! SUPPORT. One lemma per function of `Machine/Bitvector.lean`: the value it computes. -/

namespace Sys2Proof.Machine

/-- AA's twosComplement is the negated signed value modulo `2^n`. -/
theorem twosComplement_eq (n : Nat) (v : Vec) : twosComplement n v = bv n (-v.sint) := by
  rw [twosComplement, bv_eq_iff, Vec.uint_invert]
  simp only [Vec.sext_len]
  rw [show (v.sext n).uint = (bv n v.sint).uint from rfl, uint_bv,
    show (2 : Int) ^ n - 1 - v.sint % 2 ^ n + 1 = -(v.sint % 2 ^ n) + 2 ^ n by ring, Int.add_emod_right]
  exact (Int.mod_modEq v.sint (2 ^ n)).neg

theorem addBitStrings_len (a b : Vec) :
    (addBitStrings a b).len = max a.len b.len + (growFlag a b).toNat := by
  unfold addBitStrings
  cases growFlag a b <;> rfl

/-- AA's addBitStrings loses no carry. -/
theorem addBitStrings_uint (a b : Vec) : (addBitStrings a b).uint = a.uint + b.uint := by
  have h1 := a.uint_lt
  have h2 := b.uint_lt
  have h3 : 2 ^ a.len ≤ 2 ^ max a.len b.len := Nat.pow_le_pow_right (by norm_num) (by omega)
  have h4 : 2 ^ b.len ≤ 2 ^ max a.len b.len := Nat.pow_le_pow_right (by norm_num) (by omega)
  unfold addBitStrings
  cases hg : growFlag a b
  · have h5 : a.uint + b.uint < 2 ^ max a.len b.len := by simpa [growFlag] using hg
    have := uint_bv_of_lt (n := max a.len b.len) (x := a.uint + b.uint) (by omega) (by exact_mod_cast h5)
    exact_mod_cast this
  · have := uint_bv_of_lt (n := max a.len b.len + 1) (x := a.uint + b.uint) (by omega)
      (by rw [pow_succ]; norm_cast; omega)
    exact_mod_cast this

@[simp] theorem decodeDecimal_frac (v : Vec) (f : Nat) : (decodeDecimal v f).frac = f := rfl

/-- The magnitude is exact, also of the most negative value. -/
theorem decodeDecimal_mag (v : Vec) (f : Nat) : (decodeDecimal v f).mag = v.sint.natAbs := by
  have h1 := v.le_two_mul_sint
  have h3 := v.msb_iff_sint_neg
  have h4 := v.sint_eq
  have hp : (0 : Int) < 2 ^ v.len := by positivity
  simp only [decodeDecimal, decimalMagnitude]
  by_cases hc : v.msb = true
  · have := h3.1 hc
    have h5 := uint_bv_of_lt (n := v.len) (x := -v.sint) (by omega) (by omega)
    rw [if_pos hc]; omega
  · rw [if_neg hc] at h4 ⊢; omega

theorem decodeDecimal_neg (v : Vec) (f : Nat) : (decodeDecimal v f).neg = v.msb := by
  have : (decodeDecimal v f).neg = (v.msb && decide ((decodeDecimal v f).mag ≠ 0)) := rfl
  rw [this, decodeDecimal_mag]
  cases hc : v.msb
  · rfl
  · have := v.msb_iff_sint_neg.1 hc
    simp; omega

/-- The decimal interpreter's triple denotes the value of the vector. -/
theorem decodeDecimal_value (v : Vec) (f : Nat) : (decodeDecimal v f).value = v.value f := by
  rw [Decoded.value, decodeDecimal_mag, decodeDecimal_neg, decodeDecimal_frac, Vec.value]
  congr 1
  have : (v.sint : Rat) = ((if v.msb then (-1 : Int) else 1) * (v.sint.natAbs : Int) : Int) := by
    congr 1
    have := v.msb_iff_sint_neg
    split_ifs with hc
    · have := this.1 hc; omega
    · have : ¬ v.sint < 0 := fun h => hc (this.2 h)
      omega
  rw [this]
  push_cast
  split_ifs <;> simp

end Sys2Proof.Machine
end

