-- ==== Sys2Proof/Tests/Slice0.lean ====
section
/-! SUPPORT. The model's own tests: ill-formed terms, command bytes written out from the encoding table, single
steps with expected values from 95_test_vectors.md, and for each obligation with hypotheses a state and
operands that meet them. -/

namespace Sys2Proof.Tests

open Machine

/-- A descriptor of a vector of `len` bits with value `x`. -/
def vec (len x : Nat) (frac : Nat := 0) : VecDesc := { len := len, frac := frac, bits := ⟨len, BitVec.ofNat len x⟩ }

/-- A vector of `len` bits with value `x`. -/
def bits (len x : Nat) : Vec := ⟨len, BitVec.ofNat len x⟩

/-- A command with the given byte and an operand in every slot. -/
def cmd (byte : BitVec 8) : Command :=
  { cmd := byte, opA := vec 4 7, opB := vec 4 3, opN := { val := 4 }, opX := { val := 11 }, opY := { val := 3 } }

/-- The state after reset with the host's actions standing. -/
def host (hs : List HostAction) : State := { State.reset with host := hs }

/-- Small parameters, so that each bound can be passed. -/
def four : Params := ⟨some 4, some 4⟩

/-- The state after reset of a block with small parameters. -/
def small : State := { State.reset with params := four }

/-- The response of an outcome. -/
def rspOf (r : Result) : Option Response :=
  match r with
  | .next t => some t.rsp
  | .fault _ => none
  | .refused _ => none

/-- The trace of an outcome. -/
def traceOf (r : Result) : Option (List Row) :=
  match r with
  | .next t => some t.trace
  | .fault _ => none
  | .refused _ => none

/-- The state of an outcome, and reset where there is none. -/
def stateOf (r : Result) : State :=
  match r with
  | .next t => t
  | .fault _ => State.reset
  | .refused _ => State.reset

/-- The outcome is a next state. -/
def isNext (r : Result) : Bool :=
  match r with
  | .next _ => true
  | .fault _ => false
  | .refused _ => false

theorem next_stateOf {r : Result} (h : isNext r = true) : r = .next (stateOf r) := by
  cases r with
  | next t => rfl
  | fault e => exact absurd h (by simp [isNext])
  | refused e => exact absurd h (by simp [isNext])

/-! ### Ill-formed terms, one for each check of R103 -/

theorem test_wf_bad_vector : (Instr.neg { vec 2 1 with bad := true } { val := 4 }).wellFormed four = false := by
  decide
theorem test_wf_empty_vector : (Instr.shl0 {}).wellFormed four = false := by decide
theorem test_wf_overlong_vector : (Instr.shl0 (vec 5 1)).wellFormed four = false := by decide
theorem test_wf_longest_vector : (Instr.shl0 (vec 4 1)).wellFormed four = true := by decide
theorem test_wf_second_vector : (Instr.adds (vec 2 1) { bad := true }).wellFormed four = false := by decide
theorem test_wf_bad_target : (Instr.neg (vec 2 1) { bad := true, val := 4 }).wellFormed four = false := by decide
theorem test_wf_zero_target : (Instr.padt false false (vec 2 1) { val := 0 }).wellFormed four = false := by decide
theorem test_wf_long_target : (Instr.neg (vec 2 1) { val := 10 }).wellFormed four = false := by decide
theorem test_wf_longest_target : (Instr.neg (vec 2 1) { val := 9 }).wellFormed four = true := by decide
theorem test_wf_dec_frac : (Instr.dec (vec 2 1 3)).wellFormed four = false := by decide
theorem test_wf_dec_all_frac : (Instr.dec (vec 2 3 2)).wellFormed four = true := by decide
theorem test_wf_mul_overlong : (Instr.mulb2 (vec 5 1) (vec 2 1) { val := 4 }).wellFormed four = false := by decide
theorem test_wf_mul_second_overlong : (Instr.mulb4 (vec 2 1) (vec 5 1) { val := 4 }).wellFormed four = false := by
  decide
theorem test_wf_literal_frac : (vec 2 1 2).wfLiteral four = false ∧ (vec 2 1 1).wfLiteral four = true := by decide

/-! ### Command bytes from the table of R91 and R92: bits 7:6 reserved, `SX`, `AT`, `OP` -/

theorem test_decode_padt :
    decode (cmd 0b00_0_0_0001#8) = .ok (.padt false false (vec 4 7) { val := 4 }) := by decide
theorem test_decode_padt_t :
    decode (cmd 0b00_0_1_0001#8) = .ok (.padt true false (vec 4 7) { val := 4 }) := by decide
theorem test_decode_padt_s :
    decode (cmd 0b00_1_0_0001#8) = .ok (.padt false true (vec 4 7) { val := 4 }) := by decide
theorem test_decode_padt_ts :
    decode (cmd 0b00_1_1_0001#8) = .ok (.padt true true (vec 4 7) { val := 4 }) := by decide
theorem test_decode_neg : decode (cmd 0b00_0_0_0010#8) = .ok (.neg (vec 4 7) { val := 4 }) := by decide
theorem test_decode_adds : decode (cmd 0b00_0_0_0011#8) = .ok (.adds (vec 4 7) (vec 4 3)) := by decide
theorem test_decode_shl0 : decode (cmd 0b00_0_0_0100#8) = .ok (.shl0 (vec 4 7)) := by decide
theorem test_decode_dec : decode (cmd 0b00_0_0_0101#8) = .ok (.dec (vec 4 7)) := by decide
theorem test_decode_mulb2 :
    decode (cmd 0b00_0_0_1000#8) = .ok (.mulb2 (vec 4 7) (vec 4 3) { val := 4 }) := by decide
theorem test_decode_mulb4 :
    decode (cmd 0b00_0_0_1001#8) = .ok (.mulb4 (vec 4 7) (vec 4 3) { val := 4 }) := by decide
theorem test_decode_divr : decode (cmd 0b00_0_0_1100#8) = .ok (.divr { val := 11 } { val := 3 }) := by decide
theorem test_decode_divnr : decode (cmd 0b00_0_0_1101#8) = .ok (.divnr { val := 11 } { val := 3 }) := by decide
theorem test_decode_reserved_bits : decode (cmd 0x41#8) = .error .reservedBits := by decide
theorem test_decode_reserved_opcode : decode (cmd 0x0E#8) = .error .reservedOpcode := by decide
theorem test_decode_at_on_neg : decode (cmd 0x12#8) = .error .flagsOnNonPadt := by decide
theorem test_decode_sx_on_mulb2 : decode (cmd 0x28#8) = .error .flagsOnNonPadt := by decide
theorem test_table_word : decodeTableWord 8 0x31 = some (.padt true true {} {}) := by decide
theorem test_table_word_divnr : decodeTableWord 8 0x0D = some (.divnr {} {}) := by decide
theorem test_encode_padt_ts : (encode (.padt true true (vec 4 7) { val := 2 })).cmd = 0x31#8 := by decide

/-! ### Primitives, from section 2.1 of 95_test_vectors.md -/

theorem test_padt_sign_extends :
    rspOf (exec (.padt false true (vec 4 0b1011) { val := 8 }) State.reset) =
      some { vec := bits 8 0b11111011 } := by decide
theorem test_padt_truncates :
    rspOf (exec (.padt true false (vec 8 0b11111011) { val := 4 }) State.reset) =
      some { vec := bits 4 0b1011 } := by decide
theorem test_neg_most_negative :
    rspOf (exec (.neg (vec 5 0b10000) { val := 6 }) State.reset) = some { vec := bits 6 0b010000 } := by decide
theorem test_neg_extends_first :
    rspOf (exec (.neg (vec 2 0b01) { val := 4 }) State.reset) = some { vec := bits 4 0b1111 } := by decide
theorem test_adds_carries :
    rspOf (exec (.adds (vec 4 0b0101) (vec 4 0b1101)) State.reset) =
      some { vec := bits 5 0b10010, flag := true } := by decide
theorem test_adds_lengths :
    rspOf (exec (.adds (vec 2 0b11) (vec 4 0b0110)) State.reset) = some { vec := bits 4 0b1001 } := by decide
theorem test_shl0 :
    rspOf (exec (.shl0 (vec 5 0b00011)) State.reset) = some { vec := bits 6 0b000110 } := by decide
theorem test_dec_negative_half :
    rspOf (exec (.dec (vec 2 0b11 1)) State.reset) =
      some { vec := bits 2 0b11, frac := 1, val := ⟨true, 1, 1⟩ } := by decide
theorem test_dec_most_negative :
    rspOf (exec (.dec (vec 4 0b1000)) State.reset) = some { vec := bits 4 0b1000, val := ⟨true, 8, 0⟩ } := by decide

/-! ### One step of each multiplier and divider, from sections 1.2, 2.3, 3.1 to 3.3 -/

/-- A multiplication of word length `w` before its step `cnt`, with as many rows in the trace. -/
def mulState (op : BitVec 4) (w cnt : Nat) (md mq p : Vec) : State :=
  { State.reset with
    phase := .mstep, opc := op, cnt := cnt, wreg := w, md := md, mq := mq, p := p
    even := op == 0x9#4 && evenBit w
    trace := List.replicate cnt
      (.mul { idx := 0, op := .zero, exam := 0#3, shift := 0, ppValid := false, pp := Vec.empty }) }

/-- The division `x / y` of width `n` in the given phase of cycle `cnt`, with its `INIT` row. -/
def divState (op : BitVec 4) (n x y : Nat) (phase : Phase) (cnt a q : Nat) (sgn : Bool := false) : State :=
  { State.reset with
    phase := phase, opc := op, cnt := cnt, nreg := n, a := bits (n + 1) a, q := bits n q, m := bits (n + 1) y
    qp := phase == .darith || phase == .dset, sgn := sgn
    trace := [.div { lab := .init, cyc := 0, act := .init, a := bits (n + 1) 0, q := bits n x, qmark := false
                     m := bits (n + 1) y }] }

/-- The last trace row of an outcome. -/
def lastRow (r : Result) : Option Row := (traceOf r).bind List.getLast?

/-- The division row of cycle `cyc` of 11 by 3. -/
def row (cyc : Nat) (act : Action) (a q : Nat) (qmark : Bool) : Row :=
  .div { lab := .cycle, cyc := cyc, act := act, a := bits 5 a, q := bits 4 q, qmark := qmark, m := bits 5 3 }

theorem test_mulb2_accept :
    let t := stateOf (exec (.mulb2 (vec 4 0b1000) (vec 4 0b0010) { val := 4 }) State.reset)
    t.md = bits 4 0b1000 ∧ t.mq = bits 5 0b00100 ∧ t.p = bits 8 0 := by decide
theorem test_mulb2_negative_digit :
    lastRow (work (mulState 0x8#4 4 1 (bits 4 0b1000) (bits 5 0b00100) (bits 8 0))) = some
      (.mul { idx := 1, op := .minus1, exam := 0b010#3, shift := 1, ppValid := true, pp := bits 7 0b0001000 }) := by
  decide
theorem test_mulb4_accept_odd :
    let t := stateOf (exec (.mulb4 (vec 3 0b011) (vec 3 0b101) { val := 3 }) State.reset)
    t.mq = bits 5 0b11010 ∧ t.even = true ∧ t.p = bits 7 0 := by decide
theorem test_mulb4_last_step :
    rspOf (work (mulState 0x9#4 3 1 (bits 3 0b011) (bits 5 0b11010) (bits 7 0b0000011))) = some
      { vec := bits 7 0b1110111, flag := true, val := ⟨true, 9, 0⟩, valA := ⟨false, 3, 0⟩
        valB := ⟨true, 3, 0⟩ } := by decide
theorem test_divr_accept :
    let t := stateOf (exec (.divr { val := 11 } { val := 3 }) State.reset)
    t.nreg = 4 ∧ t.a = bits 5 0 ∧ t.q = bits 4 0b1011 ∧ t.m = bits 5 0b00011 := by decide
theorem test_divr_restores :
    lastRow (work (divState 0xC#4 4 11 3 .dset 1 0b11110 0b0110)) =
      some (row 1 .restore 0b00001 0b0110 false) := by decide
theorem test_divnr_sets_zero :
    lastRow (work (divState 0xD#4 4 11 3 .dset 1 0b11110 0b0110)) =
      some (row 1 .set0 0b11110 0b0110 false) := by decide
theorem test_divnr_adds :
    lastRow (work (divState 0xD#4 4 11 3 .darith 2 0b11100 0b1100 true)) =
      some (row 2 .add 0b11111 0b1100 true) := by decide
theorem test_div_result :
    rspOf (work (divState 0xD#4 4 11 3 .dfinal 4 0b00010 0b0011)) =
      some { quo := 3, rem := 2, alg := true, n := 4 } := by decide
theorem test_divnr_corrects :
    lastRow (work (divState 0xD#4 3 0 5 .dcorr 3 0b1011 0b000)) = some
      (.div { lab := .final, cyc := 0, act := .correct, a := bits 4 0, q := bits 3 0, qmark := false
              m := bits 4 0b0101 }) := by decide
theorem test_division_by_zero :
    rspOf (exec (.divr { val := 10 } { val := 0 }) State.reset) =
      some { status := .err ⟨.divisionByZero, .second⟩ } := by decide
theorem test_table_word_steps : rspOf (step (State.reset.withFetchWord 8 0x0C)) =
    some { status := .err ⟨.divisionByZero, .second⟩ } := by decide

/-- The code tables of R101 and R102. -/
theorem test_row_codes :
    [Action.init, .shift, .sub, .add, .set1, .set0, .restore, .correct, .result].map Action.code =
        [0#4, 1#4, 2#4, 3#4, 4#4, 5#4, 6#4, 7#4, 8#4] ∧
      [Label.init, .cycle, .final].map Label.code = [0#2, 1#2, 2#2] := by decide

/-! ### Witnesses: for each obligation with hypotheses, a state and operands that meet them -/

theorem witness_CommandBytesDecodeToTheirOperations :
    [0x01#8, 0x11#8, 0x21#8, 0x31#8, 0x02#8, 0x03#8, 0x04#8, 0x05#8, 0x08#8, 0x09#8, 0x0C#8, 0x0D#8].map
      (fun b => (cmd b).cmd) =
    [0b00000001#8, 0b00010001#8, 0b00100001#8, 0b00110001#8, 0b00000010#8, 0b00000011#8, 0b00000100#8,
      0b00000101#8, 0b00001000#8, 0b00001001#8, 0b00001100#8, 0b00001101#8] := by decide

theorem witness_DecodeAndEncodeAgree :
    decode (cmd 0x31#8) = .ok (.padt true true (vec 4 7) { val := 4 }) ∧
      (cmd 0x31#8).cmd = (encode (.padt true true (vec 4 7) { val := 4 })).cmd ∧
      (Instr.padt true true (vec 4 7) { val := 4 }).readsFrom (cmd 0x31#8) := by
  exact ⟨by decide, by decide, rfl, rfl⟩

theorem witness_StepRunsTheDecodedInstruction :
    (host [.command (cmd 0x03#8)]).host = .command (cmd 0x03#8) :: [] ∧
      decode (cmd 0x03#8) = .ok (.adds (vec 4 7) (vec 4 3)) := by decide

theorem witness_StepWithoutHostActionIsWork :
    State.reset.host = [] ∧ (host [.nothing, .take]).host = .nothing :: [.take] := by decide

theorem witness_IllegalByteIsAnswered :
    (host [.command (cmd 0x28#8)]).phase = .idle ∧
      (host [.command (cmd 0x28#8)]).host = .command (cmd 0x28#8) :: [] ∧
      decode (cmd 0x28#8) = .error .flagsOnNonPadt := by decide

/-- A block that holds the response to an `ADDS`, with the given actions of the host to come. -/
def responding (hs : List HostAction) : State :=
  { stateOf (exec (.adds (vec 4 7) (vec 4 3)) State.reset) with host := hs }

/-- A block in the middle of a multiplication, with the given actions of the host to come. -/
def multiplying (hs : List HostAction) : State :=
  { mulState 0x8#4 4 2 (bits 4 0b1000) (bits 5 0b00100) (bits 8 0b00010000) with host := hs }

theorem witness_CommandWhileBusyHasNoEffect :
    (multiplying [.command (cmd 0x03#8)]).busy = true ∧ (responding [.command (cmd 0x41#8)]).busy = true := by decide

theorem witness_TakeReturnsToIdle :
    (responding [.take]).host = .take :: [] ∧ (responding [.take]).phase = .resp ∧
      (multiplying [.take]).host = .take :: [] ∧ (multiplying [.take]).phase ≠ .resp := by decide

theorem witness_ResponseIsHeldUntilTaken :
    (responding [.nothing, .command (cmd 0x03#8), .take]).phase = .resp ∧
      (∀ h ∈ [HostAction.nothing, .command (cmd 0x03#8)], h ≠ .take ∧ h ≠ .reset) ∧
      (responding [.nothing, .command (cmd 0x03#8), .take]).host =
        [.nothing, .command (cmd 0x03#8)] ++ [.take] ∧
      (responding []).phase = .resp ∧ (responding []).host = [] := by decide

theorem witness_ResetStepFromAnyPhase :
    (multiplying [.reset]).host = .reset :: [] ∧ (responding [.reset]).host = .reset :: [] ∧
      (host [.reset]).host = .reset :: [] := by decide

theorem witness_StepKeepsParameters : step (multiplying []) = .next (stateOf (step (multiplying []))) :=
  next_stateOf (by decide)

theorem witness_ErrorEntryWritesOnlyTheResponse :
    small.phase = .idle ∧ decode (cmd 0x12#8) = .error .flagsOnNonPadt ∧
      errorOf small.params (.padt false true (vec 2 2) { val := 1 }) = some ⟨.widthOverflow, .first⟩ ∧
      errorOf small.params (.neg (vec 2 1) { val := 10 }) = some ⟨.illegalCommand, .third⟩ ∧
      errorOf small.params (.adds (vec 2 1) { bad := true }) = some ⟨.illegalCommand, .second⟩ ∧
      errorOf small.params (.shl0 {}) = some ⟨.illegalCommand, .first⟩ ∧
      errorOf small.params (.dec (vec 2 1 3)) = some ⟨.illegalCommand, .first⟩ ∧
      errorOf small.params (.mulb2 (vec 2 0 1) (vec 4 3) { val := 0 }) = some ⟨.zeroOperand, .first⟩ ∧
      errorOf small.params (.mulb4 (vec 4 1) (vec 4 3) { val := 5 }) = some ⟨.invalidWordLength, .third⟩ ∧
      errorOf small.params (.divr { val := 16 } { val := 0 }) = some ⟨.invalidDivisionOperand, .first⟩ ∧
      errorOf small.params (.divnr { val := -16 } { val := 3 }) = some ⟨.unsupportedSignedOperand, .first⟩ := by
  decide

/-- The two conditions of `IllegalCommandExactlyWhenIllFormed` on a slot. -/
def vectorIllegal (p : Params) (v : VecDesc) : Prop :=
  v.bad = true ∨ v.len = 0 ∨ (v.bad = false ∧ ∃ w ∈ p.wmax, w < v.len)

def lengthIllegal (p : Params) (n : LenDesc) : Prop := n.bad = true ∨ n.val = 0 ∨ ∃ w ∈ p.wmax, 2 * w + 1 < n.val

/-- Each condition at the boundary of its range: the clauses of a primitive are met by combining these operands. -/
theorem witness_IllegalCommandExactlyWhenIllFormed :
    small.phase = .idle ∧ vectorIllegal small.params { vec 2 1 with bad := true } ∧
      vectorIllegal small.params {} ∧ vectorIllegal small.params (vec 5 1) ∧
      ¬ vectorIllegal small.params (vec 4 1 4) ∧ ¬ vectorIllegal small.params (vec 4 1 5) ∧
      ¬ vectorIllegal small.params (vec 1 1) ∧ lengthIllegal small.params { bad := true, val := 4 } ∧
      lengthIllegal small.params { val := 0 } ∧ lengthIllegal small.params { val := 10 } ∧
      ¬ lengthIllegal small.params { val := 9 } ∧ ¬ lengthIllegal small.params { val := 3 } ∧
      3 < (vec 4 1 4).len ∧ (vec 4 1 4).len ≤ 9 ∧ (vec 4 1 5).len < (vec 4 1 5).frac ∧
      (vec 4 1 4).frac ≤ (vec 4 1 4).len := by
  refine ⟨rfl, ?_⟩
  simp [vectorIllegal, lengthIllegal, small, four, vec]

theorem test_illegal_vector_before_length :
    errorOf four (.neg (vec 5 1) { val := 10 }) = some ⟨.illegalCommand, .first⟩ := by decide

/-- The condition of `MultiplierChecksInOrder`. -/
def mulChecks (p : Params) (a b : VecDesc) (n : LenDesc) : Option ErrInfo :=
  if a.bad = false ∧ Params.within p.wmax a.len = false then some ⟨.illegalCommand, .first⟩
  else if b.bad = false ∧ Params.within p.wmax b.len = false then some ⟨.illegalCommand, .second⟩
  else if a.bad = true ∨ a.len = 0 ∨ a.len ≤ a.frac then some ⟨.invalidLiteral, .first⟩
  else if b.bad = true ∨ b.len = 0 ∨ b.len ≤ b.frac then some ⟨.invalidLiteral, .second⟩
  else if ∀ j < a.len, a.bits.bit j = false then some ⟨.zeroOperand, .first⟩
  else if ∀ j < b.len, b.bits.bit j = false then some ⟨.zeroOperand, .second⟩
  else if n.bad = true ∨ n.val = 0 ∨ Params.within p.wmax n.val = false then some ⟨.invalidWordLength, .third⟩
  else if n.val < a.len then some ⟨.widthOverflow, .first⟩
  else if n.val < b.len then some ⟨.widthOverflow, .second⟩
  else none

theorem witness_MultiplierChecksInOrder :
    small.phase = .idle ∧
      mulChecks small.params (vec 5 1) (vec 5 1) { val := 4 } = some ⟨.illegalCommand, .first⟩ ∧
      mulChecks small.params (vec 4 1) (vec 5 1) { val := 4 } = some ⟨.illegalCommand, .second⟩ ∧
      mulChecks small.params (vec 4 1 4) (vec 4 1) { val := 4 } = some ⟨.invalidLiteral, .first⟩ ∧
      mulChecks small.params (vec 4 1 3) (vec 4 1 4) { val := 4 } = some ⟨.invalidLiteral, .second⟩ ∧
      mulChecks small.params (vec 4 0) (vec 4 0) { val := 4 } = some ⟨.zeroOperand, .first⟩ ∧
      mulChecks small.params (vec 4 8) (vec 4 0) { val := 5 } = some ⟨.zeroOperand, .second⟩ ∧
      mulChecks small.params (vec 4 8) (vec 4 8) { val := 5 } = some ⟨.invalidWordLength, .third⟩ ∧
      mulChecks small.params (vec 4 8) (vec 4 8) { val := 0 } = some ⟨.invalidWordLength, .third⟩ ∧
      mulChecks small.params (vec 4 8) (vec 4 8) { val := 3 } = some ⟨.widthOverflow, .first⟩ ∧
      mulChecks small.params (vec 3 4) (vec 4 8) { val := 3 } = some ⟨.widthOverflow, .second⟩ ∧
      mulChecks small.params (vec 4 8) (vec 4 8) { val := 4 } = none := by decide

/-- The condition of `DividerChecksInOrder`. -/
def divChecks (p : Params) (x y : IntDesc) : Option ErrInfo :=
  if x.bad = true ∨ (∃ b ∈ p.nmax, x.val < -2 ^ b ∨ 2 ^ b ≤ x.val) then some ⟨.invalidDivisionOperand, .first⟩
  else if y.bad = true ∨ (∃ b ∈ p.nmax, y.val < -2 ^ b ∨ 2 ^ b ≤ y.val) then
    some ⟨.invalidDivisionOperand, .second⟩
  else if y.val = 0 then some ⟨.divisionByZero, .second⟩
  else if x.val < 0 then some ⟨.unsupportedSignedOperand, .first⟩
  else if y.val < 0 then some ⟨.unsupportedSignedOperand, .second⟩
  else none

theorem witness_DividerChecksInOrder :
    small.phase = .idle ∧
      divChecks small.params { val := 16 } { val := 0 } = some ⟨.invalidDivisionOperand, .first⟩ ∧
      divChecks small.params { val := -17 } { val := 0 } = some ⟨.invalidDivisionOperand, .first⟩ ∧
      divChecks small.params { val := 15 } { val := -17 } = some ⟨.invalidDivisionOperand, .second⟩ ∧
      divChecks small.params { val := -16 } { val := 0 } = some ⟨.divisionByZero, .second⟩ ∧
      divChecks small.params { val := -16 } { val := -1 } = some ⟨.unsupportedSignedOperand, .first⟩ ∧
      divChecks small.params { val := 0 } { val := -1 } = some ⟨.unsupportedSignedOperand, .second⟩ ∧
      divChecks small.params { val := 0 } { val := 1 } = none := by
  refine ⟨rfl, ?_⟩
  simp [divChecks, small, four]

theorem witness_PadtPadsExtendsOrTruncates :
    small.phase = .idle ∧ (vec 4 0b1011).wfVector small.params = true ∧
      (LenDesc.mk false 1).wfTarget small.params = true ∧ (LenDesc.mk false 9).wfTarget small.params = true ∧
      1 < (vec 4 0b1011).len ∧ (vec 4 0b1011).len ≤ 9 := by decide

theorem witness_PadtKeepsTheValue :
    small.phase = .idle ∧ (vec 4 0b1011).wfVector small.params = true ∧
      (LenDesc.mk false 4).wfTarget small.params = true ∧ (LenDesc.mk false 3).wfTarget small.params = true ∧
      (vec 4 0b1011).len ≤ 4 ∧ 3 < (vec 4 0b1011).len := by decide

theorem witness_NegAnswersTheTwosComplement :
    small.phase = .idle ∧ (vec 4 0b1000).wfVector small.params = true ∧
      (LenDesc.mk false 4).wfTarget small.params = true ∧ (LenDesc.mk false 3).wfTarget small.params = true ∧
      3 < (vec 4 0b1000).len ∧ (vec 4 0b1000).len ≤ 4 ∧ (vec 4 0b1000).vec.sint = -2 ^ (4 - 1) ∧
      (vec 4 0b1001).vec.sint ≠ -2 ^ (4 - 1) := by decide

theorem witness_NegTwiceIsSignExtension :
    small.phase = .idle ∧ (vec 2 0b01).wfVector small.params = true ∧
      (LenDesc.mk false 4).wfTarget small.params = true ∧ (vec 2 0b01).len ≤ 4 ∧
      Params.within small.params.wmax 4 = true ∧ (vec 4 0b1000).len = 4 := by decide

/-- Premises of `AddsAnswersTheExactSum`, with and without a carry. -/
theorem witness_AddsAnswersTheExactSum :
    small.phase = .idle ∧ (vec 4 0b1111).wfVector small.params = true ∧ (vec 1 1).wfVector small.params = true ∧
      growFlag (vec 4 0b1111).vec (vec 1 1).vec = true ∧ growFlag (vec 4 0b1110).vec (vec 1 1).vec = false := by
  decide

theorem witness_ShlInsertsAZeroBit :
    small.phase = .idle ∧ (vec 4 0b1111).wfVector small.params = true := by decide

theorem witness_DecAnswersTheExactValue :
    small.phase = .idle ∧ (vec 4 0b1000 4).wfSigned small.params = true := by decide

theorem witness_DecRoundTrip :
    small.phase = .idle ∧ 1 ≤ 4 ∧ 4 ≤ 4 ∧ Params.within small.params.wmax 4 = true ∧
      -2 ^ (4 - 1) ≤ (-8 : Int) ∧ (-8 : Int) ≤ 2 ^ (4 - 1) - 1 := by decide

theorem witness_PrimitivesWriteNoDatapathRegister :
    (Instr.adds (vec 4 7) (vec 4 3)).opcode.toNat ≤ 5 ∧ State.reset.phase = .idle ∧
      exec (.adds (vec 4 7) (vec 4 3)) State.reset =
        .next (stateOf (exec (.adds (vec 4 7) (vec 4 3)) State.reset)) :=
  ⟨by decide, rfl, next_stateOf (by decide)⟩

theorem witness_ValidMul : ValidMul small.params (vec 4 0b1000 3) (vec 3 0b101) { val := 4 } :=
  (checkMul_eq_none_iff _ _ _ _).1 (by decide)

theorem witness_ValidMul_odd : ValidMul small.params (vec 3 0b011) (vec 3 0b101) { val := 3 } :=
  (checkMul_eq_none_iff _ _ _ _).1 (by decide)

/-- Premises of `MulbTwoAcceptLoadsItsRegisters`, `MulbFourAcceptLoadsItsRegisters` and
`OperandExtensionKeepsTheValue`. -/
theorem witness_MultiplierAccept :
    small.phase = .idle ∧ ValidMul small.params (vec 3 0b011) (vec 3 0b101) { val := 3 } ∧ 3 % 2 = 1 :=
  ⟨rfl, witness_ValidMul_odd, rfl⟩

theorem witness_MulbTwoStepAddsThePartialProduct :
    (multiplying []).phase = .mstep ∧ (multiplying []).opc = 0x8#4 := by decide

theorem witness_MulbFourStepAddsThePartialProduct :
    let s := mulState 0x9#4 3 1 (bits 3 0b011) (bits 5 0b11010) (bits 7 0b0000011)
    s.phase = .mstep ∧ s.opc = 0x9#4 := by decide

theorem witness_BoothDigitsSumToTheMultiplier :
    let mq := bits 5 0b01010
    mq.bit 0 = false ∧ (boothDigit (mq.bit 1) (mq.bit 0)).val ≠ 0 ∧ (boothDigit (mq.bit 2) (mq.bit 1)).val ≠ 0 ∧
      (mq.slice 1 4).uint ≠ 0 := by decide

theorem witness_BitPairDigitsSumToTheMultiplier : (bits 5 0b11010).bit 0 = false := by decide

/-- The state of a block with small parameters that is presented a command. -/
def presented (c : Command) : State := { small with host := [.command c] }

/-- Premises of `MulbTwoAnswersTheExactProduct`, `MulbFourAnswersTheExactProduct`, `BothRadicesAgree` and
`RecordedPartialProductsSumToTheProduct`. -/
theorem witness_MultiplierRun :
    (presented (cmd 0x08#8)).phase = .idle ∧ (presented (cmd 0x08#8)).host = [.command (cmd 0x08#8)] ∧
      decode (cmd 0x08#8) = .ok (.mulb2 (vec 4 7) (vec 4 3) { val := 4 }) ∧
      (presented (cmd 0x09#8)).phase = .idle ∧ (presented (cmd 0x09#8)).host = [.command (cmd 0x09#8)] ∧
      decode (cmd 0x09#8) = .ok (.mulb4 (vec 4 7) (vec 4 3) { val := 4 }) ∧
      ValidMul four (vec 4 7) (vec 4 3) { val := 4 } :=
  ⟨rfl, rfl, by decide, rfl, rfl, by decide, (checkMul_eq_none_iff _ _ _ _).1 (by decide)⟩

theorem witness_DividerAcceptLoadsItsRegisters :
    small.phase = .idle ∧ ValidDiv small.params { val := 15 } { val := 15 } ∧
      ValidDiv small.params { val := 0 } { val := 1 } :=
  ⟨rfl, (checkDiv_eq_none_iff _ _ _).1 (by decide), (checkDiv_eq_none_iff _ _ _).1 (by decide)⟩

theorem witness_DshiftShiftsBothRegisters :
    (divState 0xC#4 4 11 3 .dshift 2 0b00001 0b0110).phase = .dshift ∧
      (divState 0xC#4 4 11 3 .dshift 2 0b00001 0b0110).opc = 0xC#4 ∧
      (divState 0xD#4 4 11 3 .dshift 2 0b11110 0b0110).opc = 0xD#4 := by decide

theorem witness_DarithAddsOrSubtracts :
    (divState 0xD#4 4 11 3 .darith 2 0b11100 0b1100 true).phase = .darith ∧
      (divState 0xD#4 4 11 3 .darith 2 0b11100 0b1100 true).opc = 0xD#4 ∧
      (divState 0xD#4 4 11 3 .darith 2 0b11100 0b1100 true).qp = true := by decide

theorem witness_DsetSetsTheQuotientBit :
    (divState 0xC#4 4 11 3 .dset 1 0b11110 0b0110).phase = .dset ∧
      (divState 0xC#4 4 11 3 .dset 1 0b11110 0b0110).opc = 0xC#4 ∧
      (divState 0xD#4 4 11 3 .dset 4 0b00010 0b0010).opc = 0xD#4 := by decide

theorem witness_DcorrAddsTheDivisorOnce :
    (divState 0xD#4 3 0 5 .dcorr 3 0b1011 0b000).phase = .dcorr ∧
      (divState 0xD#4 3 0 5 .dcorr 3 0b1011 0b000).opc = 0xD#4 := by decide

theorem witness_DfinalAnswersQuotientAndRemainder :
    (divState 0xC#4 4 11 3 .dfinal 4 0b00010 0b0011).phase = .dfinal ∧
      (divState 0xC#4 4 11 3 .dfinal 4 0b00010 0b0011).opc = 0xC#4 := by decide

/-- Premises of `DivrAnswersQuotientAndRemainder`, `DivnrAnswersQuotientAndRemainder` and `BothDividersAgree`. -/
theorem witness_DividerRun :
    (presented (cmd 0x0C#8)).phase = .idle ∧ (presented (cmd 0x0C#8)).host = [.command (cmd 0x0C#8)] ∧
      decode (cmd 0x0C#8) = .ok (.divr { val := 11 } { val := 3 }) ∧
      (presented (cmd 0x0D#8)).phase = .idle ∧ (presented (cmd 0x0D#8)).host = [.command (cmd 0x0D#8)] ∧
      decode (cmd 0x0D#8) = .ok (.divnr { val := 11 } { val := 3 }) ∧
      ValidDiv four { val := 11 } { val := 3 } :=
  ⟨rfl, rfl, by decide, rfl, rfl, by decide, (checkDiv_eq_none_iff _ _ _).1 (by decide)⟩

/-! ### Witnesses of the invariants, in the middle of a run -/

theorem witness_ControlInv_running : ControlInv (multiplying [.nothing]) := by
  constructor <;> decide

theorem witness_StepKeepsControlInvariant :
    ControlInv (multiplying [.nothing]) ∧
      step (multiplying [.nothing]) = .next (stateOf (step (multiplying [.nothing]))) :=
  ⟨witness_ControlInv_running, next_stateOf (by decide)⟩

theorem witness_MulInv_mulb2 : MulInv (multiplying []) :=
  ⟨fun _ => by constructor <;> decide, fun h => absurd h (by decide)⟩

theorem witness_MulInv_mulb4_odd :
    MulInv (mulState 0x9#4 3 1 (bits 3 0b011) (bits 5 0b11010) (bits 7 0b0000011)) :=
  ⟨fun _ => by constructor <;> decide, fun h => absurd h (by decide)⟩

theorem witness_StepKeepsMultiplierInvariant :
    MulInv (multiplying []) ∧ step (multiplying []) = .next (stateOf (step (multiplying []))) :=
  ⟨witness_MulInv_mulb2, next_stateOf (by decide)⟩

/-- A division state with an invariant for each phase is a state of the divider invariant. -/
theorem divInv_of_running {s : State} (h : DivRunning s) (hp : s.phase ≠ .resp) : DivInv s :=
  ⟨fun _ => h, fun hr => absurd hr hp⟩

theorem witness_DivInv_dshift : DivInv (divState 0xD#4 4 11 3 .dshift 2 0b11110 0b0110) := by
  refine divInv_of_running ?_ (by decide)
  constructor
  case at_shift => exact fun _ => by constructor <;> decide
  case at_arith | at_set | at_corr | at_final => exact fun h => absurd h (by decide)
  all_goals decide

theorem witness_DivInv_darith_restoring : DivInv (divState 0xC#4 4 11 3 .darith 3 0b00101 0b1000) := by
  refine divInv_of_running ?_ (by decide)
  constructor
  case at_arith => exact fun _ => ⟨by constructor <;> decide, by decide⟩
  case at_shift | at_set | at_corr | at_final => exact fun h => absurd h (by decide)
  all_goals decide

theorem witness_DivInv_darith_nonrestoring : DivInv (divState 0xD#4 4 11 3 .darith 3 0b11111 0b1000 true) := by
  refine divInv_of_running ?_ (by decide)
  constructor
  case at_arith => exact fun _ => ⟨by constructor <;> decide, by decide⟩
  case at_shift | at_set | at_corr | at_final => exact fun h => absurd h (by decide)
  all_goals decide

theorem witness_DivInv_dset : DivInv (divState 0xC#4 4 11 3 .dset 2 0b11111 0b1100) := by
  refine divInv_of_running ?_ (by decide)
  constructor
  case at_set => exact fun _ => ⟨by constructor <;> decide, by decide⟩
  case at_shift | at_arith | at_corr | at_final => exact fun h => absurd h (by decide)
  all_goals decide

theorem witness_DivInv_dcorr : DivInv (divState 0xD#4 3 0 5 .dcorr 3 0b1011 0b000) := by
  refine divInv_of_running ?_ (by decide)
  constructor
  case at_corr => exact fun _ => ⟨by decide, by decide, by decide, by constructor <;> decide⟩
  case at_shift | at_arith | at_set | at_final => exact fun h => absurd h (by decide)
  all_goals decide

theorem witness_DivInv_dfinal : DivInv (divState 0xC#4 4 11 3 .dfinal 4 0b00010 0b0011) := by
  refine divInv_of_running ?_ (by decide)
  constructor
  case at_final => exact fun _ => ⟨by decide, by decide, by constructor <;> decide⟩
  case at_shift | at_arith | at_set | at_corr => exact fun h => absurd h (by decide)
  all_goals decide

theorem witness_StepKeepsDividerInvariant :
    DivInv (divState 0xD#4 4 11 3 .dshift 2 0b11110 0b0110) ∧
      step (divState 0xD#4 4 11 3 .dshift 2 0b11110 0b0110) =
        .next (stateOf (step (divState 0xD#4 4 11 3 .dshift 2 0b11110 0b0110))) :=
  ⟨witness_DivInv_dshift, next_stateOf (by decide)⟩

theorem witness_RestoringShiftKeepsTheTopBitClear :
    let s := divState 0xC#4 4 11 3 .darith 3 0b00101 0b1000
    DivInv s ∧ s.phase = .darith ∧ s.opc = 0xC#4 := ⟨witness_DivInv_darith_restoring, rfl, rfl⟩

theorem witness_SignAfterArithmeticIsTrue :
    let s := divState 0xC#4 4 11 3 .dset 2 0b11111 0b1100
    DivInv s ∧ s.phase = .dset := ⟨witness_DivInv_dset, rfl⟩

theorem witness_WorkStepsAppendOneRow :
    work (multiplying []) = .next (stateOf (work (multiplying []))) ∧ (multiplying []).working = true ∧
      work State.reset = .next State.reset ∧ State.reset.working = false :=
  ⟨next_stateOf (by decide), by decide, rfl, by decide⟩

/-- The last step of `MULB2 "1", "1", 1`. -/
theorem witness_WorkStepsRaiseNoError :
    let s := mulState 0x8#4 1 0 (bits 1 1) (bits 2 0b10) (bits 2 0)
    work s = .next (stateOf (work s)) ∧ s.working = true ∧ (stateOf (work s)).phase = .resp :=
  ⟨next_stateOf (by decide), by decide, by decide⟩

theorem witness_WorkStepFrame :
    let s := divState 0xD#4 4 11 3 .darith 2 0b11100 0b1100 true
    work s = .next (stateOf (work s)) ∧ s.inDivision = true ∧
      work (multiplying []) = .next (stateOf (work (multiplying []))) ∧ (multiplying []).phase = .mstep :=
  ⟨next_stateOf (by decide), by decide, next_stateOf (by decide), rfl⟩

/-- Two idle states that differ in every register an earlier command may have left. -/
def leftOver : State :=
  { mulState 0x8#4 4 2 (bits 4 0b1000) (bits 5 0b00100) (bits 8 0b00010000) with
    phase := .idle, a := bits 3 5, q := bits 2 1, m := bits 3 3, sgn := true, qp := true
    host := [.command (cmd 0x0D#8), .nothing] }

theorem witness_OutputsDependOnlyOnTheCommand :
    (host [.command (cmd 0x0D#8), .nothing]).phase = .idle ∧ leftOver.phase = .idle ∧
      (host [.command (cmd 0x0D#8), .nothing]).params = leftOver.params ∧
      (host [.command (cmd 0x0D#8), .nothing]).host = .command (cmd 0x0D#8) :: [.nothing] ∧
      leftOver.host = (host [.command (cmd 0x0D#8), .nothing]).host ∧ 1 ≤ 2 ∧
      host [.command (cmd 0x0D#8), .nothing] ≠ leftOver := by decide

theorem witness_EveryCommandIsAnswered :
    (host [.command (cmd 0x08#8)]).phase = .idle ∧
      (host [.command (cmd 0x08#8)]).host = [.command (cmd 0x08#8)] ∧
      decode (cmd 0x08#8) = .ok (.mulb2 (vec 4 7) (vec 4 3) { val := 4 }) ∧
      errorOf (host [.command (cmd 0x08#8)]).params (.mulb2 (vec 4 7) (vec 4 3) { val := 4 }) = none ∧
      decode { cmd 0x08#8 with opN := { val := 3 } } = .ok (.mulb2 (vec 4 7) (vec 4 3) { val := 3 }) ∧
      errorOf State.reset.params (.mulb2 (vec 4 7) (vec 4 3) { val := 3 }) = some ⟨.widthOverflow, .first⟩ ∧
      decode (cmd 0x00#8) = .error .reservedOpcode ∧ ControlInv (multiplying [.nothing]) :=
  ⟨rfl, rfl, by decide, by decide, by decide, by decide, by decide, witness_ControlInv_running⟩

theorem witness_PositionsBeyondTheLengthPlayNoPart :
    let d := vec 2 0b11
    let d' : VecDesc := { d with bits := bits 4 0b1011 }
    d.bad = d'.bad ∧ d.len = d'.len ∧ d.frac = d'.frac ∧ (∀ j < d.len, d.bits.bit j = d'.bits.bit j) ∧ d ≠ d' ∧
      (bits 3 5).len ≤ 3 ∧ 2 < (bits 3 5).len ∧ 2 < 8 := by decide

theorem witness_DisplayStringReadsBack : 1 < (bits 2 0b01).len ∧ 0 < (bits 2 0b01).len := by decide

theorem test_display_string : (bits 4 0b1000).showPoint 2 = ['1', '0', '.', '0', '0'] := by decide
theorem test_command_text_padt :
    (assemble "PADT \"1011\", 8, S".toList).map Command.cmd = some 0x21#8 := by decide
theorem test_command_text_mulb2 :
    assemble "MULB2 \"0111\", BAD, 4".toList = some
      { cmd := 0x08#8, opA := vec 4 7, opB := { bad := true }, opN := { val := 4 } } := by decide
theorem test_command_text_divnr :
    assemble "DIVNR -11, 3".toList = some { cmd := 0x0D#8, opX := { val := -11 }, opY := { val := 3 } } := by decide
theorem test_literal : literal ['0', '1', '.', '1'] = vec 3 0b011 1 := by decide
theorem test_literal_without_digits : literal ['.', '1'] = { bad := true } := by decide

end Sys2Proof.Tests
end

/-! ### What no step writes (R52) -/

section
namespace Sys2Proof.Machine

/-- The opcode, the parameters and the host's actions: what no `work` step writes. -/
def State.setting (s : State) : BitVec 4 × Params × List HostAction := (s.opc, s.params, s.host)

theorem mstepMulb2_setting (s : State) : (mstepMulb2 s).setting = s.setting := by
  simp only [mstepMulb2, recodeStep_eq]; split_ifs <;> rfl

theorem mstepMulb4_setting (s : State) : (mstepMulb4 s).setting = s.setting := by
  simp only [mstepMulb4, recodeStep_eq]; split_ifs <;> rfl

theorem darith_setting (s : State) : (darith s).setting = s.setting := by
  unfold darith; split_ifs <;> rfl

theorem advanceCycle_setting (s : State) : (advanceCycle s).setting = s.setting := by
  unfold advanceCycle; split_ifs <;> rfl

theorem dset_setting (s : State) : (dset s).setting = s.setting := by
  unfold dset; split_ifs <;> exact advanceCycle_setting _

theorem work_setting {s t : State} (h : work s = .next t) : t.setting = s.setting := by
  obtain ⟨-, rfl⟩ | ⟨-, rfl⟩ | ⟨-, -, rfl⟩ | ⟨-, -, rfl⟩ | ⟨-, -, rfl⟩ | ⟨-, -, rfl⟩ | ⟨-, -, rfl⟩ |
    ⟨-, -, rfl⟩ | ⟨-, -, rfl⟩ := work_cases h
  · rfl
  · rfl
  · exact mstepMulb2_setting s
  · exact mstepMulb4_setting s
  · rfl
  · exact darith_setting s
  · exact dset_setting s
  · rfl
  · rfl

/-- A command's step: no transition in a busy block, else an error or the load of the instruction. -/
theorem present_cases {c : Command} {s t : State} (h : present c s = .next t) :
    (s.phase ≠ .idle ∧ t = s) ∨ (∃ op e, t = State.errored op e s) ∨
      ∃ i : Instr, t = loadOf i (beginCommand i.opcode s) := by
  unfold present at h
  split at h
  next i _ =>
    obtain hbusy | ⟨-, e, -, rfl⟩ | ⟨-, -, rfl⟩ := exec_cases h
    · exact .inl hbusy
    · exact .inr (.inl ⟨_, e, rfl⟩)
    · exact .inr (.inr ⟨i, rfl⟩)
  next =>
    unfold rejectCommand at h
    by_cases hp : s.phase = .idle
    · rw [accept_idle_some hp] at h
      cases h
      exact .inr (.inl ⟨_, _, rfl⟩)
    · rw [accept_busy hp] at h
      cases h
      exact .inl ⟨hp, rfl⟩

@[simp] theorem loadOf_params (i : Instr) (s : State) : (loadOf i s).params = s.params := by
  cases i <;> rfl

@[simp] theorem takeResponse_params (s : State) : (takeResponse s).params = s.params := by
  unfold takeResponse; split_ifs <;> rfl

theorem act_params {a : HostAction} {s t : State} (h : act a s = .next t) : t.params = s.params := by
  cases a with
  | command c =>
    obtain ⟨-, rfl⟩ | ⟨op, e, rfl⟩ | ⟨i, rfl⟩ := present_cases h
    · rfl
    · rfl
    · simp
  | take => cases h; exact takeResponse_params s
  | reset => cases h; rfl
  | nothing => exact congrArg (·.2.1) (work_setting h)

/-- Settles O12: a step is one host action, and each of the four kinds keeps the parameters. -/
theorem stepKeepsParameters : Obligations.StepKeepsParameters := by
  intro s t h
  obtain ⟨a, rest, hact⟩ := step_cases h
  have hkept : t.params = State.params { s with host := rest } := act_params hact
  exact hkept

end Sys2Proof.Machine
end

/-! ### The block never stops (assumption log 10) -/

section
namespace Sys2Proof.Machine

/-- The phase is one of the operation in `OPC`, so that a rule gives the next `work` step. It is the part of
`ControlInv` that needs nothing of the parameters or the response. -/
structure OpcodeFits (s : State) : Prop where
  mul_opcode : s.phase = .mstep → s.opc = 0x8#4 ∨ s.opc = 0x9#4
  div_opcode : s.inDivision = true → s.dividing = true
  corr_opcode : s.phase = .dcorr → s.opc = 0xD#4

theorem ControlInv.opcodeFits {s : State} (h : ControlInv s) : OpcodeFits s :=
  ⟨h.mul_opcode, h.div_opcode, h.corr_opcode⟩

theorem OpcodeFits.of_not_working {s : State} (h : s.working = false) : OpcodeFits s where
  mul_opcode hp := by simp [State.working, hp] at h
  div_opcode hd := by simp [State.inDivision, h] at hd
  corr_opcode hp := by simp [State.working, hp] at h

theorem mstepMulb2_phase (s : State) :
    (mstepMulb2 s).phase = s.phase ∨ (mstepMulb2 s).phase = .resp := by
  by_cases hlast : s.cnt + 1 < s.wreg <;> simp [mstepMulb2, recodeStep_eq, hlast]

theorem mstepMulb4_phase (s : State) :
    (mstepMulb4 s).phase = s.phase ∨ (mstepMulb4 s).phase = .resp := by
  by_cases hlast : s.cnt + 1 < pairCount s.wreg <;> simp [mstepMulb4, recodeStep_eq, hlast]

/-- Where a cycle's end leads (R232); only the non-restoring variant corrects. -/
theorem advanceCycle_phase (s : State) :
    (advanceCycle s).phase = .dshift ∨ (advanceCycle s).phase = .dfinal ∨
      ((advanceCycle s).phase = .dcorr ∧ s.nonRestoring = true) := by
  unfold advanceCycle
  split_ifs with hlast hcorr
  · exact .inl rfl
  · exact .inr (.inr ⟨rfl, (Bool.and_eq_true_iff.mp hcorr).1⟩)
  · exact .inr (.inl rfl)

theorem dset_phase (s : State) :
    (dset s).phase = .dshift ∨ (dset s).phase = .dfinal ∨
      ((dset s).phase = .dcorr ∧ s.nonRestoring = true) := by
  unfold dset
  split_ifs <;> exact advanceCycle_phase _

/-- Of the two dividers only `DIVNR` has the non-restoring policy (R33, R92). -/
theorem opc_of_dividing_of_nonRestoring {s : State} (hd : s.dividing = true) (hn : s.nonRestoring = true) :
    s.opc = 0xD#4 := by
  have hopc : s.opc = 0xC#4 ∨ s.opc = 0xD#4 := by simpa [State.dividing] using hd
  rcases hopc with hc | hd
  · simp [State.nonRestoring, hc] at hn
  · exact hd

/-- A `work` step stays within the operation or ends it. -/
theorem work_phase {s t : State} (h : work s = .next t) :
    (t.phase = .mstep → s.phase = .mstep) ∧ (t.inDivision = true → s.inDivision = true) ∧
      (t.phase = .dcorr → s.nonRestoring = true) := by
  obtain ⟨hp, rfl⟩ | ⟨hp, rfl⟩ | ⟨hp, -, rfl⟩ | ⟨hp, -, rfl⟩ | ⟨hp, -, rfl⟩ | ⟨hp, -, rfl⟩ |
    ⟨hp, -, rfl⟩ | ⟨hp, -, rfl⟩ | ⟨hp, -, rfl⟩ := work_cases h
  · simp [hp]
  · simp [hp]
  · rcases mstepMulb2_phase s with ht | ht <;> simp [State.inDivision, State.working, ht, hp]
  · rcases mstepMulb4_phase s with ht | ht <;> simp [State.inDivision, State.working, ht, hp]
  · simp [State.inDivision, State.working, hp]
  · simp [State.inDivision, State.working, hp]
  · obtain ht | ht | ⟨ht, hn⟩ := dset_phase s
    · simp [State.inDivision, State.working, ht, hp]
    · simp [State.inDivision, State.working, ht, hp]
    · simp [State.inDivision, State.working, ht, hp, hn]
  · simp [State.inDivision, State.working, hp, dcorr]
  · simp [State.inDivision, State.working, hp, dfinal]

theorem OpcodeFits.work_next {s : State} (h : OpcodeFits s) : ∃ t, work s = .next t := by
  have hdiv := h.div_opcode
  unfold work divStep
  cases hp : s.phase with
  | idle => exact ⟨s, rfl⟩
  | resp => exact ⟨s, rfl⟩
  | mstep => rcases h.mul_opcode hp with ho | ho <;> simp [ho]
  | dcorr => simp [h.corr_opcode hp]
  | dshift | darith | dset | dfinal => simp [hdiv (by simp [State.inDivision, State.working, hp])]

theorem OpcodeFits.of_work {s t : State} (h : OpcodeFits s) (hw : work s = .next t) : OpcodeFits t := by
  have hopc : t.opc = s.opc := congrArg Prod.fst (work_setting hw)
  obtain ⟨hmul, hdiv, hcorr⟩ := work_phase hw
  refine ⟨fun hp => ?_, fun hd => ?_, fun hp => ?_⟩
  · rw [hopc]; exact h.mul_opcode (hmul hp)
  · rw [State.dividing, hopc]; exact h.div_opcode (hdiv hd)
  · have hd : s.dividing = true := h.div_opcode (hdiv (by simp [State.inDivision, State.working, hp]))
    rw [hopc]; exact opc_of_dividing_of_nonRestoring hd (hcorr hp)

theorem opcodeFits_loadOf (i : Instr) (s : State) : OpcodeFits (loadOf i (beginCommand i.opcode s)) := by
  cases i with
  | padt | neg | adds | shl0 | dec => exact .of_not_working rfl
  | mulb2 => exact ⟨fun _ => .inl rfl, (nomatch ·), (nomatch ·)⟩
  | mulb4 => exact ⟨fun _ => .inr rfl, (nomatch ·), (nomatch ·)⟩
  | divr | divnr => exact ⟨(nomatch ·), fun _ => rfl, (nomatch ·)⟩

theorem OpcodeFits.of_present {c : Command} {s t : State} (h : OpcodeFits s) (hc : present c s = .next t) :
    OpcodeFits t := by
  obtain ⟨-, rfl⟩ | ⟨op, e, rfl⟩ | ⟨i, rfl⟩ := present_cases hc
  · exact h
  · exact .of_not_working rfl
  · exact opcodeFits_loadOf i s

theorem accept_next (op : BitVec 4) (err : Option ErrInfo) (load : State → State) (s : State) :
    ∃ t, accept op err load s = .next t := by
  by_cases hp : s.phase = .idle
  · cases err with
    | none => exact ⟨_, accept_idle_none hp⟩
    | some e => exact ⟨_, accept_idle_some hp⟩
  · exact ⟨_, accept_busy hp⟩

theorem present_next (c : Command) (s : State) : ∃ t, present c s = .next t := by
  unfold present
  split
  · rw [exec_eq_accept]; exact accept_next _ _ _ s
  · exact accept_next _ _ _ s

theorem OpcodeFits.of_takeResponse {s : State} (h : OpcodeFits s) : OpcodeFits (takeResponse s) := by
  unfold takeResponse
  split_ifs
  · exact .of_not_working rfl
  · exact h

/-- Every step from a state whose opcode fits its phase answers a next state, and the opcode fits that one. -/
theorem OpcodeFits.act_next {s : State} (h : OpcodeFits s) (a : HostAction) :
    ∃ t, act a s = .next t ∧ OpcodeFits t := by
  cases a with
  | command c =>
    obtain ⟨t, ht⟩ := present_next c s
    exact ⟨t, ht, h.of_present ht⟩
  | take => exact ⟨_, rfl, h.of_takeResponse⟩
  | reset => exact ⟨_, rfl, .of_not_working rfl⟩
  | nothing =>
    obtain ⟨t, ht⟩ := h.work_next
    exact ⟨t, ht, h.of_work ht⟩

theorem OpcodeFits.withHost {s : State} (h : OpcodeFits s) (rest : List HostAction) :
    OpcodeFits { s with host := rest } :=
  ⟨h.mul_opcode, h.div_opcode, h.corr_opcode⟩

theorem OpcodeFits.step_next {s : State} (h : OpcodeFits s) : ∃ t, step s = .next t ∧ OpcodeFits t := by
  unfold step
  cases s.host with
  | nil => exact h.act_next .nothing
  | cons a rest => exact (h.withHost rest).act_next a

end Sys2Proof.Machine
end

/-! ### What of the state the outputs can still depend on (R17, R40)

`State.live` clears every register that the phase's operation does not read before writing it. The `live` part of a
step's answer is a function of the `live` part of the state, so states that agree in it show the host the same for
ever after. -/

section
namespace Sys2Proof.Machine

/-- `s` with the multiplier's registers cleared, and with `captured` as the captured sign. -/
def State.forDivision (captured : Bool) (s : State) : State :=
  { s with
    wreg := 0, md := Vec.empty, mq := Vec.empty, p := Vec.empty, fa := 0, fb := 0, even := false, sgn := captured }

/-- `s` with the divider's registers cleared. -/
def State.forMultiplication (s : State) : State :=
  { s with nreg := 0, a := Vec.empty, q := Vec.empty, m := Vec.empty, qp := false, sgn := false }

/-- `s` with every register cleared that its operation does not read again before writing it. The captured sign
is read in `DARITH` alone, and by the non-restoring variant alone (R45, R229). -/
def State.live (s : State) : State :=
  match s.phase with
  | .idle | .resp => { s.forMultiplication.forDivision false with cnt := 0 }
  | .mstep => s.forMultiplication
  | .darith => s.forDivision (s.nonRestoring && s.sgn)
  | .dshift | .dset | .dcorr | .dfinal => s.forDivision false

/-- What a step answers, up to the registers that are cleared in `live`. -/
def liveResult (r : Result) : Result :=
  match r with
  | .next s => .next s.live
  | .fault f => .fault f
  | .refused f => .refused f

@[simp] theorem liveResult_next (s : State) : liveResult (.next s) = .next s.live := rfl

@[simp] theorem live_phase (s : State) : s.live.phase = s.phase := by
  unfold State.live; split <;> rfl

@[simp] theorem live_opc (s : State) : s.live.opc = s.opc := by
  unfold State.live; split <;> rfl

@[simp] theorem live_host (s : State) : s.live.host = s.host := by
  unfold State.live; split <;> rfl

@[simp] theorem observe_live (s : State) : s.live.observe = s.observe := by
  unfold State.live; split <;> rfl

@[simp] theorem resetBlock_live (s : State) : resetBlock s.live = resetBlock s := by
  unfold State.live; split <;> rfl

theorem live_withHost (s : State) (rest : List HostAction) :
    { s.live with host := rest } = State.live { s with host := rest } := by
  obtain ⟨phase⟩ := s
  cases phase <;> rfl

@[simp] theorem live_live (s : State) : s.live.live = s.live := by
  obtain ⟨phase⟩ := s
  cases phase with
  | darith => simp [State.live, State.forDivision, State.nonRestoring]
  | idle | resp | mstep | dshift | dset | dcorr | dfinal => rfl

/-- The divider's registers are not live outside a division. -/
theorem live_forMultiplication {s : State} (h : s.inDivision = false) : s.forMultiplication.live = s.live := by
  obtain ⟨phase⟩ := s
  cases phase with
  | idle | resp | mstep => rfl
  | dshift | darith | dset | dcorr | dfinal => cases h

/-- The multiplier's registers are not live outside a multiplication, nor is the captured sign outside `DARITH`. -/
theorem live_forDivision {s : State} (hm : s.phase ≠ .mstep) (ha : s.phase ≠ .darith) (captured : Bool) :
    (s.forDivision captured).live = s.live := by
  obtain ⟨phase⟩ := s
  cases phase with
  | mstep => exact absurd rfl hm
  | darith => exact absurd rfl ha
  | idle | resp | dshift | dset | dcorr | dfinal => rfl

theorem recodeStep_forMultiplication (width shift : Nat) (d : Digit) (exam : BitVec 3) (s : State) :
    recodeStep width shift d exam s.forMultiplication = (recodeStep width shift d exam s).forMultiplication := by
  rw [recodeStep_eq, recodeStep_eq]; rfl

/-- A recoding step that neither reads nor writes the divider's registers depends on what is live. -/
theorem live_of_forMultiplication_comm {f : State → State} {s : State} (h : s.phase = .mstep)
    (hcomm : f s.forMultiplication = (f s).forMultiplication)
    (hphase : (f s).phase = s.phase ∨ (f s).phase = .resp) : (f s.live).live = (f s).live := by
  have hlive : s.live = s.forMultiplication := by simp only [State.live, h]
  have hout : (f s).inDivision = false := by
    rcases hphase with ht | ht <;> simp [State.inDivision, State.working, ht, h]
  rw [hlive, hcomm, live_forMultiplication hout]

theorem mstepMulb2_live {s : State} (h : s.phase = .mstep) : (mstepMulb2 s.live).live = (mstepMulb2 s).live := by
  refine live_of_forMultiplication_comm h ?_ (mstepMulb2_phase s)
  simp only [mstepMulb2, recodeStep_forMultiplication, apply_ite State.forMultiplication]
  rfl

theorem mstepMulb4_live {s : State} (h : s.phase = .mstep) : (mstepMulb4 s.live).live = (mstepMulb4 s).live := by
  refine live_of_forMultiplication_comm h ?_ (mstepMulb4_phase s)
  simp only [mstepMulb4, recodeStep_forMultiplication, apply_ite State.forMultiplication]
  rfl

/-- The sign that `DSHIFT` captures, where a later step reads it. -/
theorem live_dshift (s : State) : (dshift s).live = (dshift s).forDivision (s.nonRestoring && s.aNeg) := by
  have hsgn : ((dshift s).nonRestoring && (dshift s).sgn) = (s.nonRestoring && s.aNeg) := by
    change (s.nonRestoring && if s.nonRestoring then s.aNeg else s.sgn) = _
    cases s.nonRestoring <;> rfl
  simp only [State.live, dshift_phase, hsgn]

theorem dshift_live {s : State} (h : s.phase = .dshift) : (dshift s.live).live = (dshift s).live := by
  have hlive : s.live = s.forDivision false := by simp only [State.live, h]
  rw [live_dshift, live_dshift, hlive]
  rfl

theorem darith_live {s : State} (h : s.phase = .darith) : (darith s.live).live = (darith s).live := by
  have hlive : s.live = s.forDivision (s.nonRestoring && s.sgn) := by simp only [State.live, h]
  have hadds : (s.live.nonRestoring && s.live.sgn) = (s.nonRestoring && s.sgn) := by
    rw [hlive]; exact Bool.and_self_left s.nonRestoring s.sgn
  have hcomm : darith s.live = (darith s).forDivision (s.nonRestoring && s.sgn) := by
    simp only [darith, hadds, apply_ite (State.forDivision _)]
    rw [hlive]; rfl
  rw [hcomm, live_forDivision (by simp) (by simp)]

theorem advanceCycle_forDivision (captured : Bool) (s : State) :
    advanceCycle (s.forDivision captured) = (advanceCycle s).forDivision captured := by
  simp only [advanceCycle, apply_ite (State.forDivision captured)]; rfl

theorem dset_live {s : State} (h : s.phase = .dset) : (dset s.live).live = (dset s).live := by
  have hlive : s.live = s.forDivision false := by simp only [State.live, h]
  have hcomm : dset s.live = (dset s).forDivision false := by
    rw [hlive]
    simp only [dset, apply_ite (State.forDivision false), ← advanceCycle_forDivision]; rfl
  rw [hcomm]
  obtain hp | hp | ⟨hp, -⟩ := dset_phase s <;> exact live_forDivision (by simp [hp]) (by simp [hp]) false

theorem dcorr_live {s : State} (h : s.phase = .dcorr) : (dcorr s.live).live = (dcorr s).live := by
  obtain ⟨phase⟩ := s
  cases h
  rfl

theorem dfinal_live {s : State} (h : s.phase = .dfinal) : (dfinal s.live).live = (dfinal s).live := by
  obtain ⟨phase⟩ := s
  cases h
  rfl

theorem divStep_live {f : State → State} {s : State} (h : (f s.live).live = (f s).live) :
    liveResult (divStep f s.live) = liveResult (divStep f s) := by
  unfold divStep
  rw [State.dividing, live_opc, ← State.dividing]
  split_ifs
  · simp [h]
  · rfl

theorem work_live (s : State) : liveResult (work s.live) = liveResult (work s) := by
  unfold work
  rw [live_phase, live_opc]
  cases hp : s.phase with
  | idle | resp => simp
  | mstep =>
    dsimp only
    split_ifs
    · simp [mstepMulb2_live hp]
    · simp [mstepMulb4_live hp]
    · rfl
  | dshift => exact divStep_live (dshift_live hp)
  | darith => exact divStep_live (darith_live hp)
  | dset => exact divStep_live (dset_live hp)
  | dcorr =>
    dsimp only
    split_ifs
    · simp [dcorr_live hp]
    · rfl
  | dfinal => exact divStep_live (dfinal_live hp)

theorem live_loadOf_resetBlock (i : Instr) (s : State) :
    (loadOf i (beginCommand i.opcode s)).live = (loadOf i (beginCommand i.opcode (resetBlock s))).live := by
  cases i <;> rfl

/-- An idle block answers a command as the freshly reset block does. -/
theorem present_resetBlock (c : Command) {s : State} (h : s.phase = .idle) :
    liveResult (present c s) = liveResult (present c (resetBlock s)) := by
  have hreset : (resetBlock s).phase = .idle := rfl
  unfold present
  split
  next i _ =>
    rw [exec_eq_accept, exec_eq_accept, show (resetBlock s).params = s.params from rfl]
    cases errorOf s.params i with
    | none =>
      rw [accept_idle_none h, accept_idle_none hreset, liveResult_next, live_loadOf_resetBlock i s, liveResult_next]
    | some e => rw [accept_idle_some h, accept_idle_some hreset]; rfl
  next =>
    unfold rejectCommand
    rw [accept_idle_some h, accept_idle_some hreset]; rfl

theorem present_busy (c : Command) {s : State} (h : s.phase ≠ .idle) : present c s = .next s := by
  unfold present
  split
  · exact exec_busy h
  · exact accept_busy h

theorem present_live (c : Command) (s : State) : liveResult (present c s.live) = liveResult (present c s) := by
  by_cases h : s.phase = .idle
  · rw [present_resetBlock c h, present_resetBlock c (by rw [live_phase, h]), resetBlock_live]
  · rw [present_busy c h, present_busy c (by rwa [live_phase]), liveResult_next, live_live, liveResult_next]

theorem takeResponse_live (s : State) : (takeResponse s.live).live = (takeResponse s).live := by
  unfold takeResponse
  rw [live_phase]
  split_ifs with h
  · obtain ⟨phase⟩ := s
    cases h
    rfl
  · exact live_live s

theorem act_live (a : HostAction) (s : State) : liveResult (act a s.live) = liveResult (act a s) := by
  cases a with
  | command c => exact present_live c s
  | take => exact congrArg Host.Outcome.next (takeResponse_live s)
  | reset => exact congrArg (fun t => liveResult (.next t)) (resetBlock_live s)
  | nothing => exact work_live s

theorem step_live (s : State) : liveResult (step s.live) = liveResult (step s) := by
  cases hs : s.host with
  | nil => rw [step_nil hs, step_nil (by rw [live_host, hs]), work_live]
  | cons a rest =>
    rw [step_cons hs, step_cons (by rw [live_host, hs]), live_withHost, act_live]

/-- States that agree in what is live take steps to states that do. -/
theorem live_eq_of_step {s s' t t' : State} (hl : s.live = s'.live) (h : step s = .next t)
    (h' : step s' = .next t') : t.live = t'.live := by
  have hstep : liveResult (step s) = liveResult (step s') := by rw [← step_live, hl, step_live]
  rw [h, h'] at hstep
  exact Host.Outcome.next.inj hstep

theorem observeRun_succ {k : Nat} {s t : State} (h : step s = .next t) :
    observeRun (k + 1) s = observeRun k t := by
  unfold observeRun
  rw [run_succ h]

/-- The host sees the same of two states that agree in what is live, for as long as they run. -/
theorem observeRun_eq_of_live_eq (k : Nat) {s s' : State} (h : OpcodeFits s) (h' : OpcodeFits s')
    (hl : s.live = s'.live) : ∃ o, observeRun k s = some o ∧ observeRun k s' = some o := by
  induction k generalizing s s' with
  | zero => exact ⟨s.observe, rfl, by rw [← observe_live s, hl, observe_live]; rfl⟩
  | succ k ih =>
    obtain ⟨t, hs, ht⟩ := h.step_next
    obtain ⟨t', hs', ht'⟩ := h'.step_next
    rw [observeRun_succ hs, observeRun_succ hs']
    exact ih ht ht' (live_eq_of_step hl hs hs')

/-- The first step of a command brings two idle blocks with the same parameters into agreement in what is live, by
way of the block that a reset would give, which is the same for both. -/
theorem live_eq_of_step_command {s s' t t' : State} {c : Command} {rest : List HostAction}
    (hidle : s.phase = .idle) (hidle' : s'.phase = .idle) (hparams : s.params = s'.params)
    (hhost : s.host = .command c :: rest) (hhost' : s'.host = .command c :: rest)
    (hs : step s = .next t) (hs' : step s' = .next t') : t.live = t'.live := by
  rw [step_cons hhost] at hs
  rw [step_cons hhost'] at hs'
  have hreset : resetBlock { s with host := rest } = resetBlock { s' with host := rest } := by
    simp only [resetBlock, hparams]
  have hanswer : liveResult (.next t) = liveResult (.next t') :=
    calc
      liveResult (.next t) = liveResult (present c { s with host := rest }) := congrArg liveResult hs.symm
      _ = liveResult (present c (resetBlock { s with host := rest })) := present_resetBlock c hidle
      _ = liveResult (present c (resetBlock { s' with host := rest })) := by rw [hreset]
      _ = liveResult (present c { s' with host := rest }) :=
        (present_resetBlock (s := { s' with host := rest }) c hidle').symm
      _ = liveResult (.next t') := congrArg liveResult hs'
  exact Host.Outcome.next.inj hanswer

/-- Settles O57: after the command's own step the two blocks agree in what is live, and from there on the host sees
the same of both. -/
theorem outputsDependOnlyOnTheCommand : Obligations.OutputsDependOnlyOnTheCommand := by
  intro s s' c rest k hidle hidle' hparams hhost hhost' hk
  obtain ⟨k, rfl⟩ := Nat.exists_eq_add_of_le' hk
  have hfits : OpcodeFits s := .of_not_working (by simp [State.working, hidle])
  have hfits' : OpcodeFits s' := .of_not_working (by simp [State.working, hidle'])
  obtain ⟨t, hs, ht⟩ := hfits.step_next
  obtain ⟨t', hs', ht'⟩ := hfits'.step_next
  rw [observeRun_succ hs, observeRun_succ hs']
  exact observeRun_eq_of_live_eq k ht ht'
    (live_eq_of_step_command hidle hidle' hparams hhost (hhost'.trans hhost) hs hs')

end Sys2Proof.Machine
end

/-! ### One step of each kind (R32) -/

section
namespace Sys2Proof.Machine

/-- Settles O4: the head of the host's list is the command, and its byte decodes. -/
theorem stepRunsTheDecodedInstruction : Obligations.StepRunsTheDecodedInstruction := by
  intro s c rest i hhost hdecode
  rw [step_cons hhost, act, present, hdecode]

/-- Settles O5: the host's list is empty, or its head is to do nothing. -/
theorem stepWithoutHostActionIsWork : Obligations.StepWithoutHostActionIsWork :=
  fun _ => ⟨step_nil, fun _ hhost => step_cons hhost⟩

theorem takeResponse_of_resp {s : State} (h : s.phase = .resp) :
    takeResponse s = { s with phase := .idle, rspState := .taken } := if_pos h

theorem takeResponse_of_not_resp {s : State} (h : s.phase ≠ .resp) : takeResponse s = s := if_neg h

/-- Settles O8: a take has a transition in `RESP` alone. -/
theorem takeReturnsToIdle : Obligations.TakeReturnsToIdle := by
  intro s rest hhost
  rw [step_cons hhost, act]
  exact ⟨fun hp => congrArg _ (takeResponse_of_resp hp), fun hp => congrArg _ (takeResponse_of_not_resp hp)⟩

/-- Settles O11: each value stands in the definition. -/
theorem resetStateIsIdleAndEmpty : Obligations.ResetStateIsIdleAndEmpty :=
  ⟨rfl, rfl, rfl, rfl, rfl, rfl, rfl, rfl⟩

/-- A command byte that is no operation raises an error in an idle block. -/
theorem rejectCommand_cases {c : Command} {s t : State} (h : rejectCommand c s = .next t) :
    t = s ∨ ∃ op e, t = State.errored op e s := by
  unfold rejectCommand at h
  by_cases hp : s.phase = .idle
  · rw [accept_idle_some hp] at h
    cases h
    exact .inr ⟨_, _, rfl⟩
  · rw [accept_busy hp] at h
    cases h
    exact .inl rfl

/-- A predicate that everything keeps of which a step is made: using up the host's action, error entry, the load of an
instruction whose validation passes, a take in `RESP`, a reset and a `work` step. -/
structure KeptByParts (I : State → Prop) : Prop where
  host : ∀ {s} rest, I s → I { s with host := rest }
  errored : ∀ {s} op e, I s → I (State.errored op e s)
  load : ∀ {s} i, I s → errorOf s.params i = none → I (loadOf i (beginCommand i.opcode s))
  take : ∀ {s}, I s → s.phase = .resp → I { s with phase := .idle, rspState := .taken }
  reset : ∀ {s}, I s → I (resetBlock s)
  work : ∀ {s t}, I s → work s = .next t → I t

namespace KeptByParts

variable {I : State → Prop} {s t : State}

theorem present (hI : KeptByParts I) {c : Command} (hs : I s) (h : present c s = .next t) : I t := by
  unfold Machine.present at h
  split at h
  · obtain ⟨-, rfl⟩ | ⟨-, e, -, rfl⟩ | ⟨-, hvalid, rfl⟩ := exec_cases h
    · exact hs
    · exact hI.errored _ e hs
    · exact hI.load _ hs hvalid
  · obtain rfl | ⟨op, e, rfl⟩ := rejectCommand_cases h
    · exact hs
    · exact hI.errored op e hs

theorem act (hI : KeptByParts I) {a : HostAction} (hs : I s) (h : act a s = .next t) : I t := by
  cases a with
  | command c => exact hI.present hs h
  | take =>
    cases h
    by_cases hp : s.phase = .resp
    · rw [takeResponse_of_resp hp]; exact hI.take hs hp
    · rwa [takeResponse_of_not_resp hp]
  | reset => cases h; exact hI.reset hs
  | nothing => exact hI.work hs h

/-- What the parts keep, every step keeps. -/
theorem step (hI : KeptByParts I) (hs : I s) (h : step s = .next t) : I t := by
  obtain ⟨a, rest, hact⟩ := step_cases h
  exact hI.act (hI.host rest hs) hact

end KeptByParts

end Sys2Proof.Machine
end

/-! ### The recoding steps of both multipliers as one operation -/

section
namespace Sys2Proof.Machine

/-- One `MSTEP` step of either multiplier, with the widths and counts of the multiplication in progress: a recoding
step for the digit `d`, then `CNT` advances or the product is answered. -/
def recodeAdvance (d : Digit) (exam : BitVec 3) (flag : Bool) (s : State) : State :=
  let s' := recodeStep s.accWidth s.recoded d exam s
  if s.cnt + 1 < s.recodeSteps then { s' with cnt := s.cnt + 1 } else respond (productResponse flag s') s'

theorem recodeAdvance_of_lt {d : Digit} {exam : BitVec 3} {flag : Bool} {s : State}
    (h : s.cnt + 1 < s.recodeSteps) :
    recodeAdvance d exam flag s = { recodeStep s.accWidth s.recoded d exam s with cnt := s.cnt + 1 } := if_pos h

theorem recodeAdvance_of_not_lt {d : Digit} {exam : BitVec 3} {flag : Bool} {s : State}
    (h : ¬ s.cnt + 1 < s.recodeSteps) :
    recodeAdvance d exam flag s = respond (productResponse flag (recodeStep s.accWidth s.recoded d exam s))
      (recodeStep s.accWidth s.recoded d exam s) := if_neg h

theorem mstepMulb2_eq_recodeAdvance {s : State} (h : s.opc = 0x8#4) :
    mstepMulb2 s = recodeAdvance (boothDigit (s.mq.bit (s.cnt + 1)) (s.mq.bit s.cnt))
      (examBits false (s.mq.bit (s.cnt + 1)) (s.mq.bit s.cnt)) false s := by
  simp only [mstepMulb2, recodeAdvance, State.accWidth, State.recoded, State.recodeSteps, h, if_true]

theorem mstepMulb4_eq_recodeAdvance {s : State} (h : s.opc = 0x9#4) :
    mstepMulb4 s =
      recodeAdvance (bitPairDigit (s.mq.bit (2 * s.cnt + 2)) (s.mq.bit (2 * s.cnt + 1)) (s.mq.bit (2 * s.cnt)))
        (examBits (s.mq.bit (2 * s.cnt + 2)) (s.mq.bit (2 * s.cnt + 1)) (s.mq.bit (2 * s.cnt))) s.even s := by
  have hne : s.opc ≠ 0x8#4 := by rw [h]; decide
  simp only [mstepMulb4, recodeAdvance, State.accWidth, State.recoded, State.recodeSteps, hne, if_false]

/-- What a multiplication reads and never writes. -/
def State.mulOperands (s : State) : Vec × Vec × Nat × Nat × Nat × Bool := (s.md, s.mq, s.wreg, s.fa, s.fb, s.even)

theorem recodeAdvance_frame (d : Digit) (exam : BitVec 3) (flag : Bool) (s : State) :
    (recodeAdvance d exam flag s).divRegs = s.divRegs ∧
      (recodeAdvance d exam flag s).mulOperands = s.mulOperands := by
  simp only [recodeAdvance, recodeStep_eq]
  split_ifs <;> exact ⟨rfl, rfl⟩

theorem recodeAdvance_trace (d : Digit) (exam : BitVec 3) (flag : Bool) (s : State) :
    ∃ r, (recodeAdvance d exam flag s).trace = s.trace ++ [r] := by
  simp only [recodeAdvance, recodeStep_eq]
  split_ifs <;> exact ⟨_, rfl⟩

end Sys2Proof.Machine
end

/-! ### `DSET` as the setting of the quotient bit and the advance (R230 to R232) -/

section
namespace Sys2Proof.Machine

/-- `DSET` up to its advance. -/
def setQuotientBit (s : State) : State :=
  if s.aNeg then
    if s.nonRestoring then emitCycle .set0 { s with q := s.q.writeBit0 false, qp := false }
    else emitCycle .restore { s with q := s.q.writeBit0 false, a := s.aPlusM, qp := false }
  else emitCycle .set1 { s with q := s.q.writeBit0 true, qp := false }

theorem dset_eq (s : State) : dset s = advanceCycle (setQuotientBit s) := by
  unfold dset setQuotientBit
  split_ifs <;> rfl

/-- What a division never writes: the multiplier's registers, `M` and `NREG`. -/
def State.divOperands (s : State) : (Nat × Vec × Vec × Vec × Nat × Nat × Bool) × Vec × Nat :=
  (s.mulRegs, s.m, s.nreg)

theorem darith_divOperands (s : State) : (darith s).divOperands = s.divOperands := by
  unfold darith; split_ifs <;> rfl

theorem advanceCycle_divOperands (s : State) : (advanceCycle s).divOperands = s.divOperands := by
  unfold advanceCycle; split_ifs <;> rfl

theorem setQuotientBit_divOperands (s : State) : (setQuotientBit s).divOperands = s.divOperands := by
  unfold setQuotientBit; split_ifs <;> rfl

theorem dset_divOperands (s : State) : (dset s).divOperands = s.divOperands := by
  rw [dset_eq, advanceCycle_divOperands, setQuotientBit_divOperands]

theorem darith_trace (s : State) : ∃ r, (darith s).trace = s.trace ++ [r] := by
  unfold darith; split_ifs <;> exact ⟨_, rfl⟩

theorem setQuotientBit_trace (s : State) : ∃ r, (setQuotientBit s).trace = s.trace ++ [r] := by
  unfold setQuotientBit; split_ifs <;> exact ⟨_, rfl⟩

theorem dset_trace (s : State) : ∃ r, (dset s).trace = s.trace ++ [r] := by
  rw [dset_eq, advanceCycle_trace]; exact setQuotientBit_trace s

end Sys2Proof.Machine
end

/-! ### What a `work` step appends and what it leaves -/

section
namespace Sys2Proof.Machine

theorem work_eq_self_of_not_working {s t : State} (h : work s = .next t) (hw : s.working = false) : t = s := by
  obtain ⟨-, rfl⟩ | ⟨-, rfl⟩ | ⟨hp, -⟩ | ⟨hp, -⟩ | ⟨hp, -⟩ | ⟨hp, -⟩ | ⟨hp, -⟩ | ⟨hp, -⟩ | ⟨hp, -⟩ := work_cases h
  iterate 2 rfl
  all_goals simp [State.working, hp] at hw

theorem work_trace {s t : State} (h : work s = .next t) (hw : s.working = true) :
    ∃ r, t.trace = s.trace ++ [r] := by
  obtain ⟨hp, -⟩ | ⟨hp, -⟩ | ⟨-, ho, rfl⟩ | ⟨-, ho, rfl⟩ | ⟨-, -, rfl⟩ | ⟨-, -, rfl⟩ | ⟨-, -, rfl⟩ |
    ⟨-, -, rfl⟩ | ⟨-, -, rfl⟩ := work_cases h
  · simp [State.working, hp] at hw
  · simp [State.working, hp] at hw
  · rw [mstepMulb2_eq_recodeAdvance ho]; exact recodeAdvance_trace _ _ _ s
  · rw [mstepMulb4_eq_recodeAdvance ho]; exact recodeAdvance_trace _ _ _ s
  · exact ⟨_, rfl⟩
  · exact darith_trace s
  · exact dset_trace s
  · exact ⟨_, rfl⟩
  · exact ⟨_, rfl⟩

/-- Settles O54: each operation's step emits once, and the block waits in `IDLE` and `RESP`. -/
theorem workStepsAppendOneRow : Obligations.WorkStepsAppendOneRow :=
  fun _ _ h => ⟨work_trace h, work_eq_self_of_not_working h⟩

theorem work_mstep_frame {s t : State} (h : work s = .next t) (hp : s.phase = .mstep) :
    t.divRegs = s.divRegs ∧ t.mulOperands = s.mulOperands := by
  obtain ⟨hp', -⟩ | ⟨hp', -⟩ | ⟨-, ho, rfl⟩ | ⟨-, ho, rfl⟩ | ⟨hp', -⟩ | ⟨hp', -⟩ | ⟨hp', -⟩ | ⟨hp', -⟩ |
    ⟨hp', -⟩ := work_cases h
  case inr.inr.inl => rw [mstepMulb2_eq_recodeAdvance ho]; exact recodeAdvance_frame _ _ _ s
  case inr.inr.inr.inl => rw [mstepMulb4_eq_recodeAdvance ho]; exact recodeAdvance_frame _ _ _ s
  all_goals simp [hp] at hp'

theorem work_division_frame {s t : State} (h : work s = .next t) (hd : s.inDivision = true) :
    t.divOperands = s.divOperands := by
  obtain ⟨-, rfl⟩ | ⟨-, rfl⟩ | ⟨hp, -⟩ | ⟨hp, -⟩ | ⟨-, -, rfl⟩ | ⟨-, -, rfl⟩ | ⟨-, -, rfl⟩ |
    ⟨-, -, rfl⟩ | ⟨-, -, rfl⟩ := work_cases h
  · rfl
  · rfl
  · simp [State.inDivision, hp] at hd
  · simp [State.inDivision, hp] at hd
  · rfl
  · exact darith_divOperands s
  · exact dset_divOperands s
  · rfl
  · rfl

/-- Settles O56: the frames of the two kinds of operation and of every `work` step. -/
theorem workStepFrame : Obligations.WorkStepFrame := by
  intro s t h
  have hsetting := work_setting h
  have hmul := work_mstep_frame h
  have hdiv := work_division_frame h
  simp only [State.setting, State.mulOperands, State.divOperands, Prod.mk.injEq] at hsetting hmul hdiv
  obtain ⟨hopc, hparams, hhost⟩ := hsetting
  refine ⟨hopc, hparams, hhost, fun hp => ?_, hdiv⟩
  obtain ⟨hregs, hmd, hmq, hwreg, hfa, hfb, heven⟩ := hmul hp
  exact ⟨hregs, hmd, hmq, hwreg, hfa, hfb, heven⟩

end Sys2Proof.Machine
end

/-! ### The control invariant (R31, R32, R47) -/

section
namespace Sys2Proof.Machine

/-- The response register's part of the control invariant (R47). -/
structure ResponseFits (s : State) : Prop where
  valid_iff : s.rspState = .valid ↔ s.phase = .resp
  clear : s.working = true → s.rspState = .invalid
  invalid_zero : s.rspState = .invalid → s.rsp = {}

theorem controlInv_iff (s : State) :
    ControlInv s ↔ s.params.positive = true ∧ ResponseFits s ∧ OpcodeFits s :=
  ⟨fun h => ⟨h.positive, ⟨h.valid_iff, h.clear, h.invalid_zero⟩, h.opcodeFits⟩,
    fun ⟨hpos, hrsp, hopc⟩ => ⟨hpos, hrsp.valid_iff, hrsp.clear, hrsp.invalid_zero, hopc.mul_opcode,
      hopc.div_opcode, hopc.corr_opcode⟩⟩

theorem ResponseFits.of_answered {s : State} (hp : s.phase = .resp) (hv : s.rspState = .valid) :
    ResponseFits s := by
  constructor <;> simp [State.working, hp, hv]

theorem ResponseFits.of_clear {s : State} (hp : s.phase ≠ .resp) (hv : s.rspState = .invalid) (hr : s.rsp = {}) :
    ResponseFits s := by
  constructor <;> simp [hp, hv, hr]

/-- The response register as the host reads it, with its validity. -/
def State.response (s : State) : Response × RspState := (s.rsp, s.rspState)

/-- A `work` step answers, or leaves the response register as it is in an operation that goes on. -/
def ContinuesOrAnswers (s t : State) : Prop :=
  (t.phase ≠ .resp ∧ t.response = s.response) ∨ (t.phase = .resp ∧ t.rspState = .valid)

theorem recodeAdvance_response (d : Digit) (exam : BitVec 3) (flag : Bool) {s : State} (hp : s.phase = .mstep) :
    ContinuesOrAnswers s (recodeAdvance d exam flag s) := by
  by_cases hlast : s.cnt + 1 < s.recodeSteps
  · rw [recodeAdvance_of_lt hlast, recodeStep_eq]
    exact .inl ⟨by simp [hp], rfl⟩
  · rw [recodeAdvance_of_not_lt hlast]
    exact .inr ⟨rfl, rfl⟩

theorem darith_response (s : State) : (darith s).response = s.response := by
  unfold darith; split_ifs <;> rfl

theorem dset_response (s : State) : (dset s).response = s.response := by
  unfold dset advanceCycle; split_ifs <;> rfl

theorem work_response {s t : State} (h : work s = .next t) (hw : s.working = true) : ContinuesOrAnswers s t := by
  obtain ⟨hp, -⟩ | ⟨hp, -⟩ | ⟨hp, ho, rfl⟩ | ⟨hp, ho, rfl⟩ | ⟨-, -, rfl⟩ | ⟨-, -, rfl⟩ | ⟨-, -, rfl⟩ |
    ⟨-, -, rfl⟩ | ⟨-, -, rfl⟩ := work_cases h
  · simp [State.working, hp] at hw
  · simp [State.working, hp] at hw
  · rw [mstepMulb2_eq_recodeAdvance ho]; exact recodeAdvance_response _ _ _ hp
  · rw [mstepMulb4_eq_recodeAdvance ho]; exact recodeAdvance_response _ _ _ hp
  · exact .inl ⟨by simp, rfl⟩
  · exact .inl ⟨by simp, darith_response s⟩
  · refine .inl ⟨?_, dset_response s⟩
    obtain ht | ht | ⟨ht, -⟩ := dset_phase s <;> simp [ht]
  · exact .inl ⟨nofun, rfl⟩
  · exact .inr ⟨rfl, rfl⟩

theorem ResponseFits.of_work {s t : State} (h : ResponseFits s) (hwork : Machine.work s = .next t) :
    ResponseFits t := by
  cases hw : s.working with
  | false => rwa [work_eq_self_of_not_working hwork hw]
  | true =>
    have hclear := h.clear hw
    obtain ⟨hp, hrsp⟩ | ⟨hp, hv⟩ := work_response hwork hw
    · simp only [State.response, Prod.mk.injEq] at hrsp
      exact .of_clear hp (hrsp.2.trans hclear) (hrsp.1.trans (h.invalid_zero hclear))
    · exact .of_answered hp hv

/-- A load answers, or leaves the response that `accept` cleared. -/
theorem responseFits_loadOf (i : Instr) (s : State) : ResponseFits (loadOf i (beginCommand i.opcode s)) := by
  cases i with
  | padt | neg | adds | shl0 | dec => exact .of_answered rfl rfl
  | mulb2 | mulb4 | divr | divnr => exact .of_clear nofun rfl rfl

theorem controlInv_keptByParts : KeptByParts ControlInv := by
  constructor <;> simp only [controlInv_iff]
  case host =>
    rintro s rest ⟨hpos, hrsp, hopc⟩
    exact ⟨hpos, ⟨hrsp.valid_iff, hrsp.clear, hrsp.invalid_zero⟩, hopc.withHost rest⟩
  case errored =>
    rintro s op e ⟨hpos, -, -⟩
    exact ⟨hpos, .of_answered rfl rfl, .of_not_working rfl⟩
  case load =>
    rintro s i ⟨hpos, -, -⟩ -
    exact ⟨by simpa using hpos, responseFits_loadOf i s, opcodeFits_loadOf i s⟩
  case take =>
    rintro s ⟨hpos, -, -⟩ -
    exact ⟨hpos, ⟨by simp, by simp [State.working], by simp⟩, .of_not_working rfl⟩
  case reset =>
    rintro s ⟨hpos, -, -⟩
    exact ⟨hpos, .of_clear nofun rfl rfl, .of_not_working rfl⟩
  case work =>
    rintro s t ⟨hpos, hrsp, hopc⟩ hwork
    have hparams : t.params = s.params := congrArg (·.2.1) (work_setting hwork)
    exact ⟨by rwa [hparams], hrsp.of_work hwork, hopc.of_work hwork⟩

/-- Settles O49: the parts of a step keep the parameters, the response's validity and the fit of the opcode. -/
theorem stepKeepsControlInvariant : Obligations.StepKeepsControlInvariant :=
  fun _ _ hs h => controlInv_keptByParts.step hs h

end Sys2Proof.Machine
end

/-! ### The multiplier invariant (R34 to R39, R168, R197)

A recoding step multiplies the multiplicand by one digit and adds it at the position of the bits recoded so far, so the
accumulator holds the product with one more digit of the multiplier. -/

section
namespace Sys2Proof

/-- One place of sign extension repeats the top bit. -/
theorem Vec.bit_append_sext_top (v : Vec) (h : 1 ≤ v.len) (b : Bool) :
    ((v.sext (v.len + 1)).append (Vec.ofBit b)).bit (v.len + 1) =
      ((v.sext (v.len + 1)).append (Vec.ofBit b)).bit v.len := by
  rw [Vec.bit_append, Vec.bit_append, if_neg (by simp), if_neg (by simp; omega)]
  change (v.sext (v.len + 1)).bit v.len = (v.sext (v.len + 1)).bit (v.len - 1)
  rw [Vec.bit_sext (by omega) (by omega), Vec.bit_sext (by omega) (by omega), if_neg (by omega),
    if_pos (by omega)]

end Sys2Proof

namespace Sys2Proof.Machine

theorem boothDigit_val (hi lo : Bool) : (boothDigit hi lo).val = bitVal lo - bitVal hi := by
  cases hi <;> cases lo <;> rfl

theorem bitPairDigit_val (b2 b1 b0 : Bool) :
    (bitPairDigit b2 b1 b0).val = bitVal b0 + bitVal b1 - 2 * bitVal b2 := by
  cases b2 <;> cases b1 <;> cases b0 <;> rfl

/-- The multiplier bits recoded once the step in progress is done. -/
def State.recodedNext (s : State) : Nat := if s.opc = 0x8#4 then s.cnt + 1 else 2 * (s.cnt + 1)

/-- `d` is the digit by which the step in progress extends the multiplier recoded so far. -/
def State.NextDigit (s : State) (d : Digit) : Prop :=
  (s.mq.slice 1 s.recodedNext).sint = (s.mq.slice 1 s.recoded).sint + d.val * 2 ^ s.recoded

theorem nextDigit_mulb2 {s : State} (ho : s.opc = 0x8#4) (h0 : s.mq.bit 0 = false) :
    s.NextDigit (boothDigit (s.mq.bit (s.cnt + 1)) (s.mq.bit s.cnt)) := by
  rw [State.NextDigit, State.recodedNext, State.recoded, if_pos ho, if_pos ho, Vec.sint_slice_succ _ _ h0,
    boothDigit_val]

theorem nextDigit_mulb4 {s : State} (ho : s.opc ≠ 0x8#4) (h0 : s.mq.bit 0 = false) :
    s.NextDigit
      (bitPairDigit (s.mq.bit (2 * s.cnt + 2)) (s.mq.bit (2 * s.cnt + 1)) (s.mq.bit (2 * s.cnt))) := by
  rw [State.NextDigit, State.recodedNext, State.recoded, if_neg ho, if_neg ho,
    show 2 * (s.cnt + 1) = 2 * s.cnt + 1 + 1 by ring, Vec.sint_slice_succ _ _ h0, Vec.sint_slice_succ _ _ h0,
    bitPairDigit_val, pow_succ]
  ring

/-- The accumulator after a recoding step, for every digit: a step for the digit 0 adds nothing. -/
theorem recodeStep_p {s : State} {d : Digit} {width shift : Nat} {exam : BitVec 3} {x : Int} (hp : s.p = bv width x)
    (hshift : shift ≤ width) : (recodeStep width shift d exam s).p = bv width (x + d.val * s.md.sint * 2 ^ shift) := by
  rw [recodeStep_eq]
  dsimp only
  split_ifs with hd
  · rw [hp, hd]; simp
  · rw [hp, bv_add_partialProduct hshift]

theorem recoded_le_accWidth {s : State} (h : s.cnt < s.recodeSteps) : s.recoded ≤ s.accWidth := by
  unfold State.recodeSteps pairCount at h
  unfold State.recoded State.accWidth
  split_ifs at h ⊢ <;> omega

/-- One more step recodes everything exactly when it is the last. -/
theorem recodedNext_of_last {s : State} (h : s.cnt + 1 = s.recodeSteps) : s.recodedNext = s.multiplierBits := by
  unfold State.recodeSteps at h
  unfold State.recodedNext State.multiplierBits
  rw [pairedLength_eq]
  split_ifs at h ⊢ <;> rw [h]

namespace MulRunning

variable {s : State} (h : MulRunning s)
include h

theorem recodeStep_p {d : Digit} (hd : s.NextDigit d) (exam : BitVec 3) :
    (recodeStep s.accWidth s.recoded d exam s).p =
      bv s.accWidth (s.md.sint * (s.mq.slice 1 s.recodedNext).sint) := by
  rw [Machine.recodeStep_p h.product (recoded_le_accWidth h.cnt_lt), hd]
  congr 1
  ring

/-- The parity bit adds nothing: the paired multiplier has the multiplier's value (R192). -/
theorem sint_multiplierBits : (s.mq.slice 1 s.multiplierBits).sint = (s.mq.slice 1 s.wreg).sint := by
  unfold State.multiplierBits pairedLength
  split_ifs with ho hodd
  · rfl
  · have hparity := h.parity (h.opcode.resolve_left ho) hodd
    rw [Vec.sint_slice_succ _ _ h.q_minus_one, hparity]
    simp
  · rfl

/-- The accumulator holds every product of two words of the word length. -/
theorem sint_product (v : Vec) (hv : v.len = s.wreg) :
    (bv s.accWidth (s.md.sint * v.sint)).sint = s.md.sint * v.sint := by
  have hmd : s.md.len = s.wreg := h.md_len
  obtain ⟨hlo, hhi⟩ := product_fits (w := s.wreg) (hmd ▸ s.md.two_mul_sint_lt) (hmd ▸ s.md.le_two_mul_sint)
    (hv ▸ v.two_mul_sint_lt) (hv ▸ v.le_two_mul_sint)
  have hwidth : (2 ^ (2 * s.wreg) : Int) ≤ 2 ^ s.accWidth :=
    pow_le_pow_right₀ (by norm_num) (by unfold State.accWidth; split_ifs <;> omega)
  exact sint_bv_of_fits (by omega) (by omega)

/-- Before the last digit the step leads to the next recoding step. -/
theorem running_recodeAdvance {d : Digit} (hd : s.NextDigit d) (exam : BitVec 3) (flag : Bool)
    (hlast : s.cnt + 1 < s.recodeSteps) : MulRunning (recodeAdvance d exam flag s) := by
  have hproduct := h.recodeStep_p hd exam
  rw [recodeAdvance_of_lt hlast, recodeStep_eq] at *
  exact {
    opcode := h.opcode
    wreg_pos := h.wreg_pos
    wreg_le := h.wreg_le
    md_len := h.md_len
    mq_len := h.mq_len
    p_len := by rw [hproduct]; rfl
    cnt_lt := hlast
    fa_lt := h.fa_lt
    fb_lt := h.fb_lt
    even_eq := h.even_eq
    q_minus_one := h.q_minus_one
    parity := h.parity
    rows := by simp [h.rows]
    product := hproduct }

/-- The last digit answers the product. -/
theorem answered_recodeAdvance {d : Digit} (hd : s.NextDigit d) (exam : BitVec 3)
    (hlast : ¬ s.cnt + 1 < s.recodeSteps) : MulAnswered (recodeAdvance d exam s.even s) := by
  have hsteps : s.cnt + 1 = s.recodeSteps := by have := h.cnt_lt; omega
  have hproduct : (recodeStep s.accWidth s.recoded d exam s).p =
      bv s.accWidth (s.md.sint * (s.mq.slice 1 s.wreg).sint) := by
    rw [h.recodeStep_p hd, recodedNext_of_last hsteps, h.sint_multiplierBits]
  rw [recodeAdvance_of_not_lt hlast, recodeStep_eq] at *
  exact {
    vec_len := congrArg Vec.len hproduct
    vec_value := (congrArg Vec.sint hproduct).trans (h.sint_product _ rfl)
    frac := rfl
    flag := rfl }

theorem mulInv_recodeAdvance {d : Digit} (hd : s.NextDigit d) (exam : BitVec 3) (hphase : s.phase = .mstep) :
    MulInv (recodeAdvance d exam s.even s) := by
  by_cases hlast : s.cnt + 1 < s.recodeSteps
  · refine ⟨fun _ => h.running_recodeAdvance hd exam s.even hlast, fun hp => ?_⟩
    simp [recodeAdvance_of_lt hlast, recodeStep_eq, hphase] at hp
  · refine ⟨fun hp => ?_, fun _ _ _ => h.answered_recodeAdvance hd exam hlast⟩
    simp [recodeAdvance_of_not_lt hlast] at hp

end MulRunning

/-- Where no multiplication is in progress or answered OK the invariant says nothing. -/
theorem MulInv.of_not_multiplying {s : State} (hp : s.phase ≠ .mstep)
    (ha : s.phase = .resp → s.rsp.status = .ok → s.opc ≠ 0x8#4 ∧ s.opc ≠ 0x9#4) : MulInv s :=
  ⟨fun h => absurd h hp, fun hr hok ho => absurd ho (not_or.mpr (ha hr hok))⟩

theorem MulInv.withHost {s : State} (h : MulInv s) (rest : List HostAction) : MulInv { s with host := rest } where
  running hp :=
    have hr := h.running hp
    { hr with }
  answer hp hok ho :=
    have ha := h.answer hp hok ho
    { ha with }

/-- A valid `MULB2` request starts a multiplication (R163, R164). -/
theorem mulRunning_loadMulb2 {a b : VecDesc} {n : LenDesc} {s : State} (hv : ValidMul s.params a b n) :
    MulRunning (loadMulb2 a b n (beginCommand 0x8#4 s)) where
  opcode := .inl rfl
  wreg_pos := hv.word_ok.2.1
  wreg_le := hv.word_ok.2.2
  md_len := rfl
  mq_len := rfl
  p_len := rfl
  cnt_lt := hv.word_ok.2.1
  fa_lt := hv.a_ok.2.2.trans_le hv.a_fits
  fb_lt := hv.b_ok.2.2.trans_le hv.b_fits
  even_eq := rfl
  q_minus_one := by simp [loadMulb2, Vec.bit_append]
  parity ho := by simp [loadMulb2] at ho
  rows := rfl
  product := by simp [State.recoded, State.accWidth, loadMulb2]

/-- A valid `MULB4` request starts a multiplication (R192, R194); the parity bit is a copy of the sign. -/
theorem mulRunning_loadMulb4 {a b : VecDesc} {n : LenDesc} {s : State} (hv : ValidMul s.params a b n) :
    MulRunning (loadMulb4 a b n (beginCommand 0x9#4 s)) where
  opcode := .inr rfl
  wreg_pos := hv.word_ok.2.1
  wreg_le := hv.word_ok.2.2
  md_len := rfl
  mq_len := rfl
  p_len := rfl
  cnt_lt := by
    have hword := hv.word_ok.2.1
    simp [State.recodeSteps, loadMulb4, pairCount]; omega
  fa_lt := hv.a_ok.2.2.trans_le hv.a_fits
  fb_lt := hv.b_ok.2.2.trans_le hv.b_fits
  even_eq := rfl
  q_minus_one := by simp [loadMulb4, Vec.bit_append]
  parity _ hodd := by
    have hword : 1 ≤ n.val := hv.word_ok.2.1
    have hodd : evenBit n.val = true := hodd
    have hpaired : pairedLength n.val = n.val + 1 := if_pos hodd
    simp only [loadMulb4, hpaired]
    exact Vec.bit_append_sext_top (b.vec.sext n.val) hword false
  rows := rfl
  product := by simp [State.recoded, State.accWidth, loadMulb4]

@[simp] theorem loadOf_opc (i : Instr) (s : State) : (loadOf i s).opc = s.opc := by
  cases i <;> rfl

theorem mulInv_loadOf {i : Instr} {s : State} (hv : errorOf s.params i = none) :
    MulInv (loadOf i (beginCommand i.opcode s)) := by
  cases i with
  | mulb2 a b n =>
    exact ⟨fun _ => mulRunning_loadMulb2 ((checkMul_eq_none_iff _ _ _ _).1 hv), nofun⟩
  | mulb4 a b n =>
    exact ⟨fun _ => mulRunning_loadMulb4 ((checkMul_eq_none_iff _ _ _ _).1 hv), nofun⟩
  | divr | divnr => exact .of_not_multiplying nofun nofun
  | padt | neg | adds | shl0 | dec =>
    exact .of_not_multiplying nofun fun _ _ => by simp [Instr.opcode]

theorem dividing_iff (s : State) : s.dividing = true ↔ s.opc = 0xC#4 ∨ s.opc = 0xD#4 := by
  simp [State.dividing]

/-- The multipliers' opcodes are none of the dividers' (R92). -/
theorem opc_ne_multiplier_of_dividing {s : State} (h : s.dividing = true) : s.opc ≠ 0x8#4 ∧ s.opc ≠ 0x9#4 := by
  rcases (dividing_iff s).1 h with ho | ho <;> simp [ho]

/-- A step of a division neither starts nor answers a multiplication. -/
theorem MulInv.of_dividing {s t : State} (h : work s = .next t) (hp : s.phase ≠ .mstep) (hd : s.dividing = true) :
    MulInv t := by
  have hopc : t.opc = s.opc := congrArg Prod.fst (work_setting h)
  refine .of_not_multiplying (fun ht => hp ((work_phase h).1 ht)) fun _ _ => ?_
  rw [hopc]
  exact opc_ne_multiplier_of_dividing hd

theorem MulInv.of_work {s t : State} (h : MulInv s) (hwork : work s = .next t) : MulInv t := by
  obtain ⟨-, rfl⟩ | ⟨-, rfl⟩ | ⟨hp, ho, rfl⟩ | ⟨hp, ho, rfl⟩ | ⟨hp, hd, -⟩ | ⟨hp, hd, -⟩ | ⟨hp, hd, -⟩ |
    ⟨hp, hd, -⟩ | ⟨hp, hd, -⟩ := work_cases hwork
  · exact h
  · exact h
  · have hr := h.running hp
    have heven : s.even = false := by simpa [ho] using hr.even_eq
    rw [mstepMulb2_eq_recodeAdvance ho]
    have := hr.mulInv_recodeAdvance (nextDigit_mulb2 ho hr.q_minus_one)
      (examBits false (s.mq.bit (s.cnt + 1)) (s.mq.bit s.cnt)) hp
    rwa [heven] at this
  · have hr := h.running hp
    rw [mstepMulb4_eq_recodeAdvance ho]
    exact hr.mulInv_recodeAdvance (nextDigit_mulb4 (by simp [ho]) hr.q_minus_one) _ hp
  iterate 3 exact .of_dividing hwork (by simp [hp]) hd
  · exact .of_dividing hwork (by simp [hp]) ((dividing_iff s).2 (.inr hd))
  · exact .of_dividing hwork (by simp [hp]) hd

theorem mulInv_keptByParts : KeptByParts MulInv where
  host rest h := h.withHost rest
  errored _ _ _ := .of_not_multiplying nofun nofun
  load _ _ hv := mulInv_loadOf hv
  take _ _ := .of_not_multiplying nofun nofun
  reset _ := .of_not_multiplying nofun nofun
  work h hwork := h.of_work hwork

/-- Settles O50: each digit's step keeps the product with the recoded part, and the last one answers it. -/
theorem stepKeepsMultiplierInvariant : Obligations.StepKeepsMultiplierInvariant :=
  fun _ _ hs h => mulInv_keptByParts.step hs h

end Sys2Proof.Machine
end

/-! ### The divider invariant (R34, R35, R41 to R44, R240 to R242)

Between two cycles the long-division identity holds of the dividend bits brought down so far; `DSHIFT` doubles the
partial remainder and brings down the next dividend bit, `DARITH` subtracts the divisor from the rest, and `DSET` makes
the complement of the difference's sign the quotient bit. -/

section
namespace Sys2Proof

theorem Vec.uint_eq_sint_of_nonneg {v : Vec} (h : 0 ≤ v.sint) : (v.uint : Int) = v.sint := by
  have hmsb : ¬ v.msb = true := fun hm => by have := v.msb_iff_sint_neg.1 hm; omega
  rw [v.sint_eq, if_neg hmsb, sub_zero]

/-- Writing a bit over a clear `v[0]` adds it. -/
theorem Vec.uint_writeBit0_of_clear {v : Vec} (b : Bool) (hlen : 1 ≤ v.len) (h0 : v.bit 0 = false) :
    (v.writeBit0 b).uint = v.uint + b.toNat := by
  rw [Vec.bit_zero_eq, decide_eq_false_iff_not] at h0
  rw [Vec.uint_writeBit0 v b hlen]
  omega

end Sys2Proof

namespace Sys2Proof.Machine

/-! The arithmetic of the quotient register: `D` is the dividend, `q` the register of width `j + k + 1` after `j`
cycles, with `k + 1` dividend bits still to come. -/

theorem shifted_quotient_div {D q j k : Nat} (h : q / 2 ^ j = D % 2 ^ (k + 1)) :
    2 * (q % 2 ^ (j + k)) / 2 ^ (j + 1) = D % 2 ^ k := by
  rw [pow_succ, Nat.mul_comm (2 ^ j), Nat.mul_div_mul_left _ _ two_pos, pow_add, Nat.mod_mul_right_div_self, h,
    Nat.mod_mod_of_dvd _ (pow_dvd_pow 2 k.le_succ)]

theorem shifted_quotient_mod (q j k : Nat) : 2 * (q % 2 ^ (j + k)) % 2 ^ (j + 1) = 2 * (q % 2 ^ j) := by
  rw [pow_succ, Nat.mul_comm (2 ^ j), Nat.mul_mod_mul_left, Nat.mod_mod_of_dvd _ (pow_dvd_pow 2 (j.le_add_right k))]

/-- The bit that leaves `Q` is the next dividend bit. -/
theorem dividend_div_incoming {D q j k : Nat} (h : q / 2 ^ j = D % 2 ^ (k + 1)) :
    D / 2 ^ k = 2 * (D / 2 ^ (k + 1)) + q / 2 ^ (j + k) % 2 := by
  have hbit : q / 2 ^ (j + k) = D / 2 ^ k % 2 := by
    rw [pow_add, ← Nat.div_div_eq_div_mul, h, pow_succ, Nat.mod_mul_right_div_self]
  rw [hbit, Nat.mod_mod, pow_succ, ← Nat.div_div_eq_div_mul, Nat.div_add_mod]

/-- Setting a clear bit 0 leaves the bits above as they are and adds to the `k` bits below. -/
theorem set_bit_div_mod {q k b : Nat} (hq : q % 2 = 0) (hb : b ≤ 1) :
    (q + b) / 2 ^ (k + 1) = q / 2 ^ (k + 1) ∧ (q + b) % 2 ^ (k + 1) = q % 2 ^ (k + 1) + b := by
  have hlow : q % 2 ^ (k + 1) % 2 = 0 := by rw [Nat.mod_mod_of_dvd _ (dvd_pow_self 2 k.succ_ne_zero), hq]
  have hlt : q % 2 ^ (k + 1) + b < 2 ^ (k + 1) := by
    have := Nat.mod_lt q (show 2 ^ (k + 1) > 0 by positivity)
    rw [pow_succ] at *
    omega
  have hsplit : q + b = q % 2 ^ (k + 1) + b + 2 ^ (k + 1) * (q / 2 ^ (k + 1)) := by
    have := Nat.mod_add_div q (2 ^ (k + 1))
    omega
  constructor
  · rw [hsplit, Nat.add_mul_div_left _ _ (by positivity), Nat.div_eq_of_lt hlt, Nat.zero_add]
  · conv_lhs => rw [hsplit]
    rw [Nat.add_mul_mod_self_left, Nat.mod_eq_of_lt hlt]

/-! The accumulator. -/

theorem aNeg_iff {s : State} (h : s.a.len = s.nreg + 1) : s.aNeg = true ↔ s.a.sint < 0 := by
  rw [State.aNeg, ← Vec.msb_iff_sint_neg, Vec.msb_eq_bit, h, Nat.add_sub_cancel]

theorem aNeg_eq_false_iff {s : State} (h : s.a.len = s.nreg + 1) : s.aNeg = false ↔ 0 ≤ s.a.sint := by
  rw [← Bool.not_eq_true, aNeg_iff h, not_lt]

theorem partialRem_of_neg {s : State} (h : s.aNeg = true) : s.partialRem = s.a.sint + s.m.uint := by
  rw [State.partialRem, if_pos h]

theorem partialRem_of_nonneg {s : State} (h : s.aNeg = false) : s.partialRem = s.a.sint := by
  simp [State.partialRem, h]

theorem aPlusM_of_a_eq {s : State} {x : Int} (h : s.a = bv (s.nreg + 1) x) :
    s.aPlusM = bv (s.nreg + 1) (x + s.m.uint) := by
  rw [State.aPlusM, h, bv_eq_iff, uint_bv, Int.emod_add_emod]

theorem aMinusM_of_a_eq {s : State} {x : Int} (h : s.a = bv (s.nreg + 1) x) :
    s.aMinusM = bv (s.nreg + 1) (x - s.m.uint) := by
  rw [State.aMinusM, State.mn, h, bv_eq_iff, uint_bv, uint_bv, Int.emod_add_emod, Int.add_emod_emod, sub_eq_add_neg]

/-- An accumulator of `n + 1` bits holds the values of a difference of two numbers below `2^n`. -/
theorem sint_bv_accumulator {n : Nat} {x : Int} (hlo : -2 ^ n ≤ x) (hhi : x < 2 ^ n) : (bv (n + 1) x).sint = x :=
  sint_bv_of_fits (by rw [pow_succ]; omega) (by rw [pow_succ]; omega)

/-! The parts of the invariant. -/

/-- `t` is a state of the division in progress in `s`: the registers a division only reads are the same, and the rows
are kept. -/
structure SameDivision (s t : State) : Prop where
  opc : t.opc = s.opc
  params : t.params = s.params
  nreg : t.nreg = s.nreg
  m : t.m = s.m
  trace : ∃ rows, t.trace = s.trace ++ rows

/-- The part of `DivRunning` that is the same in every phase. -/
structure DivShape (s : State) : Prop where
  opcode : s.dividing = true
  nreg_pos : 1 ≤ s.nreg
  nreg_le : Params.within s.params.nmax s.nreg = true
  a_len : s.a.len = s.nreg + 1
  q_len : s.q.len = s.nreg
  m_len : s.m.len = s.nreg + 1
  m_pos : 1 ≤ s.m.uint
  m_lt : s.m.uint < 2 ^ s.nreg
  cnt_pos : 1 ≤ s.cnt
  cnt_le : s.cnt ≤ s.nreg
  dividend_lt : s.dividend < 2 ^ s.nreg
  init_row : s.trace.head? = some (.div
    { lab := .init, cyc := 0, act := .init, a := bv (s.nreg + 1) 0, q := bv s.nreg s.dividend, qmark := false,
      m := s.m })

/-- The part of `DivRunning` that speaks of the phase. -/
def DivContent (s : State) : Prop :=
  match s.phase with
  | .dshift => CycleBoundary s (s.cnt - 1)
  | .darith => InCycle s ∧
      s.a = bv (s.nreg + 1) (s.cycleRest - if s.nonRestoring && s.sgn then 2 * (s.m.uint : Int) else 0)
  | .dset => InCycle s ∧ s.a.sint = s.cycleRest - s.m.uint
  | .dcorr => s.opc = 0xD#4 ∧ s.cnt = s.nreg ∧ s.aNeg = true ∧ CycleBoundary s s.nreg
  | .dfinal => s.cnt = s.nreg ∧ s.aNeg = false ∧ CycleBoundary s s.nreg
  | .idle | .mstep | .resp => True

theorem DivRunning.shape {s : State} (h : DivRunning s) : DivShape s := { h with }

theorem DivShape.running {s : State} (h : DivShape s) (hqp : s.qp = (s.phase == .darith || s.phase == .dset))
    (hc : DivContent s) : DivRunning s :=
  { h with
    qp_eq := hqp
    at_shift := fun hp => by simpa only [DivContent, hp] using hc
    at_arith := fun hp => by simpa only [DivContent, hp] using hc
    at_set := fun hp => by simpa only [DivContent, hp] using hc
    at_corr := fun hp => by simpa only [DivContent, hp] using hc
    at_final := fun hp => by simpa only [DivContent, hp] using hc }

theorem DivRunning.divInv {s : State} (h : DivRunning s) (hp : s.phase ≠ .resp) : DivInv s :=
  ⟨fun _ => h, fun hr => absurd hr hp⟩

theorem nonRestoring_congr {s t : State} (h : t.opc = s.opc) : t.nonRestoring = s.nonRestoring := by
  rw [State.nonRestoring, h, State.nonRestoring]

theorem SameDivision.head_trace {s t : State} (h : SameDivision s t) {row : Row} (hs : s.trace.head? = some row) :
    t.trace.head? = some row := by
  obtain ⟨rows, ht⟩ := h.trace
  rw [ht, List.head?_append, hs, Option.some_or]

theorem DivShape.dividend_eq {s t : State} (h : DivShape s) (hst : SameDivision s t) : t.dividend = s.dividend := by
  unfold State.dividend
  rw [(hst.head_trace h.init_row).trans h.init_row.symm]

theorem DivShape.of_same {s t : State} (h : DivShape s) (hst : SameDivision s t) (ha : t.a.len = s.nreg + 1)
    (hq : t.q.len = s.nreg) (hpos : 1 ≤ t.cnt) (hle : t.cnt ≤ s.nreg) : DivShape t where
  opcode := by rw [State.dividing, hst.opc]; exact h.opcode
  nreg_pos := hst.nreg ▸ h.nreg_pos
  nreg_le := by rw [hst.params, hst.nreg]; exact h.nreg_le
  a_len := by rw [ha, hst.nreg]
  q_len := by rw [hq, hst.nreg]
  m_len := by rw [hst.m, hst.nreg]; exact h.m_len
  m_pos := hst.m ▸ h.m_pos
  m_lt := by rw [hst.m, hst.nreg]; exact h.m_lt
  cnt_pos := hpos
  cnt_le := hst.nreg ▸ hle
  dividend_lt := by rw [h.dividend_eq hst, hst.nreg]; exact h.dividend_lt
  init_row := by rw [hst.head_trace h.init_row, h.dividend_eq hst, hst.nreg, hst.m]

theorem DivShape.m_lt_int {s : State} (h : DivShape s) : (s.m.uint : Int) < 2 ^ s.nreg := by
  exact_mod_cast h.m_lt

/-! `DSHIFT` -/

theorem dshift_sameDivision (s : State) : SameDivision s (dshift s) := ⟨rfl, rfl, rfl, rfl, _, rfl⟩

theorem dshift_q_uint (s : State) : (dshift s).q.uint = 2 * (s.q.uint % 2 ^ (s.nreg - 1)) := by
  change ((s.q.slice 0 (s.nreg - 1)).append (Vec.ofBit false)).uint = _
  simp [Vec.uint_append, Vec.uint_slice, Nat.mul_comm]

theorem dshift_a {s : State} (h : s.a.len = s.nreg + 1) :
    (dshift s).a = bv (s.nreg + 1) (2 * s.a.sint + bitVal (s.q.bit (s.nreg - 1))) :=
  shifted_a_eq h _

theorem bitVal_bit (v : Vec) (i : Nat) : bitVal (v.bit i) = (v.uint / 2 ^ i % 2 : Nat) := by
  rw [Vec.bit_eq_testBit, Nat.testBit_eq_decide_div_mod_eq]
  rcases Nat.mod_two_eq_zero_or_one (v.uint / 2 ^ i) with h | h <;> simp [h, bitVal]

/-- The position of the cycle in `Q`: `j` bits are done and `k` are to come after this one. -/
theorem DivShape.cycle_split {s : State} (h : DivShape s) :
    ∃ j k, s.cnt = j + 1 ∧ s.nreg = j + k + 1 := by
  have hpos := h.cnt_pos
  have hle := h.cnt_le
  exact ⟨s.cnt - 1, s.nreg - s.cnt, by omega, by omega⟩

/-- `DSHIFT` brings the next dividend bit down to twice the partial remainder. -/
theorem dshift_cycleRest {s : State} (h : DivShape s) (hb : CycleBoundary s (s.cnt - 1)) :
    (dshift s).cycleRest = 2 * s.partialRem + bitVal (s.q.bit (s.nreg - 1)) := by
  obtain ⟨j, k, hcnt, hnreg⟩ := h.cycle_split
  obtain ⟨hpending, hidentity, -, -, -⟩ := hb
  rw [hcnt, hnreg, show j + k + 1 - (j + 1 - 1) = k + 1 by omega, Nat.add_sub_cancel] at hpending hidentity
  have hincoming := dividend_div_incoming hpending
  rw [State.cycleRest, h.dividend_eq (dshift_sameDivision s), dshift_q_uint, dshift_nreg, dshift_cnt, dshift_m, hcnt,
    hnreg, show j + k + 1 - (j + 1) = k by omega, Nat.add_sub_cancel, shifted_quotient_mod, bitVal_bit, hincoming]
  push_cast at *
  linear_combination 2 * hidentity

theorem dshift_inCycle {s : State} (h : DivShape s) (hb : CycleBoundary s (s.cnt - 1)) : InCycle (dshift s) := by
  have hrest := dshift_cycleRest h hb
  have hbit : bitVal (s.q.bit (s.nreg - 1)) = 0 ∨ bitVal (s.q.bit (s.nreg - 1)) = 1 := by
    cases s.q.bit (s.nreg - 1) <;> simp [bitVal]
  have hnonneg := hb.rem_nonneg
  have hlt := hb.rem_lt
  refine ⟨?_, ?_, by omega, by rw [hrest, dshift_m]; omega⟩
  · rw [Vec.bit_zero_eq, dshift_q_uint]; simp
  · obtain ⟨j, k, hcnt, hnreg⟩ := h.cycle_split
    have hpending := hb.pending_bits
    rw [hcnt, hnreg, show j + k + 1 - (j + 1 - 1) = k + 1 by omega, Nat.add_sub_cancel] at hpending
    rw [h.dividend_eq (dshift_sameDivision s), dshift_q_uint, dshift_nreg, dshift_cnt, hcnt, hnreg,
      show j + k + 1 - (j + 1) = k by omega, Nat.add_sub_cancel, shifted_quotient_div hpending]

/-- The sign that `DARITH` reads is the one of `A` before the shift; the restoring variant has none (R226). -/
theorem dshift_adds {s : State} (h : s.nonRestoring = false → s.aNeg = false) :
    ((dshift s).nonRestoring && (dshift s).sgn) = s.aNeg := by
  change (s.nonRestoring && if s.nonRestoring then s.aNeg else s.sgn) = s.aNeg
  cases hn : s.nonRestoring with
  | true => simp
  | false => simp [h hn]

theorem DivShape.running_dshift {s : State} (h : DivShape s) (hb : CycleBoundary s (s.cnt - 1)) :
    DivRunning (dshift s) := by
  have hshape : DivShape (dshift s) :=
    h.of_same (dshift_sameDivision s) rfl (Nat.sub_add_cancel h.nreg_pos) h.cnt_pos h.cnt_le
  refine hshape.running rfl (And.intro (dshift_inCycle h hb) ?_)
  rw [dshift_adds hb.restored, dshift_a h.a_len, dshift_cycleRest h hb, dshift_nreg, dshift_m, State.partialRem]
  congr 1
  split_ifs <;> ring

/-! `DARITH` -/

theorem darith_sameDivision (s : State) : SameDivision s (darith s) := by
  obtain ⟨r, hr⟩ := darith_trace s
  exact ⟨darith_opc s, congrArg (·.2.1) (darith_setting s), darith_nreg s, darith_m s, _, hr⟩

/-- Whether it adds or subtracts, `DARITH` leaves the rest less the divisor (R228, R229). -/
theorem darith_a {s : State}
    (h : s.a = bv (s.nreg + 1) (s.cycleRest - if s.nonRestoring && s.sgn then 2 * (s.m.uint : Int) else 0)) :
    (darith s).a = bv (s.nreg + 1) (s.cycleRest - s.m.uint) := by
  unfold darith
  split_ifs at h ⊢
  · exact (aPlusM_of_a_eq h).trans (by ring_nf)
  · exact (aMinusM_of_a_eq h).trans (by ring_nf)

theorem DivShape.running_darith {s : State} (h : DivShape s) (hqp : s.qp = true) (hc : InCycle s)
    (ha : s.a = bv (s.nreg + 1) (s.cycleRest - if s.nonRestoring && s.sgn then 2 * (s.m.uint : Int) else 0)) :
    DivRunning (darith s) := by
  have hsame := darith_sameDivision s
  have hdividend := h.dividend_eq hsame
  have hrest : (darith s).cycleRest = s.cycleRest := by
    rw [State.cycleRest, hdividend, darith_q, darith_nreg, darith_cnt, darith_m, ← State.cycleRest]
  have ha' := darith_a ha
  have hshape : DivShape (darith s) :=
    h.of_same hsame (by rw [ha', bv_len]) (by rw [darith_q, h.q_len]) (by rw [darith_cnt]; exact h.cnt_pos)
      (by rw [darith_cnt]; exact h.cnt_le)
  have hcycle : InCycle (darith s) :=
    ⟨by rw [darith_q]; exact hc.pending, by rw [darith_q, darith_cnt, hdividend, darith_nreg]; exact hc.pending_bits,
      hrest ▸ hc.rest_nonneg, by rw [hrest, darith_m]; exact hc.rest_lt⟩
  have hqp' : (darith s).qp = true := by unfold darith; split_ifs <;> exact hqp
  refine hshape.running (by simp [hqp']) ?_
  rw [DivContent, darith_phase]
  refine ⟨hcycle, ?_⟩
  have hm := h.m_lt_int
  have hlo := hc.rest_nonneg
  have hhi := hc.rest_lt
  rw [ha', hrest, darith_m, sint_bv_accumulator (by omega) (by omega)]

/-! `DSET` -/

theorem setQuotientBit_sameDivision (s : State) : SameDivision s (setQuotientBit s) := by
  unfold setQuotientBit; split_ifs <;> exact ⟨rfl, rfl, rfl, rfl, _, rfl⟩

theorem setQuotientBit_q (s : State) : (setQuotientBit s).q = s.q.writeBit0 (!s.aNeg) := by
  unfold setQuotientBit; split_ifs with hneg <;> simp [hneg]

theorem setQuotientBit_cnt (s : State) : (setQuotientBit s).cnt = s.cnt := by
  unfold setQuotientBit; split_ifs <;> rfl

theorem setQuotientBit_qp (s : State) : (setQuotientBit s).qp = false := by
  unfold setQuotientBit; split_ifs <;> rfl

theorem setQuotientBit_a (s : State) :
    (setQuotientBit s).a = if s.aNeg && !s.nonRestoring then s.aPlusM else s.a := by
  unfold setQuotientBit
  cases s.aNeg <;> cases s.nonRestoring <;> rfl

/-- A correction addition to an accumulator that is `M` or less below 0 leaves the partial remainder itself. -/
theorem sint_aPlusM {s : State} (h : DivShape s) (h0 : 0 ≤ s.a.sint + s.m.uint) (hlt : s.a.sint < 0) :
    s.aPlusM.sint = s.a.sint + s.m.uint := by
  have hm := h.m_lt_int
  rw [aPlusM_eq h.a_len, sint_bv_accumulator (by omega) (by omega)]

/-- What `DSET` leaves in `A`: the partial remainder is the rest, less the divisor where the quotient bit is 1, and the
restoring variant holds it in `A` itself. -/
theorem setQuotientBit_partialRem {s : State} (h : DivShape s) (hc : InCycle s)
    (ha : s.a.sint = s.cycleRest - s.m.uint) :
    (setQuotientBit s).a.len = s.nreg + 1 ∧
      (setQuotientBit s).partialRem = s.cycleRest - (!s.aNeg).toNat * s.m.uint ∧
      (s.nonRestoring = false → (setQuotientBit s).aNeg = false) := by
  have hnreg := (setQuotientBit_sameDivision s).nreg
  have hm := (setQuotientBit_sameDivision s).m
  have hlen : (setQuotientBit s).a.len = s.nreg + 1 := by
    rw [setQuotientBit_a]
    split_ifs
    · rfl
    · exact h.a_len
  have hsign := aNeg_iff (hlen.trans (by rw [hnreg]))
  have hsign' := aNeg_eq_false_iff (hlen.trans (by rw [hnreg]))
  refine ⟨hlen, ?_⟩
  cases hneg : s.aNeg with
  | false =>
    have hu : (setQuotientBit s).a = s.a := by simp [setQuotientBit_a, hneg]
    have hu' : (setQuotientBit s).aNeg = false := by rw [hsign', hu]; exact (aNeg_eq_false_iff h.a_len).1 hneg
    refine ⟨?_, fun _ => hu'⟩
    rw [partialRem_of_nonneg hu', hu, ha]
    simp
  | true =>
    have hlt := (aNeg_iff h.a_len).1 hneg
    cases hn : s.nonRestoring with
    | true =>
      have hu : (setQuotientBit s).a = s.a := by simp [setQuotientBit_a, hn]
      refine ⟨?_, nofun⟩
      rw [partialRem_of_neg (hsign.2 (hu ▸ hlt)), hu, hm, ha]
      simp
    | false =>
      have h0 : 0 ≤ s.a.sint + s.m.uint := by have := hc.rest_nonneg; omega
      have hu : (setQuotientBit s).a.sint = s.a.sint + s.m.uint := by
        rw [setQuotientBit_a, hneg, hn]; exact sint_aPlusM h h0 hlt
      have hu' : (setQuotientBit s).aNeg = false := by rw [hsign', hu]; exact h0
      refine ⟨?_, fun _ => hu'⟩
      rw [partialRem_of_nonneg hu', hu, ha]
      simp

/-- After `DSET` the cycle is finished: its quotient bit is 1 exactly when the divisor goes into the rest. -/
theorem setQuotientBit_boundary {s : State} (h : DivShape s) (hc : InCycle s)
    (ha : s.a.sint = s.cycleRest - s.m.uint) : CycleBoundary (setQuotientBit s) s.cnt := by
  have hsame := setQuotientBit_sameDivision s
  obtain ⟨-, hrem, hrestored⟩ := setQuotientBit_partialRem h hc ha
  obtain ⟨j, k, hcnt, -⟩ := h.cycle_split
  have heven : s.q.uint % 2 = 0 := by
    have := hc.pending
    rw [Vec.bit_zero_eq, decide_eq_false_iff_not] at this
    omega
  obtain ⟨hdiv, hmod⟩ := set_bit_div_mod (k := j) heven (Bool.toNat_le (!s.aNeg))
  rw [← hcnt] at hdiv hmod
  have hq : (setQuotientBit s).q.uint = s.q.uint + (!s.aNeg).toNat := by
    rw [setQuotientBit_q, Vec.uint_writeBit0_of_clear _ (h.q_len ▸ h.nreg_pos) hc.pending]
  have hlo := hc.rest_nonneg
  have hhi := hc.rest_lt
  have hbounds : 0 ≤ (setQuotientBit s).partialRem ∧ (setQuotientBit s).partialRem < s.m.uint := by
    rw [hrem]
    cases hneg : s.aNeg with
    | true => have := (aNeg_iff h.a_len).1 hneg; simp; omega
    | false => have := (aNeg_eq_false_iff h.a_len).1 hneg; simp; omega
  exact {
    pending_bits := by rw [hq, hdiv, h.dividend_eq hsame, hsame.nreg]; exact hc.pending_bits
    identity := by
      rw [hq, hmod, h.dividend_eq hsame, hsame.nreg, hsame.m, hrem, State.cycleRest]
      push_cast
      ring
    rem_nonneg := hbounds.1
    rem_lt := hsame.m ▸ hbounds.2
    restored := fun hn => hrestored ((nonRestoring_congr hsame.opc).symm.trans hn) }

/-- The advance from a finished cycle: to the next one, or, after the last, to the correction of a negative `A` or to
the result (R232). -/
theorem DivShape.running_advanceCycle {s : State} (h : DivShape s) (hqp : s.qp = false)
    (hb : CycleBoundary s s.cnt) : DivRunning (advanceCycle s) := by
  have hle := h.cnt_le
  unfold advanceCycle
  split_ifs with hlast hcorr
  · have hshape : DivShape { s with cnt := s.cnt + 1, phase := .dshift } :=
      { h with cnt_pos := Nat.succ_pos _, cnt_le := hlast }
    exact hshape.running hqp { hb with }
  · have hcnt : s.cnt = s.nreg := by omega
    obtain ⟨hn, hneg⟩ := Bool.and_eq_true_iff.1 hcorr
    have hshape : DivShape { s with phase := .dcorr } := { h with }
    rw [hcnt] at hb
    exact hshape.running hqp ⟨opc_of_dividing_of_nonRestoring h.opcode hn, hcnt, hneg, { hb with }⟩
  · have hcnt : s.cnt = s.nreg := by omega
    have hneg : s.aNeg = false := by
      cases hn : s.nonRestoring with
      | false => exact hb.restored hn
      | true => simpa [hn] using hcorr
    have hshape : DivShape { s with phase := .dfinal } := { h with }
    rw [hcnt] at hb
    exact hshape.running hqp ⟨hcnt, hneg, { hb with }⟩

theorem DivShape.running_dset {s : State} (h : DivShape s) (hc : InCycle s)
    (ha : s.a.sint = s.cycleRest - s.m.uint) : DivRunning (dset s) := by
  have hcnt := setQuotientBit_cnt s
  have hshape : DivShape (setQuotientBit s) :=
    h.of_same (setQuotientBit_sameDivision s) (setQuotientBit_partialRem h hc ha).1
      (by rw [setQuotientBit_q, Vec.writeBit0_len, h.q_len]) (hcnt ▸ h.cnt_pos) (hcnt ▸ h.cnt_le)
  rw [dset_eq]
  exact hshape.running_advanceCycle (setQuotientBit_qp s) (hcnt ▸ setQuotientBit_boundary h hc ha)

/-! `DCORR` and `DFINAL` -/

theorem DivShape.running_dcorr {s : State} (h : DivShape s) (hqp : s.qp = false) (hcnt : s.cnt = s.nreg)
    (hneg : s.aNeg = true) (hb : CycleBoundary s s.nreg) : DivRunning (dcorr s) := by
  have hsame : SameDivision s (dcorr s) := ⟨rfl, rfl, rfl, rfl, _, rfl⟩
  have hshape : DivShape (dcorr s) := h.of_same hsame rfl h.q_len h.cnt_pos h.cnt_le
  have hpartial := partialRem_of_neg hneg
  have ha : (dcorr s).a.sint = s.partialRem := by
    rw [hpartial]
    exact sint_aPlusM h (hpartial ▸ hb.rem_nonneg) ((aNeg_iff h.a_len).1 hneg)
  have hneg' : (dcorr s).aNeg = false := by
    rw [aNeg_eq_false_iff hshape.a_len, ha]; exact hb.rem_nonneg
  have hrem : (dcorr s).partialRem = s.partialRem := (partialRem_of_nonneg hneg').trans ha
  have hdividend := h.dividend_eq hsame
  exact hshape.running hqp ⟨hcnt, hneg',
    { pending_bits := hdividend ▸ hb.pending_bits
      identity := by rw [hdividend, hrem]; exact hb.identity
      rem_nonneg := hrem ▸ hb.rem_nonneg
      rem_lt := hrem ▸ hb.rem_lt
      restored := fun _ => hneg' }⟩

/-- After the last cycle the long-division identity is that of the whole dividend. -/
theorem CycleBoundary.div_mod {s : State} (h : DivShape s) (hneg : s.aNeg = false) (hb : CycleBoundary s s.nreg) :
    s.dividend / s.m.uint = s.q.uint ∧ s.dividend % s.m.uint = s.a.uint := by
  have hidentity := hb.identity
  have hlt := hb.rem_lt
  have hq : s.q.uint < 2 ^ s.nreg := h.q_len ▸ s.q.uint_lt
  rw [partialRem_of_nonneg hneg, ← Vec.uint_eq_sint_of_nonneg ((aNeg_eq_false_iff h.a_len).1 hneg)] at hidentity hlt
  rw [Nat.sub_self, pow_zero, Nat.div_one, Nat.mod_eq_of_lt hq] at hidentity
  refine (Nat.div_mod_unique h.m_pos).2 ⟨?_, by exact_mod_cast hlt⟩
  zify
  rw [hidentity]
  ring

theorem DivShape.answered_dfinal {s : State} (h : DivShape s) (hneg : s.aNeg = false)
    (hb : CycleBoundary s s.nreg) : DivAnswered (dfinal s) := by
  have hdividend : (dfinal s).dividend = s.dividend := h.dividend_eq ⟨rfl, rfl, rfl, rfl, _, rfl⟩
  obtain ⟨hquo, hrem⟩ := CycleBoundary.div_mod h hneg hb
  have ha : s.a.uint < 2 ^ s.nreg := hrem ▸ (Nat.mod_lt _ h.m_pos).trans h.m_lt
  have hslice : (s.a.slice 0 s.nreg).uint = s.a.uint := by
    rw [Vec.uint_slice, pow_zero, Nat.div_one, Nat.mod_eq_of_lt ha]
  exact {
    quo := by rw [hdividend]; exact hquo.symm
    rem := by rw [hdividend]; exact hslice.trans hrem.symm
    alg := rfl
    width := rfl }

/-! The steps of every kind. -/

/-- Where no division is in progress or answered OK the invariant says nothing. -/
theorem DivInv.of_not_dividing {s : State} (hp : s.inDivision = false)
    (ha : s.phase = .resp → s.rsp.status = .ok → s.dividing = false) : DivInv s :=
  ⟨fun hd => by simp [hp] at hd, fun hr hok hd => by simp [ha hr hok] at hd⟩

theorem CycleBoundary.withHost {s : State} {j : Nat} (h : CycleBoundary s j) (rest : List HostAction) :
    CycleBoundary { s with host := rest } j := { h with }

theorem InCycle.withHost {s : State} (h : InCycle s) (rest : List HostAction) : InCycle { s with host := rest } :=
  { h with }

theorem DivRunning.withHost {s : State} (h : DivRunning s) (rest : List HostAction) :
    DivRunning { s with host := rest } :=
  { h with
    at_shift := fun hp => (h.at_shift hp).withHost rest
    at_arith := fun hp => (h.at_arith hp).imp_left (·.withHost rest)
    at_set := fun hp => (h.at_set hp).imp_left (·.withHost rest)
    at_corr := fun hp => have ⟨ho, hcnt, hneg, hb⟩ := h.at_corr hp; ⟨ho, hcnt, hneg, hb.withHost rest⟩
    at_final := fun hp => have ⟨hcnt, hneg, hb⟩ := h.at_final hp; ⟨hcnt, hneg, hb.withHost rest⟩ }

theorem DivInv.withHost {s : State} (h : DivInv s) (rest : List HostAction) : DivInv { s with host := rest } where
  running hd := (h.running hd).withHost rest
  answer hp hok hd :=
    have ha := h.answer hp hok hd
    { ha with }

/-- Before the first cycle nothing of the dividend is used up. -/
theorem cycleBoundary_zero {s : State} (ha : s.a = bv (s.nreg + 1) 0) (hq : s.q.uint = s.dividend)
    (hlt : s.dividend < 2 ^ s.nreg) (hm : 1 ≤ s.m.uint) : CycleBoundary s 0 := by
  have hsint : s.a.sint = 0 := by rw [ha, sint_bv_accumulator (by simp) (by positivity)]
  have hneg : s.aNeg = false := (aNeg_eq_false_iff (by rw [ha, bv_len])).2 hsint.ge
  have hrem : s.partialRem = 0 := (partialRem_of_nonneg hneg).trans hsint
  exact {
    pending_bits := by rw [hq, pow_zero, Nat.div_one, Nat.sub_zero, Nat.mod_eq_of_lt hlt]
    identity := by simp [hrem, Nat.div_eq_of_lt hlt, Nat.mod_one]
    rem_nonneg := hrem.ge
    rem_lt := by rw [hrem]; exact_mod_cast hm
    restored := fun _ => hneg }

/-- The width of a valid request is within `NMAX` (R9, R221): a positive divisor below `2^NMAX` makes `NMAX`
positive. -/
theorem within_divWidth {p : Params} {x y : IntDesc} (hv : ValidDiv p x y) :
    Params.within p.nmax (divWidth x.val.toNat y.val.toNat) = true := by
  cases hb : p.nmax with
  | none => rfl
  | some b =>
    have hx := hv.x_fits b hb
    have hy := hv.y_fits b hb
    have hpos := hv.y_ok.2
    have hx0 := hv.x_ok.2
    have hb1 : 1 ≤ b := by
      by_contra hb0
      obtain rfl : b = 0 := by omega
      simp at hy
      omega
    refine decide_eq_true ((divWidth_le_iff _ _ _).2 ⟨hb1, ?_, ?_⟩)
    · zify; rwa [Int.toNat_of_nonneg hx0]
    · zify; rwa [Int.toNat_of_nonneg hpos.le]

/-- A valid request of either divider starts a division (R223, R224). -/
theorem divRunning_loadDiv {x y : IntDesc} {s : State} (hv : ValidDiv s.params x y) (hd : s.dividing = true)
    (htrace : s.trace = []) : DivRunning (loadDiv x y s) := by
  have hy0 := hv.y_ok.2
  obtain ⟨hpos, -, hy⟩ := (divWidth_le_iff _ _ _).1 (le_refl (loadDiv x y s).nreg)
  have hy : y.val < 2 ^ (loadDiv x y s).nreg := by zify at hy; rwa [Int.toNat_of_nonneg hy0.le] at hy
  have hm : ((loadDiv x y s).m.uint : Int) = y.val :=
    uint_bv_of_lt hy0.le (hy.trans (pow_lt_pow_right₀ one_lt_two (Nat.lt_succ_self _)))
  have hrow : (loadDiv x y s).trace.head? = some (.div (divRow .init 0 .init (loadDiv x y s))) := by
    simp [loadDiv, htrace, divRow]
  have hdividend : (loadDiv x y s).dividend = (loadDiv x y s).q.uint := by
    rw [State.dividend, hrow, divRow]
  have hlt : (loadDiv x y s).dividend < 2 ^ (loadDiv x y s).nreg := hdividend ▸ Vec.uint_lt _
  have hm_pos : 1 ≤ (loadDiv x y s).m.uint := by omega
  have hshape : DivShape (loadDiv x y s) := {
    opcode := hd
    nreg_pos := hpos
    nreg_le := within_divWidth hv
    a_len := rfl
    q_len := rfl
    m_len := rfl
    m_pos := hm_pos
    m_lt := by zify; rwa [hm]
    cnt_pos := le_rfl
    cnt_le := hpos
    dividend_lt := hlt
    init_row := by
      have hq : bv (loadDiv x y s).nreg (loadDiv x y s).q.uint = (loadDiv x y s).q := bv_uint (loadDiv x y s).q
      rw [hrow, hdividend, hq]
      rfl }
  exact hshape.running rfl (cycleBoundary_zero rfl hdividend.symm hlt hm_pos)

theorem divInv_loadOf {i : Instr} {s : State} (hv : errorOf s.params i = none) :
    DivInv (loadOf i (beginCommand i.opcode s)) := by
  cases i with
  | divr x y | divnr x y =>
    exact (divRunning_loadDiv (s := beginCommand _ s) ((checkDiv_eq_none_iff _ _ _).1 hv) rfl rfl).divInv nofun
  | mulb2 | mulb4 => exact .of_not_dividing rfl nofun
  | padt | neg | adds | shl0 | dec => exact .of_not_dividing rfl fun _ _ => rfl

/-- A step of a multiplication neither starts nor answers a division. -/
theorem DivInv.of_mstep {s t : State} (h : work s = .next t) (hp : s.phase = .mstep)
    (ho : s.opc = 0x8#4 ∨ s.opc = 0x9#4) : DivInv t := by
  have hopc : t.opc = s.opc := congrArg Prod.fst (work_setting h)
  refine .of_not_dividing (Bool.eq_false_iff.2 fun ht => ?_) fun _ _ => Bool.eq_false_iff.2 fun ht => ?_
  · have := (work_phase h).2.1 ht
    simp [State.inDivision, hp] at this
  · obtain ⟨h8, h9⟩ := opc_ne_multiplier_of_dividing ht
    rw [hopc] at h8 h9
    exact ho.elim h8 h9

theorem DivInv.of_work {s t : State} (h : DivInv s) (hwork : work s = .next t) : DivInv t := by
  have hrunning (hp : s.phase ≠ .idle ∧ s.phase ≠ .resp ∧ s.phase ≠ .mstep) : DivRunning s :=
    h.running (by simp [State.inDivision, State.working, hp])
  obtain ⟨-, rfl⟩ | ⟨-, rfl⟩ | ⟨hp, ho, -⟩ | ⟨hp, ho, -⟩ | ⟨hp, -, rfl⟩ | ⟨hp, -, rfl⟩ | ⟨hp, -, rfl⟩ |
    ⟨hp, -, rfl⟩ | ⟨hp, -, rfl⟩ := work_cases hwork
  · exact h
  · exact h
  · exact .of_mstep hwork hp (.inl ho)
  · exact .of_mstep hwork hp (.inr ho)
  all_goals have hr := hrunning (by simp [hp])
  · exact (hr.shape.running_dshift (hr.at_shift hp)).divInv (by simp)
  · obtain ⟨hcycle, ha⟩ := hr.at_arith hp
    exact (hr.shape.running_darith (by simp [hr.qp_eq, hp]) hcycle ha).divInv (by simp)
  · obtain ⟨hcycle, ha⟩ := hr.at_set hp
    refine (hr.shape.running_dset hcycle ha).divInv ?_
    obtain ht | ht | ⟨ht, -⟩ := dset_phase s <;> simp [ht]
  · obtain ⟨-, hcnt, hneg, hb⟩ := hr.at_corr hp
    exact (hr.shape.running_dcorr (by simp [hr.qp_eq, hp]) hcnt hneg hb).divInv nofun
  · obtain ⟨-, hneg, hb⟩ := hr.at_final hp
    exact ⟨nofun, fun _ _ _ => hr.shape.answered_dfinal hneg hb⟩

theorem divInv_keptByParts : KeptByParts DivInv where
  host rest h := h.withHost rest
  errored _ _ _ := .of_not_dividing rfl nofun
  load _ _ hv := divInv_loadOf hv
  take _ _ := .of_not_dividing rfl nofun
  reset _ := .of_not_dividing rfl nofun
  work h hwork := h.of_work hwork

/-- Settles O51: each phase's step keeps the long-division identity, and the last one answers its two parts. -/
theorem stepKeepsDividerInvariant : Obligations.StepKeepsDividerInvariant :=
  fun _ _ hs h => divInv_keptByParts.step hs h

/-- Settles O48: after reset no operation is in progress and no response is valid. -/
theorem invariantsHoldAtReset : Obligations.InvariantsHoldAtReset :=
  ⟨(controlInv_iff _).2 ⟨by decide, .of_clear nofun rfl rfl, .of_not_working rfl⟩,
    .of_not_multiplying nofun nofun, .of_not_dividing rfl nofun⟩

end Sys2Proof.Machine
end

/-! ### Runs up to the response (R32, R321) -/

section
namespace Sys2Proof.Machine

/-- The run from `s` is in `RESP` after `k` steps, in the state `t`, and not earlier. -/
structure FirstResponse (k : Nat) (s t : State) : Prop where
  run : Host.Core.run Sys2Proof.core k s = .next t
  phase : t.phase = .resp
  earlier : ∀ j < k, ∀ u, Host.Core.run Sys2Proof.core j s = .next u → u.phase ≠ .resp

theorem FirstResponse.zero {s : State} (h : s.phase = .resp) : FirstResponse 0 s s := ⟨rfl, h, nofun⟩

theorem FirstResponse.succ {k : Nat} {s t u : State} (hstep : step s = .next t) (hp : s.phase ≠ .resp)
    (h : FirstResponse k t u) : FirstResponse (k + 1) s u where
  run := (run_succ hstep).trans h.run
  phase := h.phase
  earlier
    | 0, _, _, hv => by cases hv; exact hp
    | j + 1, hj, v, hv => h.earlier j (Nat.lt_of_succ_lt_succ hj) v ((run_succ hstep).symm.trans hv)

/-- Where each step short of `RESP` advances a numbered invariant whose number is bounded, the run reaches `RESP`. -/
theorem exists_firstResponse {I : Nat → State → Prop} {bound k : Nat} {s : State}
    (hstep : ∀ k s, I k s → s.phase ≠ .resp → k < bound ∧ ∃ t, step s = .next t ∧ I (k + 1) t) (h : I k s) :
    ∃ j t, FirstResponse j s t ∧ I (k + j) t := by
  by_cases hp : s.phase = .resp
  · exact ⟨0, s, .zero hp, h⟩
  · obtain ⟨hk, t, hst, ht⟩ := hstep k s h hp
    obtain ⟨j, u, hu, hI⟩ := exists_firstResponse hstep ht
    exact ⟨j + 1, u, hu.succ hst hp, by rwa [← Nat.add_right_comm] at hI⟩
termination_by bound - k

/-- The step in which the host presents the command of a valid instruction to an idle block. -/
theorem step_accepts {s : State} {c : Command} {i : Instr} {rest : List HostAction} (hp : s.phase = .idle)
    (hhost : s.host = .command c :: rest) (hdecode : decode c = .ok i) (hv : errorOf s.params i = none) :
    step s = .next (loadOf i (beginCommand i.opcode { s with host := rest })) := by
  rw [step_cons hhost, act, present, hdecode]
  exact exec_idle_ok (s := { s with host := rest }) hp hv

end Sys2Proof.Machine
end

/-! ### The run of a division (R78, R242, R244)

The number of `work` steps done can be read off the state: it is the position of the phase in the division, in which the
correction does not count, plus the `CORRECT` rows recorded. With the divider invariant that gives the answer and
the length of the run for both dividers. -/

section
namespace Sys2Proof.Machine

/-- The row of a `DCORR` step (R233). -/
def Row.isCorrect (r : Row) : Bool :=
  match r with
  | .div r => r.act == .correct
  | .mul _ => false

/-- The number of corrections of the operation, as the trace shows it. -/
def State.corrections (s : State) : Nat := s.trace.countP Row.isCorrect

theorem corrections_pos_iff (s : State) : 0 < s.corrections ↔ ∃ r, Row.div r ∈ s.trace ∧ r.act = .correct := by
  rw [State.corrections, List.countP_pos_iff]
  constructor
  · rintro ⟨row, hmem, hrow⟩
    cases row with
    | div r => exact ⟨r, hmem, eq_of_beq hrow⟩
    | mul r => cases hrow
  · rintro ⟨r, hmem, hact⟩
    exact ⟨.div r, hmem, beq_iff_eq.2 hact⟩

/-- The `work` steps of a division before the phase, without the correction (R226 to R234). -/
def State.divPosition (s : State) : Nat :=
  match s.phase with
  | .dshift => 3 * (s.cnt - 1)
  | .darith => 3 * (s.cnt - 1) + 1
  | .dset => 3 * (s.cnt - 1) + 2
  | .dcorr | .dfinal => 3 * s.nreg
  | .resp => 3 * s.nreg + 1
  | .idle | .mstep => 0

/-- A correction can lie behind the state: only one of the non-restoring divider, and only after the last cycle. -/
def State.mayBeCorrected (s : State) : Bool := s.nonRestoring && decide (s.phase = .dfinal ∨ s.phase = .resp)

/-- The last row is the terminal row, with the quotient and remainder of the response (R234). -/
def State.EndsWithResult (s : State) : Prop :=
  ∃ r, s.trace.getLast? = some (.div r) ∧ r.act = .result ∧ r.lab = .final ∧ r.quo = s.rsp.quo ∧ r.rem = s.rsp.rem

/-! What a `work` step of a division does to each of them. -/

/-- The `work` steps of a division, by phase. -/
theorem work_division_cases {s t : State} (h : work s = .next t) (hd : s.inDivision = true) :
    (s.phase = .dshift ∧ t = dshift s) ∨ (s.phase = .darith ∧ t = darith s) ∨ (s.phase = .dset ∧ t = dset s) ∨
      (s.phase = .dcorr ∧ s.opc = 0xD#4 ∧ t = dcorr s) ∨ (s.phase = .dfinal ∧ t = dfinal s) := by
  obtain ⟨hp, -⟩ | ⟨hp, -⟩ | ⟨hp, -⟩ | ⟨hp, -⟩ | ⟨hp, -, rfl⟩ | ⟨hp, -, rfl⟩ | ⟨hp, -, rfl⟩ |
    ⟨hp, ho, rfl⟩ | ⟨hp, -, rfl⟩ := work_cases h
  iterate 4 simp [State.inDivision, State.working, hp] at hd
  all_goals simp [hp]
  exact ho

theorem SameDivision.trans {s t u : State} (h : SameDivision s t) (h' : SameDivision t u) : SameDivision s u := by
  obtain ⟨rows, ht⟩ := h.trace
  obtain ⟨rows', hu⟩ := h'.trace
  exact ⟨h'.opc.trans h.opc, h'.params.trans h.params, h'.nreg.trans h.nreg, h'.m.trans h.m, rows ++ rows',
    by rw [hu, ht, List.append_assoc]⟩

theorem work_sameDivision {s t : State} (h : work s = .next t) (hd : s.inDivision = true) : SameDivision s t := by
  have hsetting := work_setting h
  have hframe := work_division_frame h hd
  simp only [State.setting, State.divOperands, Prod.mk.injEq] at hsetting hframe
  obtain ⟨hopc, hparams, -⟩ := hsetting
  obtain ⟨-, hm, hnreg⟩ := hframe
  obtain ⟨r, hr⟩ := work_trace h (Bool.and_eq_true_iff.1 hd).1
  exact ⟨hopc, hparams, hnreg, hm, _, hr⟩

/-- Every step of a division records a row, `DCORR` alone a `CORRECT` row. -/
theorem work_division_row {s t : State} (h : work s = .next t) (hd : s.inDivision = true) :
    ∃ r, t.trace = s.trace ++ [.div r] ∧ (r.act = .correct ↔ s.phase = .dcorr) := by
  obtain ⟨hp, rfl⟩ | ⟨hp, rfl⟩ | ⟨hp, rfl⟩ | ⟨hp, -, rfl⟩ | ⟨hp, rfl⟩ := work_division_cases h hd
  · exact ⟨_, rfl, by simp [divRow, hp]⟩
  · unfold darith
    split_ifs <;> exact ⟨_, rfl, by simp [divRow, hp]⟩
  · rw [dset_eq, advanceCycle_trace, setQuotientBit]
    split_ifs <;> exact ⟨_, rfl, by simp [divRow, hp]⟩
  · exact ⟨_, rfl, by simp [divRow, hp]⟩
  · exact ⟨_, rfl, by simp [divRow, hp]⟩

theorem work_corrections {s t : State} (h : work s = .next t) (hd : s.inDivision = true) :
    t.corrections = s.corrections + if s.phase = .dcorr then 1 else 0 := by
  obtain ⟨r, ht, hact⟩ := work_division_row h hd
  simp [State.corrections, ht, List.countP_singleton, Row.isCorrect, hact]

theorem advanceCycle_divPosition {s : State} (hle : s.cnt ≤ s.nreg) : (advanceCycle s).divPosition = 3 * s.cnt := by
  unfold advanceCycle
  split_ifs with hlast
  · simp [State.divPosition]
  all_goals
    have hcnt : s.cnt = s.nreg := by omega
    simp [State.divPosition, hcnt]

theorem work_divPosition {s t : State} (hr : DivRunning s) (h : work s = .next t) (hd : s.inDivision = true) :
    t.divPosition = s.divPosition + if s.phase = .dcorr then 0 else 1 := by
  have hpos := hr.cnt_pos
  obtain ⟨hp, rfl⟩ | ⟨hp, rfl⟩ | ⟨hp, rfl⟩ | ⟨hp, -, rfl⟩ | ⟨hp, rfl⟩ := work_division_cases h hd
  · simp [State.divPosition, hp]
  · simp [State.divPosition, hp]
  · have hle : (setQuotientBit s).cnt ≤ (setQuotientBit s).nreg := by
      rw [setQuotientBit_cnt, (setQuotientBit_sameDivision s).nreg]; exact hr.cnt_le
    rw [dset_eq, advanceCycle_divPosition hle, setQuotientBit_cnt]
    simp [State.divPosition, hp]
    omega
  · simp [State.divPosition, hp, dcorr]
  · simp [State.divPosition, hp, dfinal]

theorem work_mayBeCorrected {s t : State} (h : work s = .next t) (hd : s.inDivision = true) :
    s.mayBeCorrected.toNat + (if s.phase = .dcorr then 1 else 0) ≤ t.mayBeCorrected.toNat := by
  have hn := nonRestoring_congr (work_sameDivision h hd).opc
  obtain ⟨hp, rfl⟩ | ⟨hp, rfl⟩ | ⟨hp, rfl⟩ | ⟨hp, ho, rfl⟩ | ⟨hp, rfl⟩ := work_division_cases h hd
  · simp [State.mayBeCorrected, hp]
  · simp [State.mayBeCorrected, hp]
  · simp [State.mayBeCorrected, hp]
  · simp [State.mayBeCorrected, State.nonRestoring, hp, ho, dcorr]
  · rw [State.mayBeCorrected, State.mayBeCorrected, hn]
    simp [hp, dfinal]

theorem work_answers {s t : State} (h : work s = .next t) (hd : s.inDivision = true) (ht : t.phase = .resp) :
    t.rsp.status = .ok ∧ t.EndsWithResult := by
  obtain ⟨-, rfl⟩ | ⟨-, rfl⟩ | ⟨-, rfl⟩ | ⟨-, -, rfl⟩ | ⟨-, rfl⟩ := work_division_cases h hd
  · simp at ht
  · simp at ht
  · obtain hp | hp | ⟨hp, -⟩ := dset_phase s <;> simp [hp] at ht
  · cases ht
  · exact ⟨rfl, _, List.getLast?_concat .., rfl, rfl, rfl, rfl⟩

/-- A step of a division goes on with it or answers it. -/
theorem work_inDivision_or_resp {s t : State} (h : work s = .next t) (hd : s.inDivision = true) :
    t.inDivision = true ∨ t.phase = .resp := by
  obtain ⟨-, rfl⟩ | ⟨-, rfl⟩ | ⟨-, rfl⟩ | ⟨-, -, rfl⟩ | ⟨-, rfl⟩ := work_division_cases h hd
  · exact .inl rfl
  · exact .inl (by simp [State.inDivision, State.working])
  · obtain hp | hp | ⟨hp, -⟩ := dset_phase s <;> simp [State.inDivision, State.working, hp]
  · exact .inl rfl
  · exact .inr rfl

theorem divPosition_le {s : State} (hr : DivRunning s) (hd : s.inDivision = true) : s.divPosition ≤ 3 * s.nreg := by
  have hpos := hr.cnt_pos
  have hle := hr.cnt_le
  cases hp : s.phase with
  | idle | resp | mstep => simp [State.inDivision, State.working, hp] at hd
  | dshift | darith | dset | dcorr | dfinal => simp only [State.divPosition, hp]; omega

/-- `s` is where the division that was loaded in `s₀` is after `k` `work` steps. -/
structure DivProgress (s₀ : State) (k : Nat) (s : State) : Prop where
  same : SameDivision s₀ s
  host : s.host = []
  fits : OpcodeFits s
  inv : DivInv s
  phase : s.inDivision = true ∨ s.phase = .resp
  steps : k = s.divPosition + s.corrections
  rows : s.trace.length = k + 1
  corrections_le : s.corrections ≤ s.mayBeCorrected.toNat
  answer : s.phase = .resp → s.rsp.status = .ok ∧ s.EndsWithResult

theorem DivProgress.of_work {s₀ s t : State} {k : Nat} (h : DivProgress s₀ k s) (hd : s.inDivision = true)
    (hwork : work s = .next t) : DivProgress s₀ (k + 1) t := by
  have hcorrections := work_corrections hwork hd
  have hposition := work_divPosition (h.inv.running hd) hwork hd
  have hmay := work_mayBeCorrected hwork hd
  obtain ⟨r, htrace, -⟩ := work_division_row hwork hd
  exact {
    same := h.same.trans (work_sameDivision hwork hd)
    host := (congrArg (·.2.2) (work_setting hwork)).trans h.host
    fits := h.fits.of_work hwork
    inv := h.inv.of_work hwork
    phase := work_inDivision_or_resp hwork hd
    steps := by rw [hcorrections, hposition, h.steps]; split_ifs <;> omega
    rows := by rw [htrace, List.length_append, h.rows, List.length_singleton]
    corrections_le := by have := h.corrections_le; omega
    answer := work_answers hwork hd }

/-- Short of `RESP` a division takes its next step, and it has not taken more than `3n + 1` yet. -/
theorem DivProgress.step_next {s₀ s : State} {k : Nat} (h : DivProgress s₀ k s) (hp : s.phase ≠ .resp) :
    k < 3 * s₀.nreg + 2 ∧ ∃ t, step s = .next t ∧ DivProgress s₀ (k + 1) t := by
  have hd : s.inDivision = true := h.phase.resolve_right hp
  constructor
  · have hposition := divPosition_le (h.inv.running hd) hd
    have hcorrections := h.corrections_le.trans (Bool.toNat_le _)
    rw [h.steps, ← h.same.nreg]
    omega
  · obtain ⟨t, ht⟩ := h.fits.work_next
    exact ⟨t, (step_nil h.host).trans ht, h.of_work hd ht⟩

/-! The run from the command on. -/

/-- The state an accepted division starts from. -/
def divStart (s : State) (op : BitVec 4) (x y : IntDesc) : State := loadDiv x y (beginCommand op { s with host := [] })

theorem divStart_operands {s : State} {x y : IntDesc} (op : BitVec 4) (hv : ValidDiv s.params x y) :
    ((divStart s op x y).dividend : Int) = x.val ∧ ((divStart s op x y).m.uint : Int) = y.val := by
  have hx0 := hv.x_ok.2
  have hy0 := hv.y_ok.2
  obtain ⟨-, hx, hy⟩ := (divWidth_le_iff _ _ _).1 (le_refl (divWidth x.val.toNat y.val.toNat))
  zify at hx hy
  rw [Int.toNat_of_nonneg hx0] at hx
  rw [Int.toNat_of_nonneg hy0.le] at hy
  exact ⟨uint_bv_of_lt hx0 hx, uint_bv_of_lt hy0.le (hy.trans (pow_lt_pow_right₀ one_lt_two (Nat.lt_succ_self _)))⟩

theorem divProgress_divStart {s : State} {x y : IntDesc} {op : BitVec 4} (ho : op = 0xC#4 ∨ op = 0xD#4)
    (hv : ValidDiv s.params x y) : DivProgress (divStart s op x y) 0 (divStart s op x y) where
  same := ⟨rfl, rfl, rfl, rfl, [], (List.append_nil _).symm⟩
  host := rfl
  fits := ⟨nofun, fun _ => by rcases ho with rfl | rfl <;> rfl, nofun⟩
  inv := (divRunning_loadDiv (s := beginCommand op { s with host := [] }) hv
    (by rcases ho with rfl | rfl <;> rfl) rfl).divInv nofun
  phase := .inl rfl
  steps := rfl
  rows := rfl
  corrections_le := Nat.zero_le _
  answer := nofun

/-- The run of a division with opcode `op` from the idle state `s` ends in `t`. -/
structure DivisionRun (s : State) (op : BitVec 4) (x y : IntDesc) (t : State) : Prop where
  first : FirstResponse (3 * divWidth x.val.toNat y.val.toNat + 1 + t.corrections + 1) s t
  status : t.rsp.status = .ok
  quo : (t.rsp.quo : Int) = x.val / y.val
  rem : (t.rsp.rem : Int) = x.val % y.val
  alg : t.rsp.alg = op.getLsbD 0
  width : t.rsp.n = divWidth x.val.toNat y.val.toNat
  rows : t.trace.length = 3 * divWidth x.val.toNat y.val.toNat + 2 + t.corrections
  corrections_le : t.corrections ≤ (op.getLsbD 0).toNat
  ends : t.EndsWithResult

/-- In `RESP` a division has answered the quotient and remainder of the operands it was loaded with. -/
theorem DivProgress.divisionRun {s t : State} {x y : IntDesc} {op : BitVec 4} {k : Nat}
    (ho : op = 0xC#4 ∨ op = 0xD#4) (hv : ValidDiv s.params x y) (h : DivProgress (divStart s op x y) k t)
    (hfirst : FirstResponse (k + 1) s t) : DivisionRun s op x y t := by
  have hp := hfirst.phase
  have hopc : t.opc = op := h.same.opc
  have hnreg : t.nreg = divWidth x.val.toNat y.val.toNat := h.same.nreg
  have hdividing : t.dividing = true := by
    rw [State.dividing, hopc]; rcases ho with rfl | rfl <;> rfl
  have hsteps : k = 3 * divWidth x.val.toNat y.val.toNat + 1 + t.corrections := by
    rw [h.steps, State.divPosition, hp, hnreg]
  have hcorrections := h.corrections_le
  rw [State.mayBeCorrected, hp, State.nonRestoring, hopc] at hcorrections
  obtain ⟨hdividend, hdivisor⟩ := divStart_operands op hv
  rw [← ((divProgress_divStart ho hv).inv.running rfl).shape.dividend_eq h.same] at hdividend
  rw [← h.same.m] at hdivisor
  obtain ⟨hok, hends⟩ := h.answer hp
  have hanswer := h.inv.answer hp hok hdividing
  exact {
    first := hsteps ▸ hfirst
    status := hok
    quo := by rw [hanswer.quo, ← hdividend, ← hdivisor]; rfl
    rem := by rw [hanswer.rem, ← hdividend, ← hdivisor]; rfl
    alg := by rw [hanswer.alg, State.nonRestoring, hopc]
    width := hanswer.width.trans hnreg
    rows := by rw [h.rows, hsteps]; omega
    corrections_le := by simpa using hcorrections
    ends := hends }

theorem exists_divisionRun {s : State} {c : Command} {i : Instr} {x y : IntDesc} (hi : i = .divr x y ∨ i = .divnr x y)
    (hp : s.phase = .idle) (hhost : s.host = [.command c]) (hdecode : decode c = .ok i)
    (hv : ValidDiv s.params x y) : ∃ t, DivisionRun s i.opcode x y t := by
  have ho : i.opcode = 0xC#4 ∨ i.opcode = 0xD#4 := by rcases hi with rfl | rfl <;> simp [Instr.opcode]
  have hstart : step s = .next (divStart s i.opcode x y) := by
    have hvalid := (checkDiv_eq_none_iff _ _ _).2 hv
    rcases hi with rfl | rfl <;> exact step_accepts hp hhost hdecode hvalid
  obtain ⟨k, t, hfirst, hprogress⟩ := exists_firstResponse (fun _ _ => DivProgress.step_next)
    (divProgress_divStart ho hv)
  rw [Nat.zero_add] at hprogress
  exact ⟨t, hprogress.divisionRun ho hv (hfirst.succ hstart (by simp [hp]))⟩

/-- The width of a valid division is the least that holds both operands: a positive divisor makes it positive (R221). -/
theorem divWidth_le_iff_of_valid {p : Params} {x y : IntDesc} (hv : ValidDiv p x y) (k : Nat) :
    divWidth x.val.toNat y.val.toNat ≤ k ↔ x.val < 2 ^ k ∧ y.val < 2 ^ k := by
  have hx0 := hv.x_ok.2
  have hy0 := hv.y_ok.2
  rw [divWidth_le_iff]
  zify
  rw [Int.toNat_of_nonneg hx0, Int.toNat_of_nonneg hy0.le]
  refine and_iff_right_of_imp fun ⟨_, hy⟩ => ?_
  by_contra hk
  obtain rfl : k = 0 := by omega
  rw [pow_zero] at hy
  omega

theorem DivisionRun.quo_mul_add_rem {s t : State} {op : BitVec 4} {x y : IntDesc} (h : DivisionRun s op x y t) :
    x.val = t.rsp.quo * y.val + t.rsp.rem := by
  rw [h.quo, h.rem, Int.ediv_mul_add_emod]

theorem DivisionRun.rem_lt {s t : State} {op : BitVec 4} {x y : IntDesc} (h : DivisionRun s op x y t)
    (hy : 0 < y.val) : (t.rsp.rem : Int) < y.val :=
  h.rem ▸ Int.emod_lt_of_pos x.val hy

/-- Settles O45: the restoring divider never corrects. -/
theorem divrAnswersQuotientAndRemainder : Obligations.DivrAnswersQuotientAndRemainder := by
  intro s c x y hp hhost hdecode hv
  obtain ⟨t, h⟩ := exists_divisionRun (.inl rfl) hp hhost hdecode hv
  have halg : t.rsp.alg = false := h.alg.trans (by simp [Instr.opcode])
  have hcorrections : t.corrections = 0 := by simpa [Instr.opcode] using h.corrections_le
  have hfirst := h.first
  have hrows := h.rows
  rw [hcorrections, Nat.add_zero] at hfirst hrows
  exact ⟨_, t, divWidth_le_iff_of_valid hv, hfirst.earlier, Nat.add_comm _ 1 ▸ hfirst.run, hfirst.phase, h.status,
    h.quo, h.rem, h.quo_mul_add_rem, h.rem_lt hv.y_ok.2, halg, h.width, hrows, h.ends⟩

/-- Settles O46: the non-restoring divider corrects once or not at all, and the trace shows which. -/
theorem divnrAnswersQuotientAndRemainder : Obligations.DivnrAnswersQuotientAndRemainder := by
  intro s c x y hp hhost hdecode hv
  obtain ⟨t, h⟩ := exists_divisionRun (.inr rfl) hp hhost hdecode hv
  have halg : t.rsp.alg = true := h.alg.trans (by simp [Instr.opcode])
  have hcorrections : t.corrections ≤ 1 := h.corrections_le.trans (Bool.toNat_le _)
  have hfirst := h.first
  rw [Nat.add_comm _ 1] at hfirst
  refine ⟨_, _, t, divWidth_le_iff_of_valid hv, by omega, hfirst.earlier, hfirst.run, hfirst.phase, h.status,
    h.quo, h.rem, h.quo_mul_add_rem, h.rem_lt hv.y_ok.2, halg, h.width, ?_, ?_, h.ends⟩
  · rw [h.rows]; omega
  · rw [← corrections_pos_iff]; omega

end Sys2Proof.Machine
end

/-! ### The decoder and the encoder (R90 to R93, R103) -/

section
namespace Sys2Proof

/-- The flags `AT` and `SX` of an instruction's command byte (R91); only `PADT` has them. -/
def Instr.flags (i : Instr) : Bool × Bool :=
  match i with
  | .padt t x _ _ => (t, x)
  | .neg _ _ | .adds _ _ | .shl0 _ | .dec _ | .mulb2 _ _ _ | .mulb4 _ _ _ | .divr _ _ | .divnr _ _ => (false, false)

theorem encode_cmd (i : Instr) : (encode i).cmd = commandByte i.flags.2 i.flags.1 i.opcode := by
  cases i <;> rfl

theorem readsFrom_encode (i : Instr) : i.readsFrom (encode i) := by
  cases i <;> simp [Instr.readsFrom, encode]

/-- The four fields of a command byte and the byte determine each other (R91). -/
theorem cmd_eq_commandByte_iff (c : Command) (x t : Bool) (op : BitVec 4) :
    c.cmd = commandByte x t op ↔ c.reserved = 0#2 ∧ c.signExt = x ∧ c.allowTrunc = t ∧ c.op = op := by
  unfold Command.reserved Command.signExt Command.allowTrunc Command.op
  generalize c.cmd = b
  constructor
  · rintro rfl
    revert x t op
    decide
  · rintro ⟨hreserved, rfl, rfl, rfl⟩
    revert b
    decide

theorem decode_eq_ok_iff_fields (c : Command) (i : Instr) :
    decode c = .ok i ↔ c.reserved = 0#2 ∧ (c.op = 0x1#4 ∨ c.allowTrunc = false ∧ c.signExt = false) ∧
      c.operation = some i := by
  unfold decode
  split_ifs with hreserved hflags
  · simp [hreserved]
  · obtain ⟨hop, hset⟩ := hflags
    rcases hset with hset | hset <;> simp [hop, hset]
  · have hclear : c.op = 0x1#4 ∨ c.allowTrunc = false ∧ c.signExt = false := by
      simpa [or_iff_not_imp_left] using hflags
    cases c.operation <;> simp [not_not.mp hreserved, hclear]

theorem exists_decode_eq_error_iff (c : Command) :
    (∃ e, decode c = .error e) ↔ c.reserved ≠ 0#2 ∨ (c.op ≠ 0x1#4 ∧ (c.allowTrunc = true ∨ c.signExt = true)) ∨
      c.operation = none := by
  unfold decode
  split_ifs with hreserved hflags
  · simp [hreserved]
  · simp [hflags]
  · cases c.operation <;> simp [hreserved, hflags]

theorem flags_of_opcode_ne {i : Instr} (h : i.opcode ≠ 0x1#4) : i.flags = (false, false) := by
  cases i with
  | padt => exact absurd rfl h
  | neg | adds | shl0 | dec | mulb2 | mulb4 | divr | divnr => rfl

/-- The operation is the instruction of the opcode, with the slots it reads and, for `PADT`, its flags (R92, R93). -/
theorem operation_eq_some_iff (c : Command) (i : Instr) :
    c.operation = some i ↔ c.op = i.opcode ∧ i.readsFrom c ∧
      (c.op = 0x1#4 → i.flags = (c.allowTrunc, c.signExt)) := by
  constructor
  · intro h
    unfold Command.operation at h
    split at h
    case h_10 => cases h
    all_goals
      next hop =>
      cases h
      simp [Instr.readsFrom, Instr.opcode, Instr.flags, ← BitVec.toNat_inj, hop]
  · rintro ⟨hop, hreads, hflags⟩
    cases i <;> simp_all [Command.operation, Instr.opcode, Instr.readsFrom, Instr.flags]

/-- A command decodes to an instruction exactly when it has its command byte and holds its operands (R91 to R93). -/
theorem decode_eq_ok_iff (c : Command) (i : Instr) : decode c = .ok i ↔ c.cmd = (encode i).cmd ∧ i.readsFrom c := by
  rw [decode_eq_ok_iff_fields, operation_eq_some_iff, encode_cmd, cmd_eq_commandByte_iff]
  by_cases hpadt : i.opcode = 0x1#4
  · constructor
    · rintro ⟨hreserved, -, hop, hreads, hflags⟩
      rw [hflags (hop.trans hpadt)]
      exact ⟨⟨hreserved, rfl, rfl, hop⟩, hreads⟩
    · rintro ⟨⟨hreserved, hsx, hat, hop⟩, hreads⟩
      exact ⟨hreserved, .inl (hop.trans hpadt), hop, hreads, fun _ => by rw [hat, hsx]⟩
  · rw [flags_of_opcode_ne hpadt]
    constructor
    · rintro ⟨hreserved, hclear, hop, hreads, -⟩
      obtain ⟨hat, hsx⟩ := hclear.resolve_left (hop ▸ hpadt)
      exact ⟨⟨hreserved, hsx, hat, hop⟩, hreads⟩
    · rintro ⟨⟨hreserved, hsx, hat, hop⟩, hreads⟩
      exact ⟨hreserved, .inr ⟨hat, hsx⟩, hop, hreads, fun h => absurd (hop ▸ h) hpadt⟩

/-- Settles O3: the second part, at the instruction's own encoding, is the first. -/
theorem decodeAndEncodeAgree : Obligations.DecodeAndEncodeAgree :=
  ⟨fun i => (decode_eq_ok_iff _ i).2 ⟨rfl, readsFrom_encode i⟩, decode_eq_ok_iff⟩

/-- Settles O1: each of the twelve bytes is that of the encoding, and the operands are those of the slots. -/
theorem commandBytesDecodeToTheirOperations : Obligations.CommandBytesDecodeToTheirOperations := by
  intro c
  refine ⟨?_, ?_, ?_, ?_, ?_, ?_, ?_, ?_, ?_, ?_, ?_, ?_⟩ <;>
    exact fun hcmd => (decode_eq_ok_iff c _).2 ⟨hcmd, by simp [Instr.readsFrom]⟩

theorem reserved_ne_zero_iff (c : Command) :
    c.reserved ≠ 0#2 ↔ c.cmd.getLsbD 7 = true ∨ c.cmd.getLsbD 6 = true := by
  unfold Command.reserved
  generalize c.cmd = b
  revert b
  decide

theorem op_toNat (c : Command) : c.op.toNat = c.cmd.toNat % 16 := by
  simp [Command.op, BitVec.extractLsb'_toNat]

/-- The seven reserved opcodes (R92). -/
theorem operation_eq_none_iff (c : Command) :
    c.operation = none ↔ c.op.toNat ∈ [0x0, 0x6, 0x7, 0xA, 0xB, 0xE, 0xF] := by
  unfold Command.operation
  have hlt : c.op.toNat < 16 := c.op.isLt
  generalize c.op.toNat = n at hlt ⊢
  interval_cases n <;> simp

/-- Settles O2: the decoder's three refusals, in the bits of the command byte. -/
theorem illegalCommandBytesAreRefused : Obligations.IllegalCommandBytesAreRefused := by
  intro c
  have hop : c.op ≠ 0x1#4 ↔ c.cmd.toNat % 16 ≠ 0x1 := by
    rw [← op_toNat, ne_eq, ne_eq, ← BitVec.toNat_inj]; rfl
  rw [exists_decode_eq_error_iff, reserved_ne_zero_iff, hop, operation_eq_none_iff, op_toNat, or_assoc]
  unfold Command.allowTrunc Command.signExt
  tauto

end Sys2Proof
end

/-! ### The numbers on the ports and the recoding tables (R98, R101, R102, R107, R271, R272) -/

section
namespace Sys2Proof.Machine

/-- Settles O17: the tables, entry by entry. -/
theorem errorCodesAreNumbered : Obligations.ErrorCodesAreNumbered := by
  refine ⟨fun l => ?_, fun a => ?_, fun s op ⟨cls, info⟩ => ⟨rfl, ?_, ?_, rfl⟩⟩
  · cases l <;> rfl
  · cases a <;> rfl
  · cases cls <;> rfl
  · cases info <;> rfl

theorem digit_field_toInt (d : Digit) : d.field.toInt = d.val := by
  cases d <;> rfl

/-- Settles O30: both tables, and the fields of the five digits. -/
theorem recodingTablesMatchTheirFormulas : Obligations.RecodingTablesMatchTheirFormulas :=
  ⟨boothDigit_val, bitPairDigit_val, digit_field_toInt⟩

end Sys2Proof.Machine
end

/-! ### The checks in order (R103, R270, R280) -/

section
namespace Sys2Proof.Machine

/-- The first failing check of the list raises `IllegalCommand`. -/
def RaisesIllegal (checks : List (Bool × ErrInfo)) : Prop := ∃ info, firstError checks = some ⟨.illegalCommand, info⟩

theorem raisesIllegal_cons (fails : Bool) (info : Info) (rest : List (Bool × ErrInfo)) :
    RaisesIllegal ((fails, ⟨.illegalCommand, info⟩) :: rest) ↔ fails = true ∨ RaisesIllegal rest := by
  cases fails <;> simp [RaisesIllegal]

theorem not_raisesIllegal {checks : List (Bool × ErrInfo)} (h : ∀ x ∈ checks, x.2.cls ≠ .illegalCommand) :
    ¬ RaisesIllegal checks := by
  induction checks with
  | nil => simp [RaisesIllegal]
  | cons x rest ih =>
    obtain ⟨fails, e⟩ := x
    obtain ⟨he, hrest⟩ := List.forall_mem_cons.mp h
    rintro ⟨info, hfirst⟩
    rw [firstError_cons] at hfirst
    split_ifs at hfirst
    · cases hfirst
      exact he rfl
    · exact ih hrest ⟨info, hfirst⟩

/-- One check for `IllegalCommand`, and then none. -/
theorem raisesIllegal_one {legal : Bool} {info : Info} {rest : List (Bool × ErrInfo)}
    (h : ∀ x ∈ rest, x.2.cls ≠ .illegalCommand) :
    RaisesIllegal ((!legal, ⟨.illegalCommand, info⟩) :: rest) ↔ legal = false := by
  rw [raisesIllegal_cons, or_iff_left (not_raisesIllegal h), Bool.not_eq_true']

/-- Two checks for `IllegalCommand`, and then none. -/
theorem raisesIllegal_two {legal legal' : Bool} {info info' : Info} {rest : List (Bool × ErrInfo)}
    (h : ∀ x ∈ rest, x.2.cls ≠ .illegalCommand) :
    RaisesIllegal ((!legal, ⟨.illegalCommand, info⟩) :: (!legal', ⟨.illegalCommand, info'⟩) :: rest) ↔
      (legal && legal') = false := by
  rw [raisesIllegal_cons, raisesIllegal_one h, Bool.not_eq_true', Bool.and_eq_false_iff]

theorem badSigned_eq_not_wfSigned (p : Params) (v : VecDesc) :
    (badVector p v || decide (v.len < v.frac)) = !v.wfSigned p := by
  simp only [badVector_eq_not_wfVector, VecDesc.wfSigned, Bool.not_and, ← decide_not, Nat.not_le]

theorem checkMul_illegal_iff (p : Params) (a b : VecDesc) (n : LenDesc) :
    (∃ info, checkMul p a b n = some ⟨.illegalCommand, info⟩) ↔ (a.carried p && b.carried p) = false := by
  simp only [checkMul, overlong_eq_not_carried]
  exact raisesIllegal_two (by simp)

/-- `IllegalCommand` is raised exactly where a slot is illegal (R103). -/
theorem errorOf_illegal_iff (p : Params) (i : Instr) :
    (∃ info, errorOf p i = some ⟨.illegalCommand, info⟩) ↔ i.wellFormed p = false := by
  cases i with
  | padt t x v n =>
    simp only [errorOf, checkPadt, badVector_eq_not_wfVector, badTarget_eq_not_wfTarget]
    exact raisesIllegal_two (by simp)
  | neg v n =>
    simp only [errorOf, checkNeg, badVector_eq_not_wfVector, badTarget_eq_not_wfTarget]
    exact raisesIllegal_two (by simp)
  | adds a b =>
    simp only [errorOf, checkAdds, badVector_eq_not_wfVector]
    exact raisesIllegal_two (by simp)
  | shl0 v =>
    simp only [errorOf, checkShl0, badVector_eq_not_wfVector]
    exact raisesIllegal_one (by simp)
  | dec v =>
    simp only [errorOf, checkDec, badSigned_eq_not_wfSigned]
    exact raisesIllegal_one (by simp)
  | mulb2 a b n | mulb4 a b n => exact checkMul_illegal_iff p a b n
  | divr x y | divnr x y =>
    exact iff_of_false (not_raisesIllegal (by simp)) (by simp [Instr.wellFormed])

/-- What an idle block does with an instruction whose validation is known (R280, R281). -/
theorem errorOf_and_exec_of_idle {s : State} (hidle : s.phase = .idle) {i : Instr} {e : Option ErrInfo}
    (h : errorOf s.params i = e) :
    errorOf s.params i = e ∧ ∀ e' ∈ e, exec i s = .next (State.errored i.opcode e' s) := by
  refine ⟨h, fun e' he' => ?_⟩
  rw [exec_eq_accept, h, Option.mem_def.mp he', accept_idle_some hidle]

/-- Settles O14: the first failing check of each list is the one before which every other passes. -/
theorem illegalCommandExactlyWhenIllFormed : Obligations.IllegalCommandExactlyWhenIllFormed := by
  refine ⟨errorOf_illegal_iff, fun s hidle => ?_⟩
  simp only [← badVector_iff, ← badTarget_iff, Bool.not_eq_true]
  refine ⟨fun t x v n => ⟨fun hv => ?_, fun hv hn => ?_, fun hv hn hlen ht => ?_, fun hv hn hlen => ?_⟩,
    fun v n => ⟨fun hv => ?_, fun hv hn => ?_, fun hv hn hlen => ?_, fun hv hn hlen => ?_⟩,
    fun a b => ⟨fun ha => ?_, fun ha hb => ?_, fun ha hb => ?_⟩, fun v => ⟨fun hv => ?_, fun hv => ?_⟩,
    fun v => ⟨fun hv => ?_, fun hv hfrac => ?_⟩⟩ <;> refine errorOf_and_exec_of_idle hidle ?_
  · simp [errorOf, checkPadt, hv]
  · simp [errorOf, checkPadt, hv, hn]
  · simp [errorOf, checkPadt, hv, hn, hlen, ht]
  · rcases hlen with hlen | ht
    · simp [errorOf, checkPadt, hv, hn, hlen.not_gt]
    · simp [errorOf, checkPadt, hv, hn, ht]
  · simp [errorOf, checkNeg, hv]
  · simp [errorOf, checkNeg, hv, hn]
  · simp [errorOf, checkNeg, hv, hn, hlen]
  · simp [errorOf, checkNeg, hv, hn, hlen.not_gt]
  · simp [errorOf, checkAdds, ha]
  · simp [errorOf, checkAdds, ha, hb]
  · simp [errorOf, checkAdds, ha, hb]
  · simp [errorOf, checkShl0, hv]
  · simp [errorOf, checkShl0, hv]
  · rcases hv with hv | hfrac
    · simp [errorOf, checkDec, hv]
    · simp [errorOf, checkDec, hfrac]
  · simp [errorOf, checkDec, hv, hfrac.not_gt]

end Sys2Proof.Machine
end

/-! ### The display string and the literal (R13, R95, R142) -/

section
namespace Sys2Proof

theorem stringForm_length (v : Vec) : v.stringForm.length = v.len := by
  simp [Vec.stringForm]

/-- The characters of a string form are binary digits. -/
def BinaryString (ds : List Char) : Prop := ∀ c ∈ ds, c = '0' ∨ c = '1'

theorem binaryString_stringForm (v : Vec) : BinaryString v.stringForm := by
  intro c hc
  obtain ⟨i, -, rfl⟩ := List.mem_map.mp hc
  cases v.bit i
  · exact .inl rfl
  · exact .inr rfl

theorem binaryDigits_of_binaryString {ds : List Char} (h : BinaryString ds) (hne : ds ≠ []) :
    binaryDigits ds = true := by
  simpa [binaryDigits, hne, BinaryString] using h

theorem BinaryString.ne_point {ds : List Char} (h : BinaryString ds) : ∀ c ∈ ds, (c != '.') = true := by
  intro c hc
  rcases h c hc with rfl | rfl <;> rfl

/-- A literal without a point (R95). -/
theorem literal_whole {ds : List Char} (h : BinaryString ds) (hne : ds ≠ []) :
    literal ds = { len := ds.length, bits := Vec.ofDigits ds } := by
  have htake : ds.takeWhile (· != '.') = ds := List.takeWhile_eq_self_iff.2 h.ne_point
  have hdrop : ds.dropWhile (· != '.') = [] := List.dropWhile_eq_nil_iff.2 h.ne_point
  simp only [literal, htake, hdrop, binaryDigits_of_binaryString h hne, if_true]

/-- A literal with a point (R95). -/
theorem literal_point {whole part : List Char} (hwhole : BinaryString whole) (hpart : BinaryString part)
    (hw : whole ≠ []) (hp : part ≠ []) :
    literal (whole ++ '.' :: part) =
      { len := whole.length + part.length, frac := part.length, bits := Vec.ofDigits (whole ++ part) } := by
  have htake : (whole ++ '.' :: part).takeWhile (· != '.') = whole := by
    rw [List.takeWhile_append_of_pos hwhole.ne_point]; simp
  have hdrop : (whole ++ '.' :: part).dropWhile (· != '.') = '.' :: part := by
    rw [List.dropWhile_append_of_pos hwhole.ne_point]; simp
  simp only [literal, htake, hdrop, binaryDigits_of_binaryString hwhole hw,
    binaryDigits_of_binaryString hpart hp, Bool.and_self, if_true]

theorem ofDigits_concat (ds : List Char) (c : Char) :
    Vec.ofDigits (ds ++ [c]) = (Vec.ofDigits ds).append (Vec.ofBit (c == '1')) := by
  simp [Vec.ofDigits]

theorem ofDigits_len (ds : List Char) : (Vec.ofDigits ds).len = ds.length := by
  induction ds using List.reverseRecOn with
  | nil => rfl
  | append_singleton ds c ih => rw [ofDigits_concat]; simp [ih]

/-- Digit `i` from the right is bit `i` (R13). -/
theorem ofDigits_bit (ds : List Char) (i : Nat) : (Vec.ofDigits ds).bit i = (ds.reverse[i]? == some '1') := by
  induction ds using List.reverseRecOn generalizing i with
  | nil => simp [Vec.ofDigits, Vec.empty, Vec.bit]
  | append_singleton ds c ih =>
    rw [ofDigits_concat, Vec.bit_append, List.reverse_concat]
    cases i with
    | zero => simp
    | succ i => simp [ih]

theorem bitChar_beq_one (b : Bool) : (some (bitChar b) == some '1') = b := by
  cases b <;> rfl

/-- The string form read back is the vector (R13). -/
theorem ofDigits_stringForm (v : Vec) : Vec.ofDigits v.stringForm = v := by
  have hlen : (Vec.ofDigits v.stringForm).len = v.len := by rw [ofDigits_len, stringForm_length]
  refine Vec.ext_bit hlen fun i hi => ?_
  rw [hlen] at hi
  rw [ofDigits_bit, Vec.stringForm, ← List.map_reverse, List.reverse_reverse, List.getElem?_map,
    List.getElem?_range hi, Option.map_some, bitChar_beq_one]

/-- Settles O60: the point splits the string form after at least one digit, and leaves none out. -/
theorem displayStringReadsBack : Obligations.DisplayStringReadsBack := by
  intro v f hf
  have hlen := stringForm_length v
  have hdigits := binaryString_stringForm v
  unfold Vec.showPoint
  split_ifs with h0
  · have hne : v.stringForm ≠ [] := List.ne_nil_of_length_pos (by omega)
    rw [literal_whole hdigits hne, hlen, ofDigits_stringForm, h0]
  · have hwhole : BinaryString (v.stringForm.take (v.len - f)) := fun c hc => hdigits c (List.mem_of_mem_take hc)
    have hpart : BinaryString (v.stringForm.drop (v.len - f)) := fun c hc => hdigits c (List.mem_of_mem_drop hc)
    have hwlen : (v.stringForm.take (v.len - f)).length = v.len - f := by rw [List.length_take, hlen]; omega
    have hplen : (v.stringForm.drop (v.len - f)).length = f := by rw [List.length_drop, hlen]; omega
    rw [literal_point hwhole hpart (List.ne_nil_of_length_pos (by omega)) (List.ne_nil_of_length_pos (by omega)),
      hwlen, hplen, List.take_append_drop, ofDigits_stringForm, Nat.sub_add_cancel hf.le]

end Sys2Proof
end

/-! ### Bit positions beyond a vector's length (R99) -/

section
namespace Sys2Proof

/-- The descriptor with exactly the bit positions below its length. -/
def VecDesc.cut (d : VecDesc) : VecDesc := { d with bits := d.vec }

@[simp] theorem VecDesc.cut_bad (d : VecDesc) : d.cut.bad = d.bad := rfl
@[simp] theorem VecDesc.cut_len (d : VecDesc) : d.cut.len = d.len := rfl
@[simp] theorem VecDesc.cut_frac (d : VecDesc) : d.cut.frac = d.frac := rfl
@[simp] theorem VecDesc.cut_vec (d : VecDesc) : d.cut.vec = d.vec := VecDesc.vec_ofVec d.vec d.bad d.frac

/-- Descriptors that differ only at or above their length are the same once cut. -/
theorem VecDesc.cut_congr {d d' : VecDesc} (hbad : d.bad = d'.bad) (hlen : d.len = d'.len)
    (hfrac : d.frac = d'.frac) (hbits : ∀ j < d.len, d.bits.bit j = d'.bits.bit j) : d.cut = d'.cut := by
  have hvec : d.vec = d'.vec := Vec.ext_bit hlen fun i hi => by
    rw [VecDesc.bit_vec, VecDesc.bit_vec, hbits i hi, hlen]
  simp only [VecDesc.cut, hbad, hlen, hfrac, hvec]

/-- The instruction with every vector operand cut to its length. -/
def Instr.cut (i : Instr) : Instr :=
  match i with
  | .padt t x v n => .padt t x v.cut n
  | .neg v n => .neg v.cut n
  | .adds a b => .adds a.cut b.cut
  | .shl0 v => .shl0 v.cut
  | .dec v => .dec v.cut
  | .mulb2 a b n => .mulb2 a.cut b.cut n
  | .mulb4 a b n => .mulb4 a.cut b.cut n
  | .divr x y => .divr x y
  | .divnr x y => .divnr x y

theorem Vec.getLsbD_field (v : Vec) (w j : Nat) : (v.field w).getLsbD j = (decide (j < w) && v.bit j) :=
  BitVec.getLsbD_setWidth ..

namespace Machine

theorem zeroVector_cut (d : VecDesc) : zeroVector d.cut = zeroVector d := by
  rw [zeroVector, VecDesc.cut_vec, zeroVector]

theorem checkMul_cut (p : Params) (a b : VecDesc) (n : LenDesc) :
    checkMul p a.cut b.cut n = checkMul p a b n := by
  simp only [checkMul, zeroVector_cut]
  rfl

theorem errorOf_cut (p : Params) (i : Instr) : errorOf p i.cut = errorOf p i := by
  cases i with
  | mulb2 a b n | mulb4 a b n => exact checkMul_cut p a b n
  | padt | neg | adds | shl0 | dec | divr | divnr => rfl

theorem loadOf_cut (i : Instr) : loadOf i.cut = loadOf i := by
  cases i with
  | mulb2 | mulb4 => funext s; simp [Instr.cut, loadOf, loadMulb2, loadMulb4]
  | padt | neg | adds | shl0 | dec => simp [Instr.cut, loadOf]
  | divr | divnr => rfl

/-- No instruction reads a bit position at or above the length of its operand. -/
theorem exec_cut (i : Instr) (s : State) : exec i.cut s = exec i s := by
  have hop : i.cut.opcode = i.opcode := by cases i <;> rfl
  rw [exec_eq_accept, exec_eq_accept, errorOf_cut, loadOf_cut, hop]

theorem exec_congr_of_cut_eq {i i' : Instr} (h : i.cut = i'.cut) (s : State) : exec i s = exec i' s := by
  rw [← exec_cut i, h, exec_cut]

/-- Settles O59: no instruction reads the positions beyond the length, and a port field repeats the bits below it. -/
theorem positionsBeyondTheLengthPlayNoPart : Obligations.PositionsBeyondTheLengthPlayNoPart := by
  refine ⟨fun d d' s hbad hlen hfrac hbits => ?_, fun v w j => ⟨fun hj => ?_, fun _ hw => ?_⟩⟩
  · have hcut : d.cut = d'.cut := VecDesc.cut_congr hbad hlen hfrac hbits
    refine ⟨fun t x n => ?_, fun n => ?_, fun e => ⟨?_, ?_⟩, ?_, ?_, fun e n => ⟨?_, ?_⟩, fun e n => ⟨?_, ?_⟩⟩ <;>
      exact exec_congr_of_cut_eq (by simp only [Instr.cut, hcut]) s
  · rw [Vec.getLsbD_field, Vec.bit_of_len_le v hj, Bool.and_false]
  · rw [Vec.getLsbD_field, decide_eq_true hw, Bool.true_and]

end Machine
end Sys2Proof
end

/-! ### The recorded PartialProducts (R100, R165, R196)

A `work` step of a running multiplication is a recoding step for the next digit, and it records that digit's
PartialProduct without cutting it. So the recorded PartialProducts sum to the multiplicand times the multiplier bits
recoded so far. -/

section
namespace Sys2Proof

theorem Vec.sint_ne_zero_of_uint_ne_zero {v : Vec} (h : v.uint ≠ 0) : v.sint ≠ 0 := by
  intro hzero
  have huint := Vec.uint_eq_sint_of_nonneg hzero.ge
  omega

end Sys2Proof

namespace Sys2Proof.Machine

theorem partialProducts_append (l l' : List Row) :
    partialProducts (l ++ l') = partialProducts l ++ partialProducts l' := by
  induction l with
  | nil => rfl
  | cons r l ih =>
    cases r with
    | mul r => cases h : r.ppValid <;> simp [partialProducts, h, ih]
    | div r => simpa [partialProducts] using ih

/-- What a recoding step records: nothing for the digit 0. -/
theorem partialProducts_recodeAdvance (d : Digit) (exam : BitVec 3) (flag : Bool) (s : State) :
    partialProducts (recodeAdvance d exam flag s).trace = partialProducts s.trace ++
      if d.val = 0 then [] else [(d, bv (s.accWidth - s.recoded) (d.val * s.md.sint), s.recoded)] := by
  simp only [recodeAdvance, recodeStep_eq]
  by_cases hd : d.val = 0 <;> split_ifs <;> simp [partialProducts_append, partialProducts, hd]

/-- The PartialProducts among `rows` are exact multiples of `x` that reach the top of an accumulator of `width` bits,
and at their shifts they sum to `x * y`. -/
structure RecordsProduct (rows : List Row) (width : Nat) (x y : Int) : Prop where
  uncut : ∀ q ∈ partialProducts rows, q.2.1.sint = q.1.val * x ∧ q.2.1.len + q.2.2 = width
  sum : ((partialProducts rows).map (fun q => q.2.1.sint * 2 ^ q.2.2)).sum = x * y

theorem recordsProduct_nil (width : Nat) (x : Int) : RecordsProduct [] width x 0 where
  uncut := nofun
  sum := (mul_zero x).symm

theorem RecordsProduct.partialProducts_ne_nil {rows : List Row} {width : Nat} {x y : Int}
    (h : RecordsProduct rows width x y) (hx : x ≠ 0) (hy : y ≠ 0) : partialProducts rows ≠ [] := by
  intro hnil
  have hsum := h.sum
  rw [hnil] at hsum
  exact mul_ne_zero hx hy hsum.symm

/-- `d` times the multiplicand fits the accumulator above the bits recoded so far. -/
def State.FitsAbove (s : State) (d : Digit) : Prop :=
  (bv (s.accWidth - s.recoded) (d.val * s.md.sint)).sint = d.val * s.md.sint

/-- Recording the next digit's PartialProduct, which fits. -/
theorem RecordsProduct.recodeAdvance {s : State} {d : Digit} (exam : BitVec 3) (flag : Bool)
    (h : RecordsProduct s.trace s.accWidth s.md.sint (s.mq.slice 1 s.recoded).sint) (hd : s.NextDigit d)
    (hfits : s.FitsAbove d) (hle : s.recoded ≤ s.accWidth) :
    RecordsProduct (recodeAdvance d exam flag s).trace s.accWidth s.md.sint (s.mq.slice 1 s.recodedNext).sint := by
  have hnext : (s.mq.slice 1 s.recodedNext).sint = (s.mq.slice 1 s.recoded).sint + d.val * 2 ^ s.recoded := hd
  obtain ⟨huncut, hsum⟩ := h
  constructor <;> rw [partialProducts_recodeAdvance]
  · intro q hq
    rcases List.mem_append.mp hq with hq | hq
    · exact huncut q hq
    · split_ifs at hq
      · cases hq
      · rw [List.mem_singleton.mp hq]
        exact ⟨hfits, Nat.sub_add_cancel hle⟩
  · rw [List.map_append, List.sum_append, hsum, hnext]
    split_ifs with hzero
    · simp [hzero]
    · rw [List.map_singleton, List.sum_singleton, hfits]
      ring

theorem sint_bv_bitPair_mul (d : Digit) {w n : Nat} {x : Int} (hlo : -(2 ^ w : Int) ≤ 2 * x) (hhi : 2 * x < 2 ^ w)
    (hn : w + 2 ≤ n) : (bv n (d.val * x)).sint = d.val * x := by
  have hpow : (2 : Int) ^ (w + 2) ≤ 2 ^ n := pow_le_pow_right₀ one_le_two hn
  rw [pow_add] at hpow
  cases d <;> (simp only [Digit.val]; exact sint_bv_of_fits (by omega) (by omega))

theorem sint_bv_booth_mul (hi lo : Bool) {w n : Nat} {x : Int} (hlo : -(2 ^ w : Int) ≤ 2 * x)
    (hhi : 2 * x < 2 ^ w) (hn : w + 1 ≤ n) :
    (bv n ((boothDigit hi lo).val * x)).sint = (boothDigit hi lo).val * x := by
  have hpow : (2 : Int) ^ (w + 1) ≤ 2 ^ n := pow_le_pow_right₀ one_le_two hn
  rw [pow_succ] at hpow
  cases hi <;> cases lo <;> (simp only [Digit.val, boothDigit]; exact sint_bv_of_fits (by omega) (by omega))

namespace MulRunning

variable {s : State} (h : MulRunning s)
include h

theorem fitsAbove_mulb2 (ho : s.opc = 0x8#4) (hi lo : Bool) : s.FitsAbove (boothDigit hi lo) := by
  have hcnt : s.cnt < s.recodeSteps := h.cnt_lt
  rw [State.recodeSteps, if_pos ho] at hcnt
  rw [State.FitsAbove, State.accWidth, State.recoded, if_pos ho, if_pos ho]
  exact sint_bv_booth_mul hi lo (h.md_len ▸ s.md.le_two_mul_sint) (h.md_len ▸ s.md.two_mul_sint_lt) (by omega)

theorem fitsAbove_mulb4 (ho : s.opc ≠ 0x8#4) (d : Digit) : s.FitsAbove d := by
  have hcnt : s.cnt < s.recodeSteps := h.cnt_lt
  rw [State.recodeSteps, if_neg ho, pairCount] at hcnt
  rw [State.FitsAbove, State.accWidth, State.recoded, if_neg ho, if_neg ho]
  exact sint_bv_bitPair_mul d (h.md_len ▸ s.md.le_two_mul_sint) (h.md_len ▸ s.md.two_mul_sint_lt) (by omega)

/-- The `work` step of a running multiplication of either radix. -/
theorem work_eq (hp : s.phase = .mstep) :
    ∃ d exam, s.NextDigit d ∧ s.FitsAbove d ∧ work s = .next (recodeAdvance d exam s.even s) := by
  rcases h.opcode with ho | ho
  · have heven : s.even = false := by simpa [ho] using h.even_eq
    refine ⟨_, examBits false (s.mq.bit (s.cnt + 1)) (s.mq.bit s.cnt), nextDigit_mulb2 ho h.q_minus_one,
      h.fitsAbove_mulb2 ho _ _, ?_⟩
    rw [heven, ← mstepMulb2_eq_recodeAdvance ho]
    simp [work, hp, ho]
  · have hne : s.opc ≠ 0x8#4 := by simp [ho]
    refine ⟨_, examBits (s.mq.bit (2 * s.cnt + 2)) (s.mq.bit (2 * s.cnt + 1)) (s.mq.bit (2 * s.cnt)),
      nextDigit_mulb4 hne h.q_minus_one, h.fitsAbove_mulb4 hne _, ?_⟩
    rw [← mstepMulb4_eq_recodeAdvance ho]
    simp [work, hp, ho]

end MulRunning

theorem recodeAdvance_accWidth (d : Digit) (exam : BitVec 3) (flag : Bool) (s : State) :
    (recodeAdvance d exam flag s).accWidth = s.accWidth := by
  simp only [recodeAdvance, recodeStep_eq]
  split_ifs <;> rfl

/-- A running multiplication is answered after the recoding steps that are left, with the product recorded. -/
theorem MulRunning.exists_answer {s : State} (h : MulRunning s) (hp : s.phase = .mstep) (hhost : s.host = [])
    (hrec : RecordsProduct s.trace s.accWidth s.md.sint (s.mq.slice 1 s.recoded).sint) :
    ∃ t, FirstResponse (s.recodeSteps - s.cnt) s t ∧ t.rsp.vec.len = s.accWidth ∧
      RecordsProduct t.trace s.accWidth s.md.sint (s.mq.slice 1 s.wreg).sint := by
  obtain ⟨d, exam, hd, hfits, hwork⟩ := h.work_eq hp
  have hstep : step s = .next (recodeAdvance d exam s.even s) := (step_nil hhost).trans hwork
  have hnot : s.phase ≠ .resp := by simp [hp]
  have hcnt : s.cnt < s.recodeSteps := h.cnt_lt
  have hrec' := hrec.recodeAdvance exam s.even hd hfits (recoded_le_accWidth hcnt)
  by_cases hlast : s.cnt + 1 < s.recodeSteps
  · have hrun := h.running_recodeAdvance hd exam s.even hlast
    rw [recodeAdvance_of_lt hlast, recodeStep_eq] at hstep hrec' hrun
    obtain ⟨t, hfirst, ht⟩ := MulRunning.exists_answer hrun hp hhost hrec'
    refine ⟨t, ?_, ht⟩
    rw [show s.recodeSteps - s.cnt = s.recodeSteps - (s.cnt + 1) + 1 by omega]
    exact hfirst.succ hstep hnot
  · have hsteps : s.cnt + 1 = s.recodeSteps := by omega
    have hanswered := h.answered_recodeAdvance hd exam hlast
    have hresp : (Machine.recodeAdvance d exam s.even s).phase = .resp := by rw [recodeAdvance_of_not_lt hlast]; rfl
    refine ⟨_, ?_, hanswered.vec_len.trans (recodeAdvance_accWidth d exam s.even s), ?_⟩
    · rw [← hsteps, Nat.add_sub_cancel_left]
      exact (FirstResponse.zero hresp).succ hstep hnot
    · rwa [recodedNext_of_last hsteps, h.sint_multiplierBits] at hrec'
termination_by s.recodeSteps - s.cnt
decreasing_by exact Nat.sub_succ_lt_self _ _ hcnt

/-- `s` is where `accept` leaves a multiplication of the vectors `a` and `b`. -/
structure MulStart (a b : Vec) (s : State) : Prop where
  running : MulRunning s
  phase : s.phase = .mstep
  host : s.host = []
  cnt : s.cnt = 0
  trace : s.trace = []
  multiplicand : s.md.sint = a.sint
  multiplier : (s.mq.slice 1 s.wreg).sint = b.sint

theorem mulStart_loadMulb2 {a b : VecDesc} {n : LenDesc} {s : State} (hv : ValidMul s.params a b n)
    (hhost : s.host = []) : MulStart a.vec b.vec (loadMulb2 a b n (beginCommand 0x8#4 s)) where
  running := mulRunning_loadMulb2 hv
  phase := rfl
  host := hhost
  cnt := rfl
  trace := rfl
  multiplicand := Vec.sint_sext hv.a_fits
  multiplier := by
    have hself : (b.vec.sext n.val).sext n.val = b.vec.sext n.val := bv_sint (b.vec.sext n.val)
    have hslice := Vec.slice_append_sext (b.vec.sext n.val) le_rfl false
    rw [Vec.sext_len, hself] at hslice
    exact (congrArg Vec.sint hslice).trans (Vec.sint_sext hv.b_fits)

theorem mulStart_loadMulb4 {a b : VecDesc} {n : LenDesc} {s : State} (hv : ValidMul s.params a b n)
    (hhost : s.host = []) : MulStart a.vec b.vec (loadMulb4 a b n (beginCommand 0x9#4 s)) where
  running := mulRunning_loadMulb4 hv
  phase := rfl
  host := hhost
  cnt := rfl
  trace := rfl
  multiplicand := Vec.sint_sext hv.a_fits
  multiplier :=
    (congrArg Vec.sint (Vec.slice_append_sext (b.vec.sext n.val) (le_pairedLength n.val) false)).trans
      (Vec.sint_sext hv.b_fits)

theorem MulStart.exists_answer {a b : Vec} {s : State} (h : MulStart a b s) :
    ∃ t, FirstResponse s.recodeSteps s t ∧ RecordsProduct t.trace t.rsp.vec.len a.sint b.sint := by
  have hrecoded : s.recoded = 0 := by simp [State.recoded, h.cnt]
  have hnone : RecordsProduct s.trace s.accWidth s.md.sint (s.mq.slice 1 s.recoded).sint := by
    rw [h.trace, hrecoded, Vec.sint_slice_zero]
    exact recordsProduct_nil _ _
  obtain ⟨t, hfirst, hlen, hrec⟩ := h.running.exists_answer h.phase h.host hnone
  rw [h.cnt, Nat.sub_zero] at hfirst
  rw [← hlen, h.multiplicand, h.multiplier] at hrec
  exact ⟨t, hfirst, hrec⟩

/-- The command of a valid multiplication starts it. -/
theorem exists_mulStart {s : State} {c : Command} {a b : VecDesc} {n : LenDesc} {k : Nat} (hp : s.phase = .idle)
    (hhost : s.host = [.command c]) (hv : ValidMul s.params a b n)
    (hi : decode c = .ok (.mulb2 a b n) ∧ k = n.val ∨ decode c = .ok (.mulb4 a b n) ∧ k = (n.val + 1) / 2) :
    ∃ s₁, step s = .next s₁ ∧ MulStart a.vec b.vec s₁ ∧ s₁.recodeSteps = k := by
  have hnone : checkMul s.params a b n = none := (checkMul_eq_none_iff _ _ _ _).2 hv
  obtain ⟨hdecode, rfl⟩ | ⟨hdecode, rfl⟩ := hi
  · exact ⟨_, step_accepts hp hhost hdecode hnone, mulStart_loadMulb2 (s := { s with host := [] }) hv rfl, rfl⟩
  · exact ⟨_, step_accepts hp hhost hdecode hnone, mulStart_loadMulb4 (s := { s with host := [] }) hv rfl, rfl⟩

/-- Settles O38: the run records the product from the first row to the last, and a product that is not 0 needs one
PartialProduct at least. -/
theorem recordedPartialProductsSumToTheProduct : Obligations.RecordedPartialProductsSumToTheProduct := by
  intro s c a b n k hp hhost hv hi
  obtain ⟨s₁, hstep, hstart, rfl⟩ := exists_mulStart hp hhost hv hi
  obtain ⟨t, hfirst, hrec⟩ := hstart.exists_answer
  have hrun := hfirst.succ hstep (by simp [hp])
  rw [Nat.add_comm] at hrun
  have ha : a.vec.sint ≠ 0 := Vec.sint_ne_zero_of_uint_ne_zero hv.a_nonzero
  have hb : b.vec.sint ≠ 0 := Vec.sint_ne_zero_of_uint_ne_zero hv.b_nonzero
  exact ⟨t, hrun.run, hrun.phase, hrec.partialProducts_ne_nil ha hb, hrec.uncut, hrec.sum⟩

end Sys2Proof.Machine
end

/-! ### The primitives PADT, NEG, ADDS, SHL0 and DEC (R120 to R143)

In an idle block a primitive with well-formed operands is answered in its `accept` step, so what is left of each
statement is the value of one function of vectors. -/

section
namespace Sys2Proof

theorem VecDesc.one_le_len_of_wfVector {p : Params} {d : VecDesc} (h : d.wfVector p = true) : 1 ≤ d.len := by
  simp only [VecDesc.wfVector, Bool.and_eq_true, decide_eq_true_eq] at h
  exact h.1.2

theorem LenDesc.one_le_val_of_wfTarget {p : Params} {n : LenDesc} (h : n.wfTarget p = true) : 1 ≤ n.val := by
  simp only [LenDesc.wfTarget, Bool.and_eq_true, decide_eq_true_eq] at h
  exact h.1.2

theorem VecDesc.bit_vec_of_lt {d : VecDesc} {j : Nat} (h : j < d.len) : d.vec.bit j = d.bits.bit j := by
  rw [VecDesc.bit_vec, decide_eq_true h, Bool.true_and]

theorem Vec.sext_self {n : Nat} {v : Vec} (h : v.len = n) : v.sext n = v := by
  subst h; exact bv_sint v

theorem Vec.zext_self {n : Nat} {v : Vec} (h : v.len = n) : v.zext n = v := by
  subst h; exact bv_uint v

theorem Vec.uint_trunc (n : Nat) (v : Vec) : (v.trunc n).uint = v.uint % 2 ^ n := by
  rw [Vec.trunc, Vec.uint_slice, pow_zero, Nat.div_one]

theorem Vec.bit_trunc {n j : Nat} (v : Vec) (hj : j < n) : (v.trunc n).bit j = v.bit j := by
  rw [Vec.trunc, Vec.bit_slice, decide_eq_true hj, Bool.true_and, Nat.zero_add]

/-- The sign bit is set exactly where the unsigned value is in the upper half. -/
theorem Vec.msb_eq_decide (v : Vec) : v.msb = decide (2 ^ (v.len - 1) ≤ v.uint) :=
  BitVec.msb_eq_decide v.bits

/-- A vector and its negative sum to 0 modulo `2^n`. -/
theorem uint_bv_neg_add_uint_bv (n : Nat) (x : Int) : ((bv n (-x)).uint + (bv n x).uint) % 2 ^ n = 0 := by
  zify
  rw [uint_bv, uint_bv, Int.emod_add_emod, Int.add_emod_emod, neg_add_cancel, Int.zero_emod]

/-- The integers a signed vector of `n` bits represents (R14). -/
theorem sint_bv_of_signed_range {n : Nat} {x : Int} (hn : 1 ≤ n) (hlo : -2 ^ (n - 1) ≤ x) (hhi : x ≤ 2 ^ (n - 1) - 1) :
    (bv n x).sint = x := by
  obtain ⟨k, rfl⟩ := Nat.exists_eq_add_of_le' hn
  rw [Nat.add_sub_cancel] at hlo hhi
  exact sint_bv_of_fits (by rw [pow_succ]; omega) (by rw [pow_succ]; omega)

/-- A vector's signed value is in the signed range of every length not below its own. -/
theorem Vec.sint_mem_signed_range {n : Nat} {v : Vec} (hn : 1 ≤ n) (h : v.len ≤ n) :
    -2 ^ (n - 1) ≤ v.sint ∧ v.sint ≤ 2 ^ (n - 1) - 1 := by
  obtain ⟨k, rfl⟩ := Nat.exists_eq_add_of_le' hn
  have hpow : (2 ^ v.len : Int) ≤ 2 ^ k * 2 := by
    rw [← pow_succ]; exact pow_le_pow_right₀ (by norm_num) h
  have hlo := v.le_two_mul_sint
  have hhi := v.two_mul_sint_lt
  rw [Nat.add_sub_cancel]
  constructor <;> omega

/-- The upper end of the signed range is out of it, and wraps around to the lower end. -/
theorem sint_bv_two_pow {n : Nat} (hn : 1 ≤ n) : (bv n (2 ^ (n - 1))).sint = -2 ^ (n - 1) := by
  have hwrap : bv n (2 ^ (n - 1)) = bv n (-2 ^ (n - 1)) := by
    obtain ⟨k, rfl⟩ := Nat.exists_eq_add_of_le' hn
    have hperiod : (2 ^ k : Int) = -2 ^ k + 2 ^ (k + 1) := by ring
    rw [bv_eq_iff, Nat.add_sub_cancel]
    conv_lhs => rw [hperiod, Int.add_emod_right]
  have hpos : (0 : Int) < 2 ^ (n - 1) := by positivity
  rw [hwrap, sint_bv_of_signed_range hn le_rfl (by omega)]

/-- Only the residue of a signed value counts in `bv`. -/
theorem bv_neg_sint_bv (n : Nat) (x : Int) : bv n (-(bv n x).sint) = bv n (-x) := by
  rw [bv_eq_iff, sint_bv]
  exact_mod_cast Int.ModEq.neg (Int.bmod_emod (x := x) (m := 2 ^ n))

end Sys2Proof

namespace Sys2Proof.Machine

/-! What an idle block does with a primitive. -/

theorem exec_answers {i : Instr} {r : Response} {s : State} (hidle : s.phase = .idle)
    (hok : errorOf s.params i = none) (hload : loadOf i = respond r) :
    exec i s = .next (State.answered i.opcode r s) := by
  rw [exec_idle_ok hidle hok, hload]; rfl

theorem exec_raises {i : Instr} {e : ErrInfo} {s : State} (hidle : s.phase = .idle)
    (herr : errorOf s.params i = some e) : exec i s = .next (State.errored i.opcode e s) :=
  (errorOf_and_exec_of_idle hidle herr).2 e rfl

/-- The five primitives are the instructions whose load is a response and nothing else (R120). -/
theorem exists_loadOf_eq_respond {i : Instr} (h : i.opcode.toNat ≤ 5) : ∃ r, loadOf i = respond r := by
  cases i with
  | padt | neg | adds | shl0 | dec => exact ⟨_, rfl⟩
  | mulb2 | mulb4 | divr | divnr => simp [Instr.opcode] at h

/-- Settles O26: a primitive only answers, also where its answer is an error. -/
theorem primitivesWriteNoDatapathRegister : Obligations.PrimitivesWriteNoDatapathRegister := by
  intro i s t hop hidle h
  obtain ⟨r, rfl⟩ : ∃ r, t = State.answered i.opcode r s := by
    obtain ⟨hbusy, -⟩ | ⟨-, e, -, rfl⟩ | ⟨-, -, rfl⟩ := exec_cases h
    · exact absurd hidle hbusy
    · exact ⟨_, rfl⟩
    · obtain ⟨r, hload⟩ := exists_loadOf_eq_respond hop
      exact ⟨r, by rw [hload]; rfl⟩
  exact ⟨rfl, rfl, rfl, rfl, rfl, rfl, rfl, rfl, rfl⟩

/-! The validation of `PADT` and `NEG`: well-formed operands can only overflow (R121, R125). -/

section
variable {s : State} {v : VecDesc} {n : LenDesc} (hidle : s.phase = .idle)
  (hv : v.wfVector s.params = true) (hn : n.wfTarget s.params = true)
include hidle hv hn

theorem exec_padt_overflows (x : Bool) (hlen : n.val < v.len) :
    exec (.padt false x v n) s = .next (State.errored 0x1#4 ⟨.widthOverflow, .first⟩ s) :=
  exec_raises hidle (by
    simp [errorOf, checkPadt, badVector_eq_not_wfVector, badTarget_eq_not_wfTarget, hv, hn, hlen])

theorem exec_padt_answers {t : Bool} (x : Bool) (hfits : v.len ≤ n.val ∨ t = true) :
    exec (.padt t x v n) s = .next (State.answered 0x1#4 { vec := padOrTruncate x n.val v.vec } s) := by
  have hpass : ¬ (n.val < v.len ∧ t = false) := by
    rintro ⟨hlen, rfl⟩; exact hfits.elim hlen.not_ge nofun
  exact exec_answers hidle (by
    simpa [errorOf, checkPadt, badVector_eq_not_wfVector, badTarget_eq_not_wfTarget, hv, hn] using hpass) rfl

theorem exec_neg_overflows (hlen : n.val < v.len) :
    exec (.neg v n) s = .next (State.errored 0x2#4 ⟨.widthOverflow, .first⟩ s) :=
  exec_raises hidle (by
    simp [errorOf, checkNeg, badVector_eq_not_wfVector, badTarget_eq_not_wfTarget, hv, hn, hlen])

theorem exec_neg_answers (hlen : v.len ≤ n.val) :
    exec (.neg v n) s = .next (State.answered 0x2#4 { vec := twosComplement n.val v.vec } s) :=
  exec_answers hidle (by
    simp [errorOf, checkNeg, badVector_eq_not_wfVector, badTarget_eq_not_wfTarget, hv, hn, hlen.not_gt]) rfl

end

/-! `PADT` (R121, R122). -/

theorem padOrTruncate_of_lt {n : Nat} {v : Vec} (h : n < v.len) (x : Bool) : padOrTruncate x n v = v.trunc n :=
  if_pos h

/-- A vector that is not cut is extended; at its own length it is its own extension. -/
theorem padOrTruncate_of_le {n : Nat} {v : Vec} (h : v.len ≤ n) (x : Bool) :
    padOrTruncate x n v = if x then v.sext n else v.zext n := by
  unfold padOrTruncate
  rw [if_neg h.not_gt]
  split_ifs with heq hx hx
  · rw [Vec.sext_self heq]
  · rw [Vec.zext_self heq]
  · rfl
  · rfl

theorem padOrTruncate_len (x : Bool) (n : Nat) (v : Vec) : (padOrTruncate x n v).len = n := by
  rcases lt_or_ge n v.len with h | h
  · rw [padOrTruncate_of_lt h, Vec.trunc_len]
  · rw [padOrTruncate_of_le h]; split_ifs <;> rfl

theorem bit_padOrTruncate (x : Bool) {n : Nat} (v : Vec) {j : Nat} (hj : j < n) :
    (padOrTruncate x n v).bit j = if j < v.len then v.bit j else x && v.bit (v.len - 1) := by
  rcases lt_or_ge n v.len with h | h
  · rw [padOrTruncate_of_lt h, Vec.bit_trunc v hj, if_pos (hj.trans h)]
  · rw [padOrTruncate_of_le h]
    cases x with
    | true => rw [if_pos rfl, Vec.bit_sext h hj, Bool.true_and]
    | false =>
      rw [if_neg Bool.false_ne_true, Vec.bit_zext h, Bool.false_and]
      split_ifs with hlow
      · rfl
      · exact v.bit_of_len_le (not_lt.mp hlow)

/-- Settles O18: the bits of AA's padOrTruncate, with the operand's bits as the slot presents them. -/
theorem padtPadsExtendsOrTruncates : Obligations.PadtPadsExtendsOrTruncates := by
  intro s t x v n hidle hv hn
  refine ⟨fun hlen ht => ?_, fun hfits => ?_⟩
  · subst ht; exact exec_padt_overflows hidle hv hn x hlen
  · refine ⟨_, exec_padt_answers hidle hv hn x hfits, padOrTruncate_len x n.val v.vec, fun j hj => ?_⟩
    have hpos := VecDesc.one_le_len_of_wfVector hv
    rw [bit_padOrTruncate x v.vec hj, VecDesc.vec_len, VecDesc.bit_vec_of_lt (by omega : v.len - 1 < v.len)]
    split_ifs with hlow
    · exact VecDesc.bit_vec_of_lt hlow
    · rfl

/-- Settles O19: an extension keeps the value it extends, and a truncation its residue. -/
theorem padtKeepsTheValue : Obligations.PadtKeepsTheValue := by
  intro s t x v n hidle hv hn
  by_cases hfits : v.len ≤ n.val ∨ t = true
  · refine ⟨_, exec_padt_answers hidle hv hn x hfits, fun hlen hx => ?_, fun hlen hx => ?_, fun hlen _ => ?_,
      fun hlen ht => ?_⟩
    · subst hx
      exact (congrArg Vec.sint (padOrTruncate_of_le (v := v.vec) hlen true)).trans (Vec.sint_sext hlen)
    · subst hx
      exact (congrArg Vec.uint (padOrTruncate_of_le (v := v.vec) hlen false)).trans (Vec.uint_zext hlen)
    · exact (congrArg Vec.uint (padOrTruncate_of_lt (v := v.vec) hlen x)).trans (Vec.uint_trunc n.val v.vec)
    · exact absurd hfits (by simp [hlen, ht])
  · obtain ⟨hlen, ht⟩ := not_or.mp hfits
    obtain rfl : t = false := Bool.eq_false_of_not_eq_true ht
    exact ⟨_, exec_padt_overflows hidle hv hn x (not_le.mp hlen), fun h => absurd h hlen, fun h => absurd h hlen,
      nofun, fun _ _ => ⟨rfl, rfl⟩⟩

/-! `NEG` (R125, R126). -/

/-- The only value whose negative leaves the signed range is the least one, which is its own (R125). -/
theorem sint_twosComplement {n : Nat} {v : Vec} (hn : 1 ≤ n) (h : v.len ≤ n) :
    (twosComplement n v).sint = if v.sint = -2 ^ (n - 1) then -2 ^ (n - 1) else -v.sint := by
  obtain ⟨hlo, hhi⟩ := Vec.sint_mem_signed_range hn h
  rw [twosComplement_eq]
  split_ifs with hmin
  · rw [hmin, neg_neg, sint_bv_two_pow hn]
  · exact sint_bv_of_signed_range hn (by omega) (by omega)

theorem twosComplement_twosComplement (n : Nat) (v : Vec) : twosComplement n (twosComplement n v) = v.sext n := by
  rw [twosComplement_eq, twosComplement_eq, bv_neg_sint_bv, neg_neg, Vec.sext]

/-- Settles O20: the answer is AA's twosComplement, and its signed value has one exception. -/
theorem negAnswersTheTwosComplement : Obligations.NegAnswersTheTwosComplement := by
  intro s v n hidle hv hn
  refine ⟨exec_neg_overflows hidle hv hn, fun hlen => ?_⟩
  have hsint := sint_twosComplement (LenDesc.one_le_val_of_wfTarget hn) (v := v.vec) hlen
  refine ⟨_, exec_neg_answers hidle hv hn hlen, twosComplement_eq _ _, ?_, fun hmin => ?_, fun hmin => ?_⟩
  · rw [twosComplement_eq, Vec.sext, uint_bv_neg_add_uint_bv]
  · rw [hsint, if_neg hmin]
  · rw [hsint, if_pos hmin]

/-- Settles O21: the second negation, as a function and as a command on the first one's answer. -/
theorem negTwiceIsSignExtension : Obligations.NegTwiceIsSignExtension := by
  intro s v n hidle hv hn hlen
  refine ⟨_, exec_neg_answers hidle hv hn hlen, twosComplement_twosComplement _ _, fun heq => ?_, fun hport => ?_⟩
  · exact (twosComplement_twosComplement _ _).trans (Vec.sext_self heq)
  · have hwf : VecDesc.wfVector s.params { len := n.val, bits := twosComplement n.val v.vec } = true := by
      simp [VecDesc.wfVector, hport, LenDesc.one_le_val_of_wfTarget hn]
    exact ⟨_, exec_neg_answers hidle hwf hn le_rfl,
      congrArg (twosComplement n.val) (VecDesc.vec_ofVec (twosComplement n.val v.vec) false 0)⟩

/-! `ADDS` (R130 to R132). -/

theorem growFlag_iff (a b : Vec) : growFlag a b = true ↔ 2 ^ max a.len b.len ≤ a.uint + b.uint :=
  decide_eq_true_iff

/-- A carry is the top bit of the sum. -/
theorem msb_addBitStrings_of_grow {a b : Vec} (h : growFlag a b = true) : (addBitStrings a b).msb = true := by
  rw [Vec.msb_eq_decide, addBitStrings_len, addBitStrings_uint, h]
  exact h

/-- Without the carry the sum is modular (R132). -/
theorem trunc_addBitStrings (a b : Vec) (n : Nat) : (addBitStrings a b).trunc n = bv n ((a.uint : Int) + b.uint) := by
  refine Vec.ext_uint rfl ?_
  rw [Vec.uint_trunc, addBitStrings_uint]
  zify
  rw [uint_bv]

/-- Settles O22: AA's addBitStrings loses no carry, and `grow` is that carry. -/
theorem addsAnswersTheExactSum : Obligations.AddsAnswersTheExactSum := by
  intro s a b hidle ha hb
  have hok : errorOf s.params (.adds a b) = none := by
    simp [errorOf, checkAdds, badVector_eq_not_wfVector, ha, hb]
  have hlen := addBitStrings_len a.vec b.vec
  refine ⟨_, _, exec_answers hidle hok rfl, addBitStrings_uint _ _, growFlag_iff _ _, fun hgrow => ?_,
    fun hgrow => ⟨?_, msb_addBitStrings_of_grow hgrow⟩, trunc_addBitStrings _ _ _⟩
  · rw [hlen, hgrow]; rfl
  · rw [hlen, hgrow]; rfl

/-! `SHL0` (R135). -/

theorem bit_shiftLeftInsertZero_zero (v : Vec) : (shiftLeftInsertZero v).bit 0 = false := by
  simp [shiftLeftInsertZero, Vec.bit_append]

theorem bit_shiftLeftInsertZero_succ (v : Vec) (j : Nat) : (shiftLeftInsertZero v).bit (j + 1) = v.bit j := by
  simp [shiftLeftInsertZero, Vec.bit_append]

theorem uint_shiftLeftInsertZero (v : Vec) : (shiftLeftInsertZero v).uint = 2 * v.uint := by
  simp [shiftLeftInsertZero, Vec.uint_append, Nat.mul_comm]

/-- The sign bit moves up one place with its weight. -/
theorem sint_shiftLeftInsertZero {v : Vec} (h : 1 ≤ v.len) : (shiftLeftInsertZero v).sint = 2 * v.sint := by
  have hlen : (shiftLeftInsertZero v).len = v.len + 1 := rfl
  have hmsb : (shiftLeftInsertZero v).msb = v.msb := by
    rw [Vec.msb_eq_bit, Vec.msb_eq_bit, hlen, show v.len + 1 - 1 = v.len - 1 + 1 by omega,
      bit_shiftLeftInsertZero_succ]
  rw [Vec.sint_eq, Vec.sint_eq v, uint_shiftLeftInsertZero, hmsb, hlen, pow_succ]
  push_cast
  split_ifs <;> ring

/-- Settles O23: the bits and the two values of AA's shiftLeftInsertZero. -/
theorem shlInsertsAZeroBit : Obligations.ShlInsertsAZeroBit := by
  intro s v hidle hv
  have hok : errorOf s.params (.shl0 v) = none := by simp [errorOf, checkShl0, badVector_eq_not_wfVector, hv]
  refine ⟨_, exec_answers hidle hok rfl, rfl, bit_shiftLeftInsertZero_zero _, fun j hj => ?_,
    uint_shiftLeftInsertZero _, sint_shiftLeftInsertZero (VecDesc.one_le_len_of_wfVector hv)⟩
  rw [bit_shiftLeftInsertZero_succ, VecDesc.bit_vec_of_lt hj]

/-! `DEC` (R140, R141, R143). -/

theorem exec_dec_answers {s : State} {v : VecDesc} (hidle : s.phase = .idle) (hv : v.wfSigned s.params = true) :
    exec (.dec v) s = .next
      (State.answered 0x5#4 { vec := v.vec, frac := v.frac, val := decodeDecimal v.vec v.frac } s) :=
  exec_answers hidle (by simp only [errorOf, checkDec, badSigned_eq_not_wfSigned, hv]; rfl) rfl

/-- Settles O24: the decimal interpreter's triple is exact, also for the most negative vector. -/
theorem decAnswersTheExactValue : Obligations.DecAnswersTheExactValue := by
  intro s v hidle hv
  have hvec : v.wfVector s.params = true := (Bool.and_eq_true_iff.mp hv).1
  refine ⟨_, exec_dec_answers hidle hv, ?_, decodeDecimal_mag _ _, decodeDecimal_frac _ _, decodeDecimal_value _ _⟩
  have hpos := VecDesc.one_le_len_of_wfVector hvec
  rw [decodeDecimal_neg, Vec.msb_eq_bit, VecDesc.vec_len, VecDesc.bit_vec_of_lt (by omega)]

/-- Settles O25: an integer of the signed range survives its encoding, and `DEC` answers the encoding's value. -/
theorem decRoundTrip : Obligations.DecRoundTrip := by
  intro len frac x hlen hfrac hlo hhi
  have hvalue : (bv len x).value frac = (x : Rat) / 2 ^ frac := by
    rw [Vec.value, sint_bv_of_signed_range hlen hlo hhi]
  refine ⟨hvalue, fun s hidle hport => ?_⟩
  have hwf : VecDesc.wfSigned s.params { len := len, frac := frac, bits := bv len x } = true := by
    simp [VecDesc.wfSigned, VecDesc.wfVector, hlen, hfrac, hport]
  refine ⟨_, exec_dec_answers hidle hwf, (decodeDecimal_value _ _).trans ?_⟩
  rw [show VecDesc.vec { len := len, frac := frac, bits := bv len x } = bv len x from
    VecDesc.vec_ofVec (bv len x) false frac, hvalue]

end Sys2Proof.Machine
end

/-! ### The checks, the accept steps and the step of the multipliers (R162 to R167, R191, R192) -/

section
namespace Sys2Proof.Machine

/-! What the checks of a multiplication operand say (R103, R273, R274). -/

theorem overlong_iff (p : Params) (d : VecDesc) :
    overlong p d = true ↔ d.bad = false ∧ Params.within p.wmax d.len = false := by
  simp [overlong]

theorem badLiteral_iff (d : VecDesc) : badLiteral d = true ↔ d.bad = true ∨ d.len = 0 ∨ d.len ≤ d.frac := by
  simp [badLiteral, or_assoc]

theorem badWordLength_iff (p : Params) (n : LenDesc) :
    badWordLength p n = true ↔ n.bad = true ∨ n.val = 0 ∨ Params.within p.wmax n.val = false := by
  simp [badWordLength, or_assoc]

/-- Settles O15: the conditions are the checks of both multipliers' validation, in its order. -/
theorem multiplierChecksInOrder : Obligations.MultiplierChecksInOrder := by
  intro s a b n e hidle hfirst
  have hcheck : checkMul s.params a b n = some e := by
    simpa only [checkMul, firstError_cons, firstError_nil, decide_eq_true_eq, overlong_iff, badLiteral_iff,
      zeroVector_iff, badWordLength_iff] using hfirst
  exact ⟨exec_raises hidle hcheck, exec_raises hidle hcheck⟩

theorem exec_mulb2_accepts {s : State} {a b : VecDesc} {n : LenDesc} (hidle : s.phase = .idle)
    (hv : ValidMul s.params a b n) : exec (.mulb2 a b n) s = .next (loadMulb2 a b n (beginCommand 0x8#4 s)) :=
  exec_idle_ok hidle ((checkMul_eq_none_iff _ _ _ _).2 hv)

theorem exec_mulb4_accepts {s : State} {a b : VecDesc} {n : LenDesc} (hidle : s.phase = .idle)
    (hv : ValidMul s.params a b n) : exec (.mulb4 a b n) s = .next (loadMulb4 a b n (beginCommand 0x9#4 s)) :=
  exec_idle_ok hidle ((checkMul_eq_none_iff _ _ _ _).2 hv)

/-- Settles O27: the load of a valid `MULB2`, over the clearing of trace and response. -/
theorem mulbTwoAcceptLoadsItsRegisters : Obligations.MulbTwoAcceptLoadsItsRegisters :=
  fun _ _ _ _ hidle hv => exec_mulb2_accepts hidle hv

/-- Settles O31: the recoding step as one record update, then the advance or the response. -/
theorem mulbTwoStepAddsThePartialProduct : Obligations.MulbTwoStepAddsThePartialProduct := by
  intro s hphase hopc
  have hwork : work s = .next (mstepMulb2 s) := by simp [work, hphase, hopc]
  rw [hwork, mstepMulb2, recodeStep_eq]
  rfl

/-! Both loads keep the bits of the sign-extended multiplier above `Q₋₁` (R163, R192). -/

theorem slice_mq_loadMulb2 (a b : VecDesc) (n : LenDesc) (s : State) :
    (loadMulb2 a b n s).mq.slice 1 n.val = b.vec.sext n.val := by
  have hslice := Vec.slice_append_sext (b.vec.sext n.val) le_rfl false
  rwa [Vec.sext_self rfl] at hslice

theorem slice_mq_loadMulb4 (a b : VecDesc) (n : LenDesc) (s : State) :
    (loadMulb4 a b n s).mq.slice 1 n.val = b.vec.sext n.val :=
  Vec.slice_append_sext (b.vec.sext n.val) (le_pairedLength n.val) false

/-- Settles O29: sign extension keeps the value, and the parity bit of the running `MULB4` copies the sign. -/
theorem operandExtensionKeepsTheValue : Obligations.OperandExtensionKeepsTheValue := by
  intro s a b n hidle hv
  have h₂ := mulRunning_loadMulb2 hv
  have h₄ := mulRunning_loadMulb4 hv
  have hmultiplicand : (a.vec.sext n.val).sint = a.vec.sint := Vec.sint_sext hv.a_fits
  have hmultiplier : (b.vec.sext n.val).sint = b.vec.sint := Vec.sint_sext hv.b_fits
  have hslice₂ := slice_mq_loadMulb2 a b n (beginCommand 0x8#4 s)
  have hslice₄ := slice_mq_loadMulb4 a b n (beginCommand 0x9#4 s)
  refine ⟨_, _, exec_mulb2_accepts hidle hv, exec_mulb4_accepts hidle hv, hmultiplicand, h₂.q_minus_one,
    hslice₂ ▸ hmultiplier, hmultiplicand, h₄.q_minus_one, hslice₄ ▸ hmultiplier, ?_, fun j hj => ?_, fun hodd => ?_⟩
  · exact h₄.sint_multiplierBits.trans (hslice₄ ▸ hmultiplier)
  · have hbit := congrArg (Vec.bit · j) (hslice₄.trans hslice₂.symm)
    simpa only [Vec.bit_slice, hj, decide_true, Bool.true_and, Nat.add_comm 1 j] using hbit
  · exact h₄.parity rfl (by simp [evenBit, loadMulb4, hodd])

end Sys2Proof.Machine
end

/-! ### The radix-2 digits of a multiplier (R165, R169) -/

section
namespace Sys2Proof.Machine

/-- The value of the radix-2 digit at position `i` of an extended multiplier. -/
def boothDigitAt (mq : Vec) (i : Nat) : Int := (boothDigit (mq.bit (i + 1)) (mq.bit i)).val

theorem boothDigitAt_eq (mq : Vec) (i : Nat) : boothDigitAt mq i = bitVal (mq.bit i) - bitVal (mq.bit (i + 1)) :=
  boothDigit_val _ _

theorem boothDigitAt_ne_zero_iff (mq : Vec) (i : Nat) : boothDigitAt mq i ≠ 0 ↔ mq.bit i ≠ mq.bit (i + 1) := by
  rw [boothDigitAt_eq]
  cases mq.bit i <;> cases mq.bit (i + 1) <;> simp [bitVal]

/-- A non-zero digit has the sign of its lower bit. -/
theorem boothDigitAt_of_ne_zero {mq : Vec} {i : Nat} (h : boothDigitAt mq i ≠ 0) :
    boothDigitAt mq i = if mq.bit i then 1 else -1 := by
  rw [boothDigitAt_ne_zero_iff] at h
  rw [boothDigitAt_eq, Bool.eq_not_of_ne h.symm]
  cases mq.bit i <;> rfl

theorem sum_boothDigitAt {mq : Vec} (h0 : mq.bit 0 = false) (w : Nat) :
    ((List.range w).map (fun i => boothDigitAt mq i * 2 ^ i)).sum = (mq.slice 1 w).sint := by
  induction w with
  | zero => simp
  | succ w ih =>
    rw [List.range_succ, List.map_append, List.sum_append, ih, Vec.sint_slice_succ mq w h0, ← boothDigitAt_eq]
    simp

/-- Over digits 0 the multiplier's bits do not change. -/
theorem bit_eq_of_boothDigitAt_eq_zero {mq : Vec} {i j : Nat} (hij : i ≤ j)
    (h : ∀ k, i ≤ k → k < j → boothDigitAt mq k = 0) : mq.bit j = mq.bit i := by
  induction j, hij using Nat.le_induction with
  | base => rfl
  | succ j hij ih =>
    have hsame : mq.bit j = mq.bit (j + 1) :=
      not_not.mp fun hne => (boothDigitAt_ne_zero_iff mq j).2 hne (h j hij j.lt_succ_self)
    exact hsame.symm.trans (ih fun k hik hkj => h k hik (hkj.trans j.lt_succ_self))

section
variable {mq : Vec} {i : Nat}

/-- Two non-zero digits with only digits 0 between them have opposite signs. -/
theorem boothDigitAt_eq_neg_of_next {j : Nat} (hij : i < j) (hi : boothDigitAt mq i ≠ 0) (hj : boothDigitAt mq j ≠ 0)
    (hbetween : ∀ k, i < k → k < j → boothDigitAt mq k = 0) : boothDigitAt mq j = -boothDigitAt mq i := by
  have hchange : mq.bit i ≠ mq.bit (i + 1) := (boothDigitAt_ne_zero_iff mq i).1 hi
  have hkept : mq.bit j = mq.bit (i + 1) := bit_eq_of_boothDigitAt_eq_zero hij hbetween
  rw [boothDigitAt_of_ne_zero hj, boothDigitAt_of_ne_zero hi, hkept, Bool.eq_not_of_ne hchange]
  cases mq.bit (i + 1) <;> rfl

theorem boothDigitAt_eq_neg_one_of_lowest (h0 : mq.bit 0 = false) (hi : boothDigitAt mq i ≠ 0)
    (hbelow : ∀ k < i, boothDigitAt mq k = 0) : boothDigitAt mq i = -1 := by
  have hkept : mq.bit i = mq.bit 0 := bit_eq_of_boothDigitAt_eq_zero i.zero_le fun k _ => hbelow k
  rw [boothDigitAt_of_ne_zero hi, hkept, h0]
  rfl

/-- Digits that are all 0 sum to 0, which only the multiplier 0 is. -/
theorem exists_boothDigitAt_ne_zero {w : Nat} (h0 : mq.bit 0 = false) (hne : (mq.slice 1 w).uint ≠ 0) :
    ∃ i < w, boothDigitAt mq i ≠ 0 := by
  by_contra hnone
  push Not at hnone
  refine Vec.sint_ne_zero_of_uint_ne_zero hne ?_
  rw [← sum_boothDigitAt h0]
  refine List.sum_eq_zero fun x hx => ?_
  obtain ⟨i, hi, rfl⟩ := List.mem_map.mp hx
  rw [hnone i (List.mem_range.mp hi), zero_mul]

end

/-- Settles O33: a digit is non-zero where the bits change, so two that follow each other are changes in opposite
directions, and the first is one from `Q₋₁ = 0`. -/
theorem boothDigitsSumToTheMultiplier : Obligations.BoothDigitsSumToTheMultiplier :=
  fun mq w h0 => ⟨sum_boothDigitAt h0 w, fun _ _ hij _ => boothDigitAt_eq_neg_of_next hij,
    fun _ _ => boothDigitAt_eq_neg_one_of_lowest h0, exists_boothDigitAt_ne_zero h0,
    fun i _ => boothDigitAt_ne_zero_iff mq i⟩

end Sys2Proof.Machine
end

/-! ### The run of a multiplication (R167, R168, R172)

Short of the last digit a step leaves the multiplication running, with `CNT`, `P` and the trace advanced and every
other register as it was; the last one answers the accumulator. Nothing here speaks of the radix. -/

section
namespace Sys2Proof.Machine

namespace MulRunning

variable {s : State} (h : MulRunning s)
include h

/-- The step of a running multiplication before the last digit. -/
theorem step_continues (hp : s.phase = .mstep) (hhost : s.host = []) (hlast : s.cnt + 1 < s.recodeSteps) :
    ∃ p rows, step s = .next { s with cnt := s.cnt + 1, p := p, trace := rows } ∧
      MulRunning { s with cnt := s.cnt + 1, p := p, trace := rows } := by
  obtain ⟨d, exam, hd, -, hwork⟩ := h.work_eq hp
  have hrun := h.running_recodeAdvance hd exam s.even hlast
  rw [recodeAdvance_of_lt hlast, recodeStep_eq] at hwork hrun
  exact ⟨_, _, (step_nil hhost).trans hwork, hrun⟩

/-- The run short of the last digit. -/
theorem run_continues (hp : s.phase = .mstep) (hhost : s.host = []) (k : Nat) (hk : s.cnt + k < s.recodeSteps) :
    ∃ p rows, Host.Core.run Sys2Proof.core k s = .next { s with cnt := s.cnt + k, p := p, trace := rows } ∧
      MulRunning { s with cnt := s.cnt + k, p := p, trace := rows } := by
  induction k with
  | zero => exact ⟨s.p, s.trace, rfl, h⟩
  | succ k ih =>
    obtain ⟨p, rows, hrun, hmid⟩ := ih (by omega)
    obtain ⟨p', rows', hstep, hnext⟩ := hmid.step_continues hp hhost hk
    exact ⟨p', rows', (run_add hrun).trans (run_succ hstep), hnext⟩

/-- The response of the multiplication in progress: the accumulator holds the product of the operands (R167, R199). -/
theorem step_answers (hp : s.phase = .mstep) (hhost : s.host = []) (hlast : s.cnt + 1 = s.recodeSteps) :
    ∃ t, step s = .next t ∧ t.phase = .resp ∧ t.trace.length = s.recodeSteps ∧
      t.rsp = productResponse s.even { s with p := bv s.accWidth (s.md.sint * (s.mq.slice 1 s.wreg).sint) } := by
  obtain ⟨d, exam, hd, -, hwork⟩ := h.work_eq hp
  have hproduct := h.recodeStep_p hd exam
  rw [recodedNext_of_last hlast, h.sint_multiplierBits] at hproduct
  rw [recodeAdvance_of_not_lt hlast.not_lt, recodeStep_eq] at hwork
  refine ⟨_, (step_nil hhost).trans hwork, rfl, ?_, ?_⟩
  · simp [h.rows, hlast]
  · rw [← hproduct, recodeStep_eq]; rfl

end MulRunning

/-- `t` answers the multiplication of `a` and `b` that was loaded in `s`: one row a recoding step, and the response
whose accumulator holds the product. -/
structure AnswersProduct (a b : Vec) (s t : State) : Prop where
  phase : t.phase = .resp
  rows : t.trace.length = s.recodeSteps
  rsp : t.rsp = productResponse s.even { s with p := bv s.accWidth (a.sint * b.sint) }

/-- A multiplication that `accept` has loaded takes all its recoding steps and is answered by the last. -/
theorem MulStart.exists_answersProduct {a b : Vec} {s : State} (h : MulStart a b s) :
    (∀ k < s.recodeSteps, ∃ t, Host.Core.run Sys2Proof.core k s = .next t ∧ t.phase = .mstep ∧ t.trace.length = k) ∧
      ∃ t, Host.Core.run Sys2Proof.core s.recodeSteps s = .next t ∧ AnswersProduct a b s t := by
  have hcnt (k : Nat) : s.cnt + k = k := by rw [h.cnt, Nat.zero_add]
  refine ⟨fun k hk => ?_, ?_⟩
  · obtain ⟨p, rows, hrun, hmid⟩ := h.running.run_continues h.phase h.host k (by rwa [hcnt])
    exact ⟨_, hrun, h.phase, hmid.rows.trans (hcnt k)⟩
  · have hpos := h.running.cnt_lt
    obtain ⟨k, hk⟩ : ∃ k, s.recodeSteps = k + 1 := ⟨s.recodeSteps - 1, by omega⟩
    obtain ⟨p, rows, hrun, hmid⟩ := h.running.run_continues h.phase h.host k (by rw [hcnt, hk]; exact k.lt_succ_self)
    obtain ⟨t, hstep, hphase, hrows, hrsp⟩ := hmid.step_answers h.phase h.host (by rw [hcnt]; exact hk.symm)
    refine ⟨t, ?_, hphase, hrows, ?_⟩
    · rw [hk]; exact (run_add hrun).trans (run_succ hstep)
    · rw [← h.multiplicand, ← h.multiplier]; exact hrsp

/-- The values a multiplication answers are the exact ones: the product's, as an integer and as a fixed-point
number, and the operands' (R168). -/
theorem AnswersProduct.values {a b : Vec} {s t : State} (h : AnswersProduct a b s t) (hs : MulStart a b s) :
    t.rsp.vec.sint = a.sint * b.sint ∧ t.rsp.vec.value t.rsp.frac = a.value s.fa * b.value s.fb ∧
      t.rsp.val.value = a.value s.fa * b.value s.fb ∧ t.rsp.valA.value = a.value s.fa ∧
      t.rsp.valB.value = b.value s.fb := by
  have hproduct : (bv s.accWidth (a.sint * b.sint)).sint = a.sint * b.sint := by
    rw [← hs.multiplicand, ← hs.multiplier]; exact hs.running.sint_product _ rfl
  have hvalue : (bv s.accWidth (a.sint * b.sint)).value (s.fa + s.fb) = a.value s.fa * b.value s.fb := by
    simp only [Vec.value, hproduct]
    push_cast
    rw [pow_add, mul_div_mul_comm]
  rw [h.rsp]
  refine ⟨hproduct, hvalue, (decodeDecimal_value _ _).trans hvalue, (decodeDecimal_value _ _).trans ?_,
    (decodeDecimal_value _ _).trans ?_⟩
  · simp only [Vec.value, hs.multiplicand]
  · simp only [Vec.value, hs.multiplier]

/-- Settles O35: the command loads a multiplication of `W` recoding steps into an accumulator of `2W` bits. -/
theorem mulbTwoAnswersTheExactProduct : Obligations.MulbTwoAnswersTheExactProduct := by
  intro s c a b n hp hhost hdecode hv
  have hstep := step_accepts hp hhost hdecode ((checkMul_eq_none_iff _ _ _ _).2 hv)
  have hstart := mulStart_loadMulb2 (s := { s with host := [] }) hv rfl
  obtain ⟨hmid, t, hrun, hanswer⟩ := hstart.exists_answersProduct
  obtain ⟨hsint, hvalue, hval, hvalA, hvalB⟩ := hanswer.values hstart
  refine ⟨fun k hk hkn => ?_, t, ?_, hanswer.phase, ?_, ?_, hsint, ?_, ?_, hanswer.rows, hvalue, hval, hvalA, hvalB⟩
  · obtain ⟨j, rfl⟩ : ∃ j, k = j + 1 := ⟨k - 1, by omega⟩
    obtain ⟨u, hu, hphase, hrows⟩ := hmid j hkn
    exact ⟨u, (run_succ hstep).trans hu, hphase, hrows⟩
  · rw [Nat.add_comm]; exact (run_succ hstep).trans hrun
  all_goals rw [hanswer.rsp]; rfl

end Sys2Proof.Machine
end

/-! ### The radix-4 multiplier: its accept step, its step and its digits (R192 to R199) -/

section
namespace Sys2Proof.Machine

theorem evenBit_eq_decide (w : Nat) : evenBit w = decide (w % 2 = 1) := rfl

theorem pairedLength_eq_ite (w : Nat) : pairedLength w = if w % 2 = 1 then w + 1 else w := by
  simp only [pairedLength, evenBit_eq_decide, decide_eq_true_eq]

/-- Settles O28: the load of a valid `MULB4`, over the clearing of trace and response. -/
theorem mulbFourAcceptLoadsItsRegisters : Obligations.MulbFourAcceptLoadsItsRegisters := by
  intro s a b n hidle hv
  rw [exec_mulb4_accepts hidle hv, ← pairedLength_eq_ite]
  rfl

theorem four_pow_eq_two_pow (k : Nat) : (4 : Int) ^ k = 2 ^ (2 * k) := by
  rw [pow_mul]; rfl

/-- Settles O32: the recoding step as one record update at bit `2k`, then the advance or the response. -/
theorem mulbFourStepAddsThePartialProduct : Obligations.MulbFourStepAddsThePartialProduct := by
  intro s hphase hopc
  have hwork : work s = .next (mstepMulb4 s) := by simp [work, hphase, hopc]
  dsimp only
  rw [hwork, mstepMulb4, recodeStep_eq, four_pow_eq_two_pow]
  rfl

/-- The value of the radix-4 digit `k` of an extended multiplier. -/
def bitPairDigitAt (mq : Vec) (k : Nat) : Int :=
  (bitPairDigit (mq.bit (2 * k + 2)) (mq.bit (2 * k + 1)) (mq.bit (2 * k))).val

/-- What the next pair of multiplier bits adds to its signed value. -/
theorem sint_slice_pair_succ {mq : Vec} (h0 : mq.bit 0 = false) (k : Nat) :
    (mq.slice 1 (2 * (k + 1))).sint = (mq.slice 1 (2 * k)).sint + bitPairDigitAt mq k * 4 ^ k := by
  rw [Nat.mul_succ, Vec.sint_slice_succ mq _ h0, Vec.sint_slice_succ mq _ h0, bitPairDigitAt, bitPairDigit_val,
    four_pow_eq_two_pow, pow_succ]
  ring

/-- Settles O34, by induction on the number of digits. -/
theorem bitPairDigitsSumToTheMultiplier : Obligations.BitPairDigitsSumToTheMultiplier := by
  intro mq k h0
  induction k with
  | zero => simp
  | succ k ih =>
    rw [List.range_succ, List.map_append, List.sum_append, ih, sint_slice_pair_succ h0, bitPairDigitAt,
      List.map_singleton, List.sum_singleton]

end Sys2Proof.Machine
end

/-! ### The run of a `MULB4` command and the agreement of the radices (R197, R200, R201) -/

section
namespace Sys2Proof

/-- Sign extension by one bit doubles the top bit (R15). -/
theorem Vec.bit_sext_succ_top {v : Vec} (h : 1 ≤ v.len) :
    (v.sext (v.len + 1)).bit v.len = (v.sext (v.len + 1)).bit (v.len - 1) := by
  rw [Vec.bit_sext v.len.le_succ v.len.lt_succ_self, Vec.bit_sext v.len.le_succ (by omega), if_neg (lt_irrefl _),
    if_pos (by omega)]

end Sys2Proof

namespace Sys2Proof.Machine

/-- The run of a command whose `accept` step loads a multiplication. -/
theorem MulStart.exists_run {a b : Vec} {s s₁ : State} (h : MulStart a b s₁) (hstep : step s = .next s₁) :
    (∀ k, 1 ≤ k → k ≤ s₁.recodeSteps →
      ∃ t, Host.Core.run Sys2Proof.core k s = .next t ∧ t.phase = .mstep ∧ t.trace.length = k - 1) ∧
      ∃ t, Host.Core.run Sys2Proof.core (1 + s₁.recodeSteps) s = .next t ∧ AnswersProduct a b s₁ t := by
  obtain ⟨hmid, t, hrun, hanswer⟩ := h.exists_answersProduct
  refine ⟨fun k hk hle => ?_, t, ?_, hanswer⟩
  · obtain ⟨j, rfl⟩ := Nat.exists_eq_add_of_le' hk
    obtain ⟨u, hu, hworking⟩ := hmid j hle
    exact ⟨u, (run_succ hstep).trans hu, hworking⟩
  · rw [Nat.add_comm]; exact (run_succ hstep).trans hrun

section
variable {s : State} {c : Command} {a b : VecDesc} {n : LenDesc} (hp : s.phase = .idle) (hhost : s.host = [.command c])
  (hv : ValidMul s.params a b n)
include hp hhost hv

theorem step_accepts_mulb2 (hdecode : decode c = .ok (.mulb2 a b n)) :
    step s = .next (loadMulb2 a b n (beginCommand 0x8#4 { s with host := [] })) :=
  step_accepts hp hhost hdecode ((checkMul_eq_none_iff _ _ _ _).2 hv)

theorem step_accepts_mulb4 (hdecode : decode c = .ok (.mulb4 a b n)) :
    step s = .next (loadMulb4 a b n (beginCommand 0x9#4 { s with host := [] })) :=
  step_accepts hp hhost hdecode ((checkMul_eq_none_iff _ _ _ _).2 hv)

end

/-- Settles O36: the command loads a multiplication of `K = ceil(W/2)` recoding steps into an accumulator of `2W + 1`
bits. -/
theorem mulbFourAnswersTheExactProduct : Obligations.MulbFourAnswersTheExactProduct := by
  intro s c a b n hp hhost hdecode hv
  have hstart := mulStart_loadMulb4 (s := { s with host := [] }) hv rfl
  obtain ⟨hmid, t, hrun, hanswer⟩ := hstart.exists_run (step_accepts_mulb4 hp hhost hv hdecode)
  obtain ⟨hsint, hvalue, hval, hvalA, hvalB⟩ := hanswer.values hstart
  refine ⟨hmid, t, hrun, hanswer.phase, ?_, ?_, hsint, ?_, ?_, hanswer.rows, hvalue, hval, hvalA, hvalB⟩
  all_goals rw [hanswer.rsp]; rfl

/-- The decoded value of a vector depends on its signed value only. -/
theorem decodeDecimal_congr {v w : Vec} (h : v.sint = w.sint) (f : Nat) : decodeDecimal v f = decodeDecimal w f := by
  have hneg : v.msb = w.msb := by rw [Bool.eq_iff_iff, Vec.msb_iff_sint_neg, Vec.msb_iff_sint_neg, h]
  rw [Decoded.mk.injEq]
  exact ⟨by rw [decodeDecimal_neg, decodeDecimal_neg, hneg], by rw [decodeDecimal_mag, decodeDecimal_mag, h], rfl⟩

theorem AnswersProduct.vec_eq {a b : Vec} {s t : State} (h : AnswersProduct a b s t) :
    t.rsp.vec = bv s.accWidth (a.sint * b.sint) := by
  rw [h.rsp]; rfl

/-- The triples a multiplication answers are those of the product and of the operands as presented: the extensions
keep the signed values. -/
theorem AnswersProduct.decoded {a b : Vec} {s t : State} (h : AnswersProduct a b s t) (hs : MulStart a b s) :
    t.rsp.val = decodeDecimal t.rsp.vec (s.fa + s.fb) ∧ t.rsp.valA = decodeDecimal a s.fa ∧
      t.rsp.valB = decodeDecimal b s.fb := by
  rw [h.rsp]
  exact ⟨rfl, decodeDecimal_congr hs.multiplicand _, decodeDecimal_congr hs.multiplier _⟩

/-- Settles O37: both runs answer the one exact product, in accumulators of `2W` and `2W + 1` bits. -/
theorem bothRadicesAgree : Obligations.BothRadicesAgree := by
  intro s₂ s₄ c₂ c₄ a b n hp₂ hhost₂ hdecode₂ hv₂ hp₄ hhost₄ hdecode₄ hv₄
  have hstart₂ := mulStart_loadMulb2 (s := { s₂ with host := [] }) hv₂ rfl
  have hstart₄ := mulStart_loadMulb4 (s := { s₄ with host := [] }) hv₄ rfl
  obtain ⟨-, t₂, hrun₂, hanswer₂⟩ := hstart₂.exists_run (step_accepts_mulb2 hp₂ hhost₂ hv₂ hdecode₂)
  obtain ⟨-, t₄, hrun₄, hanswer₄⟩ := hstart₄.exists_run (step_accepts_mulb4 hp₄ hhost₄ hv₄ hdecode₄)
  obtain ⟨hsint₂, -⟩ := hanswer₂.values hstart₂
  obtain ⟨hsint₄, -⟩ := hanswer₄.values hstart₄
  obtain ⟨hval₂, hvalA₂, hvalB₂⟩ := hanswer₂.decoded hstart₂
  obtain ⟨hval₄, hvalA₄, hvalB₄⟩ := hanswer₄.decoded hstart₄
  have hlen : t₂.rsp.vec.len = 2 * n.val := by rw [hanswer₂.vec_eq]; rfl
  have hsext : t₄.rsp.vec = t₂.rsp.vec.sext (2 * n.val + 1) := by
    rw [hanswer₄.vec_eq, Vec.sext, hsint₂]; rfl
  have htop : t₄.rsp.vec.bit (2 * n.val) = t₄.rsp.vec.bit (2 * n.val - 1) := by
    obtain ⟨-, hpos, -⟩ := hv₂.word_ok
    rw [hsext, ← hlen]
    exact Vec.bit_sext_succ_top (by omega)
  have hval : t₄.rsp.val = t₂.rsp.val :=
    (hval₄.trans (decodeDecimal_congr (hsint₄.trans hsint₂.symm) _)).trans hval₂.symm
  exact ⟨t₂, t₄, hrun₂, hrun₄, hanswer₂.phase, hanswer₄.phase, hsext, htop, hval, hvalA₄.trans hvalA₂.symm,
    hvalB₄.trans hvalB₂.symm⟩

end Sys2Proof.Machine
end

/-! ### The checks, the accept step and the steps of both dividers (R222 to R234, R277, R278, R289) -/

section
namespace Sys2Proof.Machine

/-- An integer that is none, or that is outside the field of `NMAX + 1` bits (R96, R277). -/
theorem badInteger_iff (p : Params) (x : IntDesc) :
    badInteger p x = true ↔ x.bad = true ∨ ∃ b ∈ p.nmax, x.val < -2 ^ b ∨ 2 ^ b ≤ x.val := by
  unfold badInteger fitsInteger
  cases p.nmax with
  | none => simp
  | some b => simp

/-- Settles O16: the conditions are the checks of both dividers' validation, in its order. -/
theorem dividerChecksInOrder : Obligations.DividerChecksInOrder := by
  intro s x y e hidle hfirst
  have hcheck : checkDiv s.params x y = some e := by
    simpa only [checkDiv, firstError_cons, firstError_nil, decide_eq_true_eq, beq_iff_eq, badInteger_iff] using hfirst
  exact ⟨exec_raises hidle hcheck, exec_raises hidle hcheck⟩

/-- Settles O39: the load of a valid division, at the least width that holds both operands. -/
theorem dividerAcceptLoadsItsRegisters : Obligations.DividerAcceptLoadsItsRegisters := by
  intro s x y hidle hv
  have hvalid := (checkDiv_eq_none_iff _ _ _).2 hv
  refine ⟨_, divWidth_pos _ _, divWidth_le_iff_of_valid hv, within_divWidth hv, fun op i hi => ?_⟩
  obtain ⟨rfl, rfl⟩ | ⟨rfl, rfl⟩ := hi <;> exact exec_idle_ok hidle hvalid

section
variable {s : State} (ho : s.opc = 0xC#4 ∨ s.opc = 0xD#4)
include ho

theorem divStep_of_opcode (f : State → State) : divStep f s = .next (f s) := by
  rcases ho with ho | ho <;> simp [divStep, State.dividing, ho]

/-- The policy bit tells the two dividers apart (R33). -/
theorem nonRestoring_eq_decide : s.nonRestoring = decide (s.opc = 0xD#4) := by
  rcases ho with ho | ho <;> simp [State.nonRestoring, ho]

end

/-- Settles O40: the step as it stands, with the policy bit read as the opcode. -/
theorem dshiftShiftsBothRegisters : Obligations.DshiftShiftsBothRegisters := by
  intro s hp ho
  rw [work, hp, divStep_of_opcode ho dshift]
  simp only [dshift, nonRestoring_eq_decide ho, decide_eq_true_eq]
  rfl

/-- Settles O41: the addition, or the subtraction as the addition of `MN`. -/
theorem darithAddsOrSubtracts : Obligations.DarithAddsOrSubtracts := by
  intro s hp ho hqp adds mn a
  have hadds : (s.nonRestoring && s.sgn) = true ↔ adds := by simp [nonRestoring_eq_decide ho, adds]
  rw [work, hp, divStep_of_opcode ho darith]
  simp only [darith, emitCycle, emit, divRow, hqp, hadds, a]
  split_ifs <;> rfl

/-- The advance as one record update (R232). -/
theorem advanceCycle_eq (s : State) :
    advanceCycle s = { s with
      cnt := if s.cnt < s.nreg then s.cnt + 1 else s.cnt
      phase := if s.cnt < s.nreg then .dshift
        else if s.nonRestoring = true ∧ s.aNeg = true then .dcorr else .dfinal } := by
  simp only [advanceCycle, Bool.and_eq_true]
  split_ifs <;> rfl

/-- The setting of the quotient bit as one record update (R230, R231). -/
theorem setQuotientBit_eq (s : State) :
    setQuotientBit s =
      let s' := { s with
        a := if s.aNeg = true ∧ s.nonRestoring = false then s.aPlusM else s.a
        q := s.q.writeBit0 (!s.aNeg)
        qp := false }
      let act : Action := if s.aNeg = true then (if s.nonRestoring = false then .restore else .set0) else .set1
      emitCycle act s' := by
  unfold setQuotientBit
  cases s.aNeg <;> cases s.nonRestoring <;> rfl

/-- Settles O42: the setting of the quotient bit, then the advance on the `A` it leaves. -/
theorem dsetSetsTheQuotientBit : Obligations.DsetSetsTheQuotientBit := by
  intro s hp ho
  have hrestoring : s.nonRestoring = false ↔ s.opc = 0xC#4 := by
    rcases ho with ho | ho <;> simp [State.nonRestoring, ho]
  have hcorrects : (setQuotientBit s).nonRestoring = true ↔ s.opc = 0xD#4 := by
    rw [nonRestoring_congr (setQuotientBit_sameDivision s).opc, nonRestoring_eq_decide ho, decide_eq_true_eq]
  rw [work, hp, divStep_of_opcode ho dset, dset_eq, advanceCycle_eq]
  simp only [hcorrects]
  simp only [setQuotientBit_eq, hrestoring]
  rfl

/-- Settles O43: the step as it stands. -/
theorem dcorrAddsTheDivisorOnce : Obligations.DcorrAddsTheDivisorOnce := by
  intro s hp ho
  rw [work, hp, if_pos ho]
  rfl

/-- Settles O44: the step as it stands, with the policy bit read as the opcode. -/
theorem dfinalAnswersQuotientAndRemainder : Obligations.DfinalAnswersQuotientAndRemainder := by
  intro s hp ho
  rw [work, hp, divStep_of_opcode ho dfinal]
  simp only [dfinal, nonRestoring_eq_decide ho]
  rfl

end Sys2Proof.Machine
end

/-! ### What the divider invariant says of the accumulator (R240, R241) -/

section
namespace Sys2Proof.Machine

/-- Around `DARITH` a division is in progress. -/
theorem DivInv.running_of_phase {s : State} (h : DivInv s) (hp : s.phase = .darith ∨ s.phase = .dset) : DivRunning s :=
  h.running (by rcases hp with hp | hp <;> simp [State.inDivision, State.working, hp])

/-- The quotient bits already set only take away from the leading part of the dividend. -/
theorem cycleRest_le_dividend_div (s : State) : s.cycleRest ≤ (s.dividend / 2 ^ (s.nreg - s.cnt) : Nat) :=
  sub_le_self _ (by positivity)

/-- Settles O52: the restoring divider holds the rest itself, which is below `2y` and at most the dividend. -/
theorem restoringShiftKeepsTheTopBitClear : Obligations.RestoringShiftKeepsTheTopBitClear := by
  intro s h hp ho
  have hr := h.running_of_phase (.inl hp)
  obtain ⟨hcycle, ha⟩ := hr.at_arith hp
  have hlo := hcycle.rest_nonneg
  have hhi := hcycle.rest_lt
  have hdividend := cycleRest_le_dividend_div s
  have hrest : (s.a.uint : Int) = s.cycleRest := by
    have hm := hr.shape.m_lt_int
    rw [nonRestoring_eq_decide (.inl ho), ho] at ha
    simp only [BitVec.reduceEq, decide_false, Bool.false_and, Bool.false_eq_true, if_false, sub_zero] at ha
    rw [ha, uint_bv_of_lt hlo (by rw [pow_succ]; omega)]
  have hle : s.a.uint ≤ s.dividend / 2 ^ (s.nreg - s.cnt) := by omega
  have hlt : s.a.uint < 2 ^ s.nreg := (hle.trans (Nat.div_le_self _ _)).trans_lt hr.dividend_lt
  exact ⟨by omega, hle, hlt, by rw [Vec.bit_eq_testBit, Nat.testBit_lt_two_pow hlt]⟩

/-- Settles O53: the difference is that of a rest below `2y` and the divisor, and it fits the accumulator. -/
theorem signAfterArithmeticIsTrue : Obligations.SignAfterArithmeticIsTrue := by
  intro s h hp
  have hr := h.running_of_phase (.inr hp)
  obtain ⟨hcycle, ha⟩ := hr.at_set hp
  have hlo := hcycle.rest_nonneg
  have hhi := hcycle.rest_lt
  exact ⟨by omega, by omega, aNeg_iff hr.a_len⟩

end Sys2Proof.Machine
end

/-! ### The agreement of the dividers (R243) -/

section
namespace Sys2Proof.Machine

/-- A run of `k + 1` steps that does not stop begins with a step that does not. -/
theorem exists_step_of_run_succ {k : Nat} {s t : State} (h : Host.Core.run Sys2Proof.core (k + 1) s = .next t) :
    ∃ u, step s = .next u ∧ Host.Core.run Sys2Proof.core k u = .next t := by
  cases hu : step s with
  | next u => exact ⟨u, rfl, (run_succ hu).symm.trans h⟩
  | fault | refused =>
    simp only [Host.Core.run] at h
    rw [show Sys2Proof.core.step s = step s from rfl, hu] at h
    cases h

/-- What every step keeps, every run keeps. -/
theorem KeptByParts.run {I : State → Prop} (hI : KeptByParts I) {k : Nat} {s t : State} (hs : I s)
    (h : Host.Core.run Sys2Proof.core k s = .next t) : I t := by
  induction k generalizing s with
  | zero => cases h; exact hs
  | succ k ih =>
    obtain ⟨u, hu, hrun⟩ := exists_step_of_run_succ h
    exact ih (hI.step hs hu) hrun

/-- The response of a division with the quotient, remainder, variant and width of `r` (R98, R234). -/
def Response.division (r : Response) : Response := { quo := r.quo, rem := r.rem, alg := r.alg, n := r.n }

/-- A response that gives a width is a division's, and fills no field that a division does not fill (R98). -/
def FillsOnlyDivisionFields (s : State) : Prop := s.phase = .resp → s.rsp.n ≠ 0 → s.rsp = s.rsp.division

theorem FillsOnlyDivisionFields.of_phase {s : State} (h : s.phase ≠ .resp) : FillsOnlyDivisionFields s :=
  fun hp => absurd hp h

theorem FillsOnlyDivisionFields.of_no_width {s : State} (h : s.rsp.n = 0) : FillsOnlyDivisionFields s :=
  fun _ hn => absurd h hn

theorem fillsOnlyDivisionFields_recodeAdvance (d : Digit) (exam : BitVec 3) (flag : Bool) {s : State}
    (hp : s.phase = .mstep) : FillsOnlyDivisionFields (recodeAdvance d exam flag s) := by
  by_cases hlast : s.cnt + 1 < s.recodeSteps
  · rw [recodeAdvance_of_lt hlast, recodeStep_eq]
    exact .of_phase (by simp [hp])
  · rw [recodeAdvance_of_not_lt hlast]
    exact .of_no_width rfl

theorem FillsOnlyDivisionFields.of_work {s t : State} (h : FillsOnlyDivisionFields s) (hwork : work s = .next t) :
    FillsOnlyDivisionFields t := by
  obtain ⟨-, rfl⟩ | ⟨-, rfl⟩ | ⟨hp, ho, rfl⟩ | ⟨hp, ho, rfl⟩ | ⟨-, -, rfl⟩ | ⟨-, -, rfl⟩ | ⟨-, -, rfl⟩ |
    ⟨-, -, rfl⟩ | ⟨-, -, rfl⟩ := work_cases hwork
  · exact h
  · exact h
  · rw [mstepMulb2_eq_recodeAdvance ho]; exact fillsOnlyDivisionFields_recodeAdvance _ _ _ hp
  · rw [mstepMulb4_eq_recodeAdvance ho]; exact fillsOnlyDivisionFields_recodeAdvance _ _ _ hp
  · exact .of_phase nofun
  · exact .of_phase (by simp)
  · refine .of_phase ?_
    obtain ht | ht | ⟨ht, -⟩ := dset_phase s <;> simp [ht]
  · exact .of_phase nofun
  · exact fun _ _ => rfl

theorem fillsOnlyDivisionFields_loadOf (i : Instr) (s : State) :
    FillsOnlyDivisionFields (loadOf i (beginCommand i.opcode s)) := by
  cases i with
  | padt | neg | adds | shl0 | dec => exact .of_no_width rfl
  | mulb2 | mulb4 | divr | divnr => exact .of_phase nofun

theorem fillsOnlyDivisionFields_keptByParts : KeptByParts FillsOnlyDivisionFields where
  host _ h := h
  errored _ _ _ := .of_no_width rfl
  load i _ _ := fillsOnlyDivisionFields_loadOf i _
  take _ _ := .of_phase nofun
  reset _ := .of_phase nofun
  work := FillsOnlyDivisionFields.of_work

/-- The whole response of a division from an idle block. -/
theorem DivisionRun.rsp_eq {s t : State} {op : BitVec 4} {x y : IntDesc} (h : DivisionRun s op x y t)
    (hidle : s.phase = .idle) : t.rsp = t.rsp.division := by
  have hfills := fillsOnlyDivisionFields_keptByParts.run (.of_phase (by simp [hidle])) h.first.run
  exact hfills h.first.phase (by have := divWidth_pos x.val.toNat y.val.toNat; rw [h.width]; omega)

/-- Settles O47: both runs answer the one true quotient and remainder at the one width. -/
theorem bothDividersAgree : Obligations.BothDividersAgree := by
  intro s s' c c' x y hp hhost hdecode hv hp' hhost' hdecode' hv'
  obtain ⟨t, h⟩ := exists_divisionRun (.inl rfl) hp hhost hdecode hv
  obtain ⟨t', h'⟩ := exists_divisionRun (.inr rfl) hp' hhost' hdecode' hv'
  have hquo : t'.rsp.quo = t.rsp.quo := by exact_mod_cast h'.quo.trans h.quo.symm
  have hrem : t'.rsp.rem = t.rsp.rem := by exact_mod_cast h'.rem.trans h.rem.symm
  have halg : t.rsp.alg = false := h.alg.trans (by simp [Instr.opcode])
  have halg' : t'.rsp.alg = true := h'.alg.trans (by simp [Instr.opcode])
  have hrsp : t'.rsp = { t.rsp with alg := true } := by
    rw [h'.rsp_eq hp', h.rsp_eq hp, Response.division, hquo, hrem, halg', h'.width, ← h.width]
    rfl
  exact ⟨_, _, t, t', h.first.run, h'.first.run, h.first.phase, h'.first.phase, h.status, hrsp, halg⟩

end Sys2Proof.Machine
end

/-! ### Error entry (R270, R279, R281) -/

section
namespace Sys2Proof.Machine

/-- An idle block answers a command byte that is no operation with `IllegalCommand`, operand indicator 3 (R270). -/
theorem present_illegal {s : State} {c : Command} {e : DecodeError} (hidle : s.phase = .idle)
    (hdecode : decode c = .error e) :
    present c s = .next (State.errored c.op ⟨.illegalCommand, .third⟩ s) := by
  rw [present, hdecode]
  exact accept_idle_some hidle

/-- Settles O6: the step is the presenting of the command, the host having used up its action. -/
theorem illegalByteIsAnswered : Obligations.IllegalByteIsAnswered := by
  intro s c rest e hidle hhost hdecode
  rw [step_cons hhost]
  exact present_illegal hidle hdecode

/-- Settles O13: the two ways into error entry, by the validation of an instruction and by the command byte. -/
theorem errorEntryWritesOnlyTheResponse : Obligations.ErrorEntryWritesOnlyTheResponse :=
  fun _ hidle => ⟨fun _ _ herr => exec_raises hidle herr, fun _ _ hdecode => present_illegal hidle hdecode⟩

/-- In `MSTEP` a `work` step is a recoding step of one of the multipliers, whatever the registers hold. -/
theorem work_mstep_eq_recodeAdvance {s t : State} (h : work s = .next t) (hp : s.phase = .mstep) :
    ∃ d exam flag, t = recodeAdvance d exam flag s := by
  obtain ⟨hp', -⟩ | ⟨hp', -⟩ | ⟨-, ho, rfl⟩ | ⟨-, ho, rfl⟩ | ⟨hp', -⟩ | ⟨hp', -⟩ | ⟨hp', -⟩ | ⟨hp', -⟩ |
    ⟨hp', -⟩ := work_cases h
  case inr.inr.inl => exact ⟨_, _, _, mstepMulb2_eq_recodeAdvance ho⟩
  case inr.inr.inr.inl => exact ⟨_, _, _, mstepMulb4_eq_recodeAdvance ho⟩
  all_goals simp [hp] at hp'

/-- A recoding step answers only with a product (R167, R199). -/
theorem recodeAdvance_status {d : Digit} {exam : BitVec 3} {flag : Bool} {s : State} (hp : s.phase = .mstep)
    (ht : (recodeAdvance d exam flag s).phase = .resp) : (recodeAdvance d exam flag s).rsp.status = .ok := by
  by_cases hlast : s.cnt + 1 < s.recodeSteps
  · rw [recodeAdvance_of_lt hlast, recodeStep_eq] at ht
    simp [hp] at ht
  · rw [recodeAdvance_of_not_lt hlast]
    rfl

/-- Settles O55: a multiplication answers its product, a division its quotient and remainder. -/
theorem workStepsRaiseNoError : Obligations.WorkStepsRaiseNoError := by
  intro s t hwork hworking ht
  by_cases hp : s.phase = .mstep
  · obtain ⟨d, exam, flag, rfl⟩ := work_mstep_eq_recodeAdvance hwork hp
    exact recodeAdvance_status hp ht
  · have hdivision : s.inDivision = true := by simp [State.inDivision, hworking, hp]
    exact (work_answers hwork hdivision ht).1

end Sys2Proof.Machine
end

/-! ### The command port in a busy block, and the reset step (R300, R311, R313) -/

section
namespace Sys2Proof.Machine

theorem busy_iff (s : State) : s.busy = true ↔ s.phase ≠ .idle := bne_iff_ne

/-- Settles O7: a busy block has no transition for a command, whether or not its byte is an operation. -/
theorem commandWhileBusyHasNoEffect : Obligations.CommandWhileBusyHasNoEffect := by
  intro s c rest hbusy hhost
  rw [step_cons hhost]
  exact present_busy c ((busy_iff s).1 hbusy)

/-- Settles O10: the reset step writes the values of `State.reset`, whatever the phase was. -/
theorem resetStepFromAnyPhase : Obligations.ResetStepFromAnyPhase :=
  fun _ _ hhost => ⟨_, step_cons hhost, rfl, rfl, rfl, rfl, rfl, rfl, rfl, rfl⟩

theorem work_resp {s : State} (hp : s.phase = .resp) : work s = .next s := by
  rw [work, hp]

/-- Only a take or a reset has a transition in `RESP`. -/
theorem act_resp {a : HostAction} {s : State} (hp : s.phase = .resp) (ha : a ≠ .take ∧ a ≠ .reset) :
    act a s = .next s := by
  cases a with
  | command c => exact present_busy c (by simp [hp])
  | take => exact absurd rfl ha.1
  | reset => exact absurd rfl ha.2
  | nothing => exact work_resp hp

theorem run_resp_waiting {waiting rest : List HostAction} {s : State} (hp : s.phase = .resp)
    (hwaiting : ∀ a ∈ waiting, a ≠ .take ∧ a ≠ .reset) (hhost : s.host = waiting ++ rest) :
    Host.Core.run Sys2Proof.core waiting.length s = .next { s with host := rest } := by
  induction waiting generalizing s with
  | nil => subst hhost; rfl
  | cons a waiting ih =>
    rw [List.forall_mem_cons] at hwaiting
    have hstep : step s = .next { s with host := waiting ++ rest } :=
      (step_cons hhost).trans (act_resp hp hwaiting.1)
    exact (run_succ hstep).trans (ih hp hwaiting.2 rfl)

theorem run_resp_alone {s : State} (hp : s.phase = .resp) (hhost : s.host = []) (k : Nat) :
    Host.Core.run Sys2Proof.core k s = .next s := by
  induction k with
  | zero => rfl
  | succ k ih => exact (run_succ ((step_nil hhost).trans (work_resp hp))).trans ih

/-- Settles O9: by induction on the actions of the waiting host, and on the steps without one. -/
theorem responseIsHeldUntilTaken : Obligations.ResponseIsHeldUntilTaken :=
  fun _ _ hp hwaiting => ⟨fun _ => run_resp_waiting hp hwaiting, fun k hhost => run_resp_alone hp hhost k⟩

end Sys2Proof.Machine
end

/-! ### The response to every command (R321, R322) -/

section
namespace Sys2Proof.Machine

/-- `k` is a number of `work` steps that R321 gives the command `c` under the parameters `p`. -/
structure TakesWorkSteps (p : Params) (c : Command) (k : Nat) : Prop where
  valid : ∀ i, decode c = .ok i → errorOf p i = none → k = i.workSteps ∨ (i.opcode = 0xD#4 ∧ k + 1 = i.workSteps)
  raises : ∀ i e, decode c = .ok i → errorOf p i = some e → k = 0
  illegal : ∀ e, decode c = .error e → k = 0

theorem TakesWorkSteps.of_valid {p : Params} {c : Command} {i : Instr} {k : Nat} (hdecode : decode c = .ok i)
    (hv : errorOf p i = none) (hk : k = i.workSteps ∨ (i.opcode = 0xD#4 ∧ k + 1 = i.workSteps)) :
    TakesWorkSteps p c k where
  valid j hj _ := by
    obtain rfl : i = j := Except.ok.inj (hdecode.symm.trans hj)
    exact hk
  raises j e hj he := by
    obtain rfl : i = j := Except.ok.inj (hdecode.symm.trans hj)
    exact nomatch hv.symm.trans he
  illegal _ he := nomatch hdecode.symm.trans he

theorem takesWorkSteps_zero {p : Params} {c : Command} (h : ∀ i, decode c = .ok i → errorOf p i ≠ none) :
    TakesWorkSteps p c 0 where
  valid i hdecode hv := absurd hv (h i hdecode)
  raises _ _ _ _ := rfl
  illegal _ _ := rfl

section
variable {s : State} {c : Command} (hp : s.phase = .idle)
include hp

theorem firstResponse_one {t : State} (hstep : step s = .next t) (ht : t.phase = .resp) : FirstResponse 1 s t :=
  (FirstResponse.zero ht).succ hstep (by simp [hp])

/-- The step in which the host presents the command of an instruction that raises an error to an idle block. -/
theorem step_raises {i : Instr} {e : ErrInfo} {rest : List HostAction} (hhost : s.host = .command c :: rest)
    (hdecode : decode c = .ok i) (he : errorOf s.params i = some e) :
    step s = .next (State.errored i.opcode e { s with host := rest }) := by
  rw [step_cons hhost, act, present, hdecode]
  exact exec_raises (s := { s with host := rest }) hp he

variable (hhost : s.host = [.command c])
include hhost

theorem exists_firstResponse_of_mul {a b : VecDesc} {n : LenDesc} {k : Nat} (hv : ValidMul s.params a b n)
    (hi : decode c = .ok (.mulb2 a b n) ∧ k = n.val ∨ decode c = .ok (.mulb4 a b n) ∧ k = (n.val + 1) / 2) :
    ∃ t, FirstResponse (k + 1) s t := by
  obtain ⟨s₁, hstep, hstart, rfl⟩ := exists_mulStart hp hhost hv hi
  obtain ⟨t, hfirst, -⟩ := hstart.exists_answer
  exact ⟨t, hfirst.succ hstep (by simp [hp])⟩

/-- The first response to a valid instruction comes with the last of its `work` steps; of `DIVNR`, which corrects once
or not at all, perhaps one earlier. -/
theorem exists_firstResponse_of_valid {i : Instr} (hdecode : decode c = .ok i) (hv : errorOf s.params i = none) :
    ∃ k t, FirstResponse (k + 1) s t ∧ (k = i.workSteps ∨ (i.opcode = 0xD#4 ∧ k + 1 = i.workSteps)) := by
  cases i with
  | padt | neg | adds | shl0 | dec =>
    exact ⟨0, _, firstResponse_one hp (step_accepts hp hhost hdecode hv) rfl, .inl rfl⟩
  | mulb2 a b n =>
    obtain ⟨t, hfirst⟩ :=
      exists_firstResponse_of_mul hp hhost ((checkMul_eq_none_iff _ _ _ _).1 hv) (.inl ⟨hdecode, rfl⟩)
    exact ⟨_, t, hfirst, .inl rfl⟩
  | mulb4 a b n =>
    obtain ⟨t, hfirst⟩ :=
      exists_firstResponse_of_mul hp hhost ((checkMul_eq_none_iff _ _ _ _).1 hv) (.inr ⟨hdecode, rfl⟩)
    exact ⟨_, t, hfirst, .inl rfl⟩
  | divr x y =>
    obtain ⟨t, h⟩ := exists_divisionRun (.inl rfl) hp hhost hdecode ((checkDiv_eq_none_iff _ _ _).1 hv)
    have hcorrections : t.corrections = 0 := by simpa [Instr.opcode] using h.corrections_le
    exact ⟨_, t, h.first, .inl (by rw [hcorrections]; rfl)⟩
  | divnr x y =>
    obtain ⟨t, h⟩ := exists_divisionRun (.inr rfl) hp hhost hdecode ((checkDiv_eq_none_iff _ _ _).1 hv)
    have hcorrections : t.corrections ≤ 1 := h.corrections_le.trans (Bool.toNat_le _)
    refine ⟨_, t, h.first, ?_⟩
    simp only [Instr.workSteps, Instr.opcode, true_and]
    omega

theorem exists_firstResponse_of_command : ∃ k t, FirstResponse (k + 1) s t ∧ TakesWorkSteps s.params c k := by
  cases hdecode : decode c with
  | error e =>
    have hstep := illegalByteIsAnswered s c [] e hp hhost hdecode
    exact ⟨0, _, firstResponse_one hp hstep rfl, takesWorkSteps_zero (by simp [hdecode])⟩
  | ok i =>
    cases he : errorOf s.params i with
    | some e =>
      have hstep := step_raises hp hhost hdecode he
      exact ⟨0, _, firstResponse_one hp hstep rfl, takesWorkSteps_zero (by simp [hdecode, he])⟩
    | none =>
      obtain ⟨k, t, hfirst, hk⟩ := exists_firstResponse_of_valid hp hhost hdecode he
      exact ⟨k, t, hfirst, .of_valid hdecode he hk⟩

end

/-- Settles O58: the first response to each kind of command, and a rule for the next step of every state whose opcode
fits its phase. -/
theorem everyCommandIsAnswered : Obligations.EveryCommandIsAnswered := by
  refine ⟨fun s c hp hhost => ?_, fun s h => ?_⟩
  · obtain ⟨k, t, hfirst, hk⟩ := exists_firstResponse_of_command hp hhost
    exact ⟨k, t, Nat.add_comm k 1 ▸ hfirst.run, hfirst.phase, fun j hj => hfirst.earlier j (Nat.lt_succ_of_le hj),
      hk.valid, hk.raises, hk.illegal⟩
  · obtain ⟨t, hstep, -⟩ := h.opcodeFits.step_next
    exact ⟨t, hstep⟩

end Sys2Proof.Machine
end
